-- ==== Sys2Proof/Word.lean ====
section
/-! DEFINITION. The word types of the Huffman bit-codec block (HBC): bytes, symbols, command and response
words, bit strings (spec/00_scope.md R5, R8, R9; spec/30_encoding.md R43, R45). -/

namespace Sys2Proof

/-- A byte: bits 7 (most significant) down to 0 (R8). -/
abbrev Byte := BitVec 8

/-- A symbol of the source alphabet: `SYMW` = 8 bits (R5). -/
abbrev Symbol := BitVec 8

/-- A command word `cw` (R43). -/
abbrev CmdWord := BitVec 16

/-- A response word `rsp` (R45). -/
abbrev RspWord := BitVec 40

/-- The data field of a response, a header field, a counter, a register of the register view. -/
abbrev Word32 := BitVec 32

/-- A bit string: "ordered sequence of {0,1}", first bit first (R9). It is not a number: `[false]` and
`[false, false]` are different codewords. -/
abbrev BitString := List Bool

end Sys2Proof
end

