-- ==== Sys2Proof/Config.lean ====
section
/-! DEFINITION. The parameters of the block (spec/00_scope.md R5): the two fixed sizes, and the three
parameters the spec leaves OPEN, held as one record that no command changes. The spec leaves no value
free besides these (spec/93_implementation_defined.md), so there is no opaque constant. -/

namespace Sys2Proof

/-- `MAXLEN`: the longest codeword, staging register and accumulator, in bits (R5). -/
abbrev maxLen : Nat := 255

/-- `NENT`: the number of table entries, one per symbol value (R5). -/
abbrev nEnt : Nat := 256

/-- `FRAMING`: what the second header field counts (R5): payload bits, or source symbols. -/
inductive Framing where
  | bits
  | syms
deriving DecidableEq, Repr

/-- The three OPEN parameters of R5: static for the life of one block. -/
structure Params where
  /-- `FRAMING`. -/
  framing : Framing
  /-- `snk_wr`: the byte sink accepts appended bytes. -/
  snkWr : Bool
  /-- `src_rd`: the byte source can be read. -/
  srcRd : Bool
deriving DecidableEq, Repr

/-- The defaults of R5: `BITS`, `snk_wr` = 1, `src_rd` = 1. -/
def Params.default : Params := ⟨.bits, true, true⟩

end Sys2Proof
end

