-- ==== Sys2Proof/Syntax.lean ====
section
/-! DEFINITION. The 17 commands of spec/30_encoding.md R44, one constructor per row of
spec/opcode_table.json, and the four pseudo-commands of R52. -/

namespace Sys2Proof

/-- The host commands (R44). An operand the table marks must-be-zero is no field: the decoder rejects a
word in which it is not zero (R47). -/
inductive Instr where
  /-- `BW.OPEN`, 0x1000 (R53). -/
  | bwOpen
  /-- `BW.WRITE v`, 0x1100 + v: all 8 bits of the operand are taken (R46, R54). -/
  | bwWrite (v : BitVec 8)
  /-- `BW.FLUSH`, 0x1200 (R55). -/
  | bwFlush
  /-- `BR.OPEN`, 0x2000 (R58). -/
  | brOpen
  /-- `BR.READ`, 0x2100 (R59). -/
  | brRead
  /-- `LUT.CLR`, 0x3000 (R64). -/
  | lutClr
  /-- `LUT.BIT b`, 0x3100 + b: `arg[0]` is the bit (R46, R65). -/
  | lutBit (b : BitVec 1)
  /-- `LUT.COMMIT s`, 0x3200 + s (R66). -/
  | lutCommit (sym : Symbol)
  /-- `LUT.QRY`, 0x3300 (R67). -/
  | lutQry
  /-- `LUT.STGCLR`, 0x3400 (R68). -/
  | lutStgClr
  /-- `DEC.HDR`, 0x4000 (R71). -/
  | decHdr
  /-- `DEC.LDTAB`, 0x4100 (R72). -/
  | decLdTab
  /-- `DEC.START`, 0x4200 (R73). -/
  | decStart
  /-- `DEC.STEP`, 0x4300 (R75). -/
  | decStep
  /-- `DEC.RUN`, 0x4400 (R76). -/
  | decRun
  /-- `SYS.RD r`, 0xF000 + r (R80). -/
  | sysRd (r : BitVec 8)
  /-- `SYS.RESET`, 0xFF00 (R81). -/
  | sysReset
deriving DecidableEq, Repr

/-- The pseudo-commands (R52). -/
inductive Pseudo where
  /-- `BW.BITS "b0 ... bk-1"`. -/
  | bwBits (bits : BitString)
  /-- `LUT.ADD s, "b0 ... bk-1"`. -/
  | lutAdd (sym : Symbol) (bits : BitString)
  /-- `BR.BITS k`. -/
  | brBits (k : Nat)
  /-- `DEC.ALL`. -/
  | decAll
deriving DecidableEq, Repr

end Sys2Proof
end

