-- ==== Sys2Proof/WellFormed.lean ====
section
/-! DEFINITION. What is well formed: instructions, pseudo-commands, and the bit strings that may be
codewords. The operand types of `Instr` admit exactly the operands of spec/30_encoding.md R44 and R46, so
an instruction needs no further check; the checks of R18 and R37 (a codeword has 1 to 255 bits) and of
R65 (a pseudo-command stages at most 255 bits) are real ones. -/

namespace Sys2Proof

/-- Every term of `Instr` is a command of R44 with an operand it may have: `arg` is 0 to 255 whole for
`BW.WRITE`, `LUT.COMMIT` and `SYS.RD`, one bit for `LUT.BIT`, nothing for the others (R46). -/
def Instr.wellFormed : Instr → Bool
  | .bwOpen => true
  | .bwWrite _ => true
  | .bwFlush => true
  | .brOpen => true
  | .brRead => true
  | .lutClr => true
  | .lutBit _ => true
  | .lutCommit _ => true
  | .lutQry => true
  | .lutStgClr => true
  | .decHdr => true
  | .decLdTab => true
  | .decStart => true
  | .decStep => true
  | .decRun => true
  | .sysRd _ => true
  | .sysReset => true

/-- A bit string that a table entry may hold: length 1 to `MAXLEN` (R18). -/
def BitString.isCodeword (c : BitString) : Bool := decide (1 ≤ c.length ∧ c.length ≤ maxLen)

/-- A pseudo-command that can run to its end: the staging register holds at most `MAXLEN` bits (R52, R65). -/
def Pseudo.wellFormed : Pseudo → Bool
  | .bwBits _ => true
  | .lutAdd _ bits => decide (bits.length ≤ maxLen)
  | .brBits _ => true
  | .decAll => true

end Sys2Proof
end

