-- ==== Sys2Proof/Decode.lean ====
section
/-! DEFINITION. Decoding and encoding of command words (spec/30_encoding.md R43, R44, R46, R47): the opcode
map as a list of rows, the decoder (total, rejecting by name), and the encoder, written from R44's opcodes.
A command word is presented whole to the command port (R43), so there is no byte order to choose. -/

namespace Sys2Proof

/-- `op = cw[15:8]` (R43). -/
def opOf (cw : CmdWord) : Byte := cw.extractLsb' 8 8

/-- `arg = cw[7:0]` (R43). -/
def argOf (cw : CmdWord) : Byte := cw.extractLsb' 0 8

/-- One row of the opcode map: the words it takes, and the command it stands for with a given operand. -/
structure Row where
  pattern : CmdWord
  mask : CmdWord
  make : Byte → Instr

/-- The opcode map of R44, in its order. -/
def rows : List Row :=
  [ ⟨0x1000, 0xFFFF, fun _ => .bwOpen⟩,
    ⟨0x1100, 0xFF00, fun arg => .bwWrite arg⟩,
    ⟨0x1200, 0xFFFF, fun _ => .bwFlush⟩,
    ⟨0x2000, 0xFFFF, fun _ => .brOpen⟩,
    ⟨0x2100, 0xFFFF, fun _ => .brRead⟩ ] ++
  [ ⟨0x3000, 0xFFFF, fun _ => .lutClr⟩,
    ⟨0x3100, 0xFFFE, fun arg => .lutBit (arg.extractLsb' 0 1)⟩,
    ⟨0x3200, 0xFF00, fun arg => .lutCommit arg⟩,
    ⟨0x3300, 0xFFFF, fun _ => .lutQry⟩,
    ⟨0x3400, 0xFFFF, fun _ => .lutStgClr⟩ ] ++
  [ ⟨0x4000, 0xFFFF, fun _ => .decHdr⟩,
    ⟨0x4100, 0xFFFF, fun _ => .decLdTab⟩,
    ⟨0x4200, 0xFFFF, fun _ => .decStart⟩,
    ⟨0x4300, 0xFFFF, fun _ => .decStep⟩,
    ⟨0x4400, 0xFFFF, fun _ => .decRun⟩,
    ⟨0xF000, 0xFF00, fun arg => .sysRd arg⟩,
    ⟨0xFF00, 0xFFFF, fun _ => .sysReset⟩ ]

/-- "A word `cw` selects the command of a row exactly when `cw AND mask = match`" (R44). -/
def Row.selects (r : Row) (cw : CmdWord) : Bool := cw &&& r.mask == r.pattern

/-- Why a word is no command: the three classes of R47. -/
inductive DecodeReject where
  /-- R47 (1): `op` is not among the 17 listed. -/
  | unknownOpcode
  /-- R47 (2): the operand of this `op` must be zero and is not. -/
  | operandNotZero
  /-- R47 (3): `LUT.BIT` with one of `arg[7:1]` set. -/
  | bitOperandTooWide
deriving DecidableEq, Repr

/-- The class of R47 that a word selecting no row falls into. -/
def rejectOf (cw : CmdWord) : DecodeReject :=
  if (rows.map fun r => opOf r.pattern).contains (opOf cw) then
    if opOf cw = 0x31 then .bitOperandTooWide else .operandNotZero
  else .unknownOpcode

/-- The decoder (R44, R47): the command of the row the word selects, or the name of the rejection. -/
def decode (cw : CmdWord) : Except DecodeReject Instr :=
  match rows.find? fun r => r.selects cw with
  | some r => .ok (r.make (argOf cw))
  | none => .error (rejectOf cw)

/-- A command word put together from `op` and `arg` (R43). -/
def cmdWord (op arg : Byte) : CmdWord := op ++ arg

/-- The encoder: `op` from R44's table, `arg` the operand or zero. -/
def encode : Instr → CmdWord
  | .bwOpen => cmdWord 0x10 0
  | .bwWrite v => cmdWord 0x11 v
  | .bwFlush => cmdWord 0x12 0
  | .brOpen => cmdWord 0x20 0
  | .brRead => cmdWord 0x21 0
  | .lutClr => cmdWord 0x30 0
  | .lutBit b => cmdWord 0x31 (b.setWidth 8)
  | .lutCommit sym => cmdWord 0x32 sym
  | .lutQry => cmdWord 0x33 0
  | .lutStgClr => cmdWord 0x34 0
  | .decHdr => cmdWord 0x40 0
  | .decLdTab => cmdWord 0x41 0
  | .decStart => cmdWord 0x42 0
  | .decStep => cmdWord 0x43 0
  | .decRun => cmdWord 0x44 0
  | .sysRd r => cmdWord 0xF0 r
  | .sysReset => cmdWord 0xFF 0

/-- The command word that an opcode-table word of `nbits` bits stands for. Every command is one 16-bit word
(R43); bits above `nbits` are zero. -/
def tableCmdWord (nbits w : Nat) : CmdWord := BitVec.ofNat 16 (w % 2 ^ nbits)

/-- What the decoder reads from an opcode-table word. -/
def decodeTableWord (nbits w : Nat) : Option Instr :=
  match decode (tableCmdWord nbits w) with
  | .ok i => some i
  | .error _ => none

end Sys2Proof
end

