-- ==== Sys2Proof/Machine/State.lean ====
section
/-! DEFINITION. The state of the machine, as plain data: the 17 elements and the table of the block
(spec/10_state.md R13 to R18, R20), the three streams of the host (spec/20_memory.md R28), the block's
parameters (spec/00_scope.md R5) and its command port (R6, R43, R45); the conditions, the answers, the reset
state. -/

namespace Sys2Proof.Machine

/-- BW state (R14). -/
structure Writer where
  /-- `bw_open`. -/
  opened : Bool
  /-- `bw_buf`: the bits written since the last pushed byte, first bit at bit 7. -/
  buf : Byte
  /-- `bw_cnt`, 3 bits, 0 to 7: how many bit positions of `buf` are filled. -/
  cnt : BitVec 3
deriving DecidableEq, Repr

/-- BR state (R15). -/
structure Reader where
  /-- `br_open`. -/
  opened : Bool
  /-- `br_cur`: the last byte pulled for the reader. -/
  cur : Byte
  /-- `br_pos`, legal values 0 to 8: how many bits of `cur` have been delivered. -/
  pos : Fin 9
  /-- `br_eos`: a pull made for the reader has returned `END`. -/
  eos : Bool
deriving DecidableEq, Repr

/-- DEC header registers (R16). -/
structure Header where
  /-- `hdr_ok`. -/
  ok : Bool
  /-- `hdr_l`: length in bytes of the table block. -/
  l : Word32
  /-- `hdr_plen`: the payload length, in bits or in symbols by `FRAMING`. -/
  plen : Word32
deriving DecidableEq, Repr

/-- `dec_state` (R17, R70). -/
inductive DecState where
  | idle
  | run
  | done
  | fault
deriving DecidableEq, Repr

/-- DEC automaton state (R17). -/
structure Automaton where
  /-- `dec_state`. -/
  state : DecState
  /-- `acc`: the bits read since the last emitted symbol, oldest first. -/
  acc : BitString
  /-- `dec_rem`: what is left of the declared count. -/
  rem : Word32
  /-- `dec_emit`: symbols emitted since the last `DEC.START`. -/
  emit : Word32
deriving DecidableEq, Repr

/-- LUT state (R18). -/
structure Table where
  /-- `lut[0 .. 255]`: entry s is the codeword of symbol s, or `none`. -/
  lut : Vector (Option BitString) nEnt
  /-- `lut_bad`. -/
  bad : Bool
  /-- `stg`: the staging register. -/
  stg : BitString
deriving DecidableEq, Repr

/-- The six conditions (R82). -/
inductive Condition where
  | invalidBitValue
  | invalidStreamMode
  | emptySource
  | malformedStream
  | codeTableCorrupt
  | illegalCommand
deriving DecidableEq, Repr

/-- What a completed command answers: the tags of R45. -/
inductive Reply where
  | none
  | bit (b : Bool)
  | eos
  | sym (s : Symbol)
  | properPrefix
  | dead
  | val (v : Word32)
deriving DecidableEq, Repr

/-- What the host does at the block's boundary, one item at a time and never inside a command (R6). -/
inductive HostAct where
  /-- Present one command word (R43). -/
  | command (cw : CmdWord)
  /-- Pulse the reset input (R94). -/
  | reset
  /-- Put bytes at the end of the byte source, which the host owns (R28, R88). -/
  | supply (bytes : List Byte)
  /-- Append the host's own bytes to the byte sink (R28, R95 step 2). -/
  | deposit (bytes : List Byte)
deriving DecidableEq, Repr

/-- The whole machine. -/
structure State where
  /-- `FRAMING`, `snk_wr`, `src_rd`: constants of one instance, changed by nothing (R5, R13). -/
  params : Params
  /-- The bit writer. -/
  bw : Writer
  /-- The bit reader. -/
  br : Reader
  /-- The header registers. -/
  hdr : Header
  /-- The decode automaton. -/
  dec : Automaton
  /-- The lookup table. -/
  tab : Table
  /-- `err`: the sticky condition flags, bits 6 down to 0 (R20). -/
  err : BitVec 7
  /-- The byte source: the head is the next byte to pull (R28). -/
  src : List Byte
  /-- The byte sink, growing at the tail (R28). -/
  snk : List Byte
  /-- The symbol sink, growing at the tail (R28). -/
  out : List Symbol
  /-- What the host will do next at the boundary, first first (R6, R43). -/
  port : List HostAct
  /-- The response words given so far, oldest first (R45). -/
  rsps : List RspWord
deriving DecidableEq, Repr

/-- The faults that stop the machine: none. Every failure the spec describes is a condition, reported in the
response, after which the block takes the next command (R7, R85, R88); the type has no constructor, so no
step can stop with one. -/
inductive Fault : Type where
deriving DecidableEq, Repr

/-- The refusals. -/
inductive Refusal where
  /-- Raised by `exec` alone, for a command without a meaning in this model: no arm uses it. Safe: a run that
  meets it proves nothing. -/
  | notModelled (mnemonic : String)
deriving DecidableEq, Repr

/-- What a step of this machine answers. -/
abbrev Result := Host.Outcome State Fault Refusal

/-- `bw_open` = 0, `bw_buf` = 0x00, `bw_cnt` = 0 (R27). -/
def Writer.reset : Writer := ⟨false, 0, 0⟩

/-- `br_open` = 0, `br_cur` = 0x00, `br_pos` = 0, `br_eos` = 0 (R27). -/
def Reader.reset : Reader := ⟨false, 0, 0, false⟩

/-- `hdr_ok` = 0, `hdr_l` = 0, `hdr_plen` = 0 (R27). -/
def Header.reset : Header := ⟨false, 0, 0⟩

/-- `dec_state` = `IDLE`, `acc` = ε, `dec_rem` = 0, `dec_emit` = 0 (R27). -/
def Automaton.reset : Automaton := ⟨.idle, [], 0, 0⟩

/-- `lut[s]` = `none` for every s, `lut_bad` = 0, `stg` = ε (R27). -/
def Table.reset : Table := ⟨Vector.replicate nEnt none, false, []⟩

/-- The machine right after reset, with given parameters, empty streams and nothing at the port (R27, R94). -/
def State.resetWith (p : Params) : State where
  params := p
  bw := Writer.reset
  br := Reader.reset
  hdr := Header.reset
  dec := Automaton.reset
  tab := Table.reset
  err := 0
  src := []
  snk := []
  out := []
  port := []
  rsps := []

/-- The machine right after reset (R27), with the default parameters of R5. -/
def State.reset : State := State.resetWith Params.default

end Sys2Proof.Machine
end

