-- ==== Sys2Proof/Machine/Operands.lean ====
section
/-! DEFINITION. The operand and bit-string computations of spec/00_scope.md R8, R9 and spec/20_memory.md R32,
R33: bits of a byte, `BE32`, `ceil8`, prefixes, bit packing. -/

namespace Sys2Proof.Machine

/-- `v[i]` of a byte (R8). -/
def byteBit (v : Byte) (i : Nat) : Bool := v.getLsbD i

/-- `v[i] <- b`: the byte with bit i set to b, the others kept. -/
def setByteBit (v : Byte) (i : Nat) (b : Bool) : Byte :=
  if b then v ||| (1#8 <<< i) else v &&& ~~~(1#8 <<< i)

/-- `byte_bits(x)`: the 8 bits, most significant first (R9). -/
def byteBits (x : Byte) : BitString :=
  [byteBit x 7, byteBit x 6, byteBit x 5, byteBit x 4, byteBit x 3, byteBit x 2, byteBit x 1, byteBit x 0]

/-- `BE32(b0, b1, b2, b3)`: b0, the first byte pulled, is the most significant (R8, R33). -/
def be32 (b0 b1 b2 b3 : Byte) : Word32 := b0 ++ b1 ++ b2 ++ b3

/-- `ceil8(n)`: the number of bytes that hold n bits, without wrap-around (R8). -/
def ceil8 (n : Nat) : Nat := (n + 7) >>> 3

/-- c is a prefix of d, equality included (R9). -/
def isPrefix (c d : BitString) : Bool := c.isPrefixOf d

/-- c is a proper prefix of d (R9). -/
def isProperPrefix (c d : BitString) : Bool := isPrefix c d && decide (c.length < d.length)

/-- c and d are prefix-related: one is a prefix of the other (R9). -/
def prefixRelated (c d : BitString) : Bool := isPrefix c d || isPrefix d c

/-- The operand of `BW.WRITE` is legal: 0 or 1 (R46, R54). -/
def isBitValue (v : Byte) : Bool := v == 0 || v == 1

/-- The bit `arg[0]` of `LUT.BIT` (R46). -/
def bitOperand (b : BitVec 1) : Bool := b.getLsbD 0

/-- The byte of up to 8 bits, first bit at bit 7, unfilled positions 0 (R32, R56):
`b0*128 + b1*64 + ... + b7*1`. -/
def packByte (c : BitString) : Byte :=
  BitVec.ofNat 8 ((List.range 8).foldl (fun n i => n + (c.getD i false).toNat * 2 ^ (7 - i)) 0)

/-- The `ceil8(|c|)` bytes that hold c, packed MSB-first, the last one zero-padded (R32, R38, R56): byte j holds
the bits 8j to 8j+7. -/
def packBits (c : BitString) : List Byte :=
  (List.range (ceil8 c.length)).map fun j => packByte ((c.drop (8 * j)).take 8)

/-- The bits of a byte list in stream order, most significant first within each byte (R32). -/
def unpackBytes (bs : List Byte) : BitString := bs.flatMap byteBits

end Sys2Proof.Machine
end

