-- ==== Sys2Proof/Machine/Flags.lean ====
section
/-! DEFINITION. Condition codes and sticky flags (spec/60_exceptions.md R82, spec/10_state.md R20), the response
word (spec/30_encoding.md R45) and the register view (spec/10_state.md R24 to R26). -/

namespace Sys2Proof.Machine

/-- The code of a condition (R82): 1 to 6. -/
def Condition.code : Condition → BitVec 4
  | .invalidBitValue => 1
  | .invalidStreamMode => 2
  | .emptySource => 3
  | .malformedStream => 4
  | .codeTableCorrupt => 5
  | .illegalCommand => 6

/-- Raising condition C sets bit `code(C)` of `err`; a bit already 1 stays 1 (R20, R85). -/
def stickyErr (c : Condition) (err : BitVec 7) : BitVec 7 := err ||| (1#7 <<< c.code.toNat)

/-- The response word: `cond` 39:36, `tag` 35:32, `data` 31:0 (R45). -/
def rspWord (cond tag : BitVec 4) (data : Word32) : RspWord := cond ++ tag ++ data

/-- The tag of a reply (R45). -/
def Reply.tag : Reply → BitVec 4
  | .none => 0
  | .bit _ => 1
  | .eos => 2
  | .sym _ => 3
  | .properPrefix => 4
  | .dead => 5
  | .val _ => 6

/-- The data of a reply (R45): `zext_32` of a bit or a symbol, a 32-bit value, else 0. -/
def Reply.data : Reply → Word32
  | .none => 0
  | .bit b => if b then 1 else 0
  | .eos => 0
  | .sym s => s.setWidth 32
  | .properPrefix => 0
  | .dead => 0
  | .val v => v

/-- The response to a command that completes with reply r: `cond` = 0 (R45). -/
def Reply.word (r : Reply) : RspWord := rspWord 0 r.tag r.data

/-- The response to a command that raises c: `tag` = 0, `data` = 0 (R45, R85). -/
def Condition.word (c : Condition) : RspWord := rspWord c.code 0 0

/-- The `cond` field of a response word (R45). -/
def rspCond (w : RspWord) : BitVec 4 := w.extractLsb' 36 4

/-- The number of a `dec_state` (R17). -/
def DecState.number : DecState → BitVec 2
  | .idle => 0
  | .run => 1
  | .done => 2
  | .fault => 3

/-- A flag as one bit. -/
def flagBit (b : Bool) : BitVec 1 := BitVec.ofBool b

/-- `STATUS`, `reg[0]` (R26), from bit 31 down to bit 0: reserved 31:16, `BR_POS` 15:12, reserved 11,
`BW_CNT` 10:8, reserved 7, `DEC_STATE` 6:5, `HDR_OK` 4, `LUT_BAD` 3, `BR_EOS` 2, `BR_OPEN` 1, `BW_OPEN` 0. -/
def statusReg (s : State) : Word32 :=
  0#16 ++ BitVec.ofNat 4 s.br.pos.val ++ 0#1 ++ s.bw.cnt ++ 0#1 ++ s.dec.state.number ++ flagBit s.hdr.ok ++
    flagBit s.tab.bad ++ flagBit s.br.eos ++ flagBit s.br.opened ++ flagBit s.bw.opened

/-- How many entries of a list are not `none`. -/
def countEntries : List (Option BitString) → Nat
  | [] => 0
  | some _ :: es => countEntries es + 1
  | none :: es => countEntries es

/-- `lut_cnt`: how many entries of the table are not `none` (R18). -/
def Table.count (t : Table) : Nat := countEntries t.lut.toList

/-- `CONFIG`, `reg[11]` (R25): `FRAMING` in bit 0 (1 = `SYMS`), `snk_wr` in bit 1, `src_rd` in bit 2. -/
def configReg (p : Params) : Word32 :=
  0#29 ++ flagBit p.srcRd ++ flagBit p.snkWr ++ flagBit (decide (p.framing = .syms))

/-- The register view `reg[r]` (R25): registers 0 to 11 exist, 12 to 255 do not (R24). -/
def readReg (r : Byte) (s : State) : Option Word32 :=
  match r.toNat with
  | 0 => some (statusReg s)
  | 1 => some (s.err.setWidth 32)
  | 2 => some s.hdr.l
  | 3 => some s.hdr.plen
  | 4 => some s.dec.rem
  | 5 => some s.dec.emit
  | 6 => some (BitVec.ofNat 32 s.dec.acc.length)
  | 7 => some (BitVec.ofNat 32 s.tab.count)
  | 8 => some (s.bw.buf.setWidth 32)
  | 9 => some (s.br.cur.setWidth 32)
  | 10 => some (BitVec.ofNat 32 s.tab.stg.length)
  | 11 => some (configReg s.params)
  | _ => none

end Sys2Proof.Machine
end

