-- ==== Sys2Proof/Machine/Ops.lean ====
section
/-! DEFINITION. The shared operations: raising a condition and completing (spec/60_exceptions.md R85,
spec/30_encoding.md R45), the interlock (spec/43_decoder_fsm.md R78), the stream primitives
(spec/20_memory.md R29 to R31), the reader's BitRead (spec/41_bit_reader.md R57), the table functions
(spec/42_lookup_table.md R61 to R63), the automaton's DecStep (spec/43_decoder_fsm.md R74), reset (R94). -/

namespace Sys2Proof.Machine

/-- `raise C` (R85): the condition's bit of `err` is set and the response carries its code; nothing else is
saved or moved, and the block is ready for the next command. There is no return from it (R88). -/
def State.raise (c : Condition) (s : State) : State :=
  { s with err := stickyErr c s.err, rsps := s.rsps ++ [c.word] }

/-- `return T(d)`, or the end of a rule without one (R7, R10, R45): the response with condition code 0. -/
def State.complete (r : Reply) (s : State) : State :=
  { s with rsps := s.rsps ++ [r.word] }

/-- A command that ends by raising c. -/
def raised (c : Condition) (s : State) : Result := .next (s.raise c)

/-- A command that completes with reply r. -/
def completed (r : Reply) (s : State) : Result := .next (s.complete r)

/-- The interlock (R50 step 2, R78): while `dec_state` = `RUN` the command raises `IllegalCommand`; otherwise
its own rule runs. -/
def interlocked (rule : State → Result) (s : State) : Result :=
  if s.dec.state = .run then raised .illegalCommand s else rule s

/-- `SrcPull()` (R29): the next byte of the source, removed, or `none` for `END`, nothing removed. -/
def srcPull (s : State) : Option Byte × State :=
  match s.src with
  | [] => (none, s)
  | x :: rest => (some x, { s with src := rest })

/-- n pulls in a row, stopping at the first `END`; the bytes already pulled stay pulled (R35, R71, R72). -/
def srcPullN : Nat → State → Option (List Byte) × State
  | 0, s => (some [], s)
  | n + 1, s =>
    match srcPull s with
    | (none, s1) => (none, s1)
    | (some x, s1) =>
      match srcPullN n s1 with
      | (none, s2) => (none, s2)
      | (some xs, s2) => (some (x :: xs), s2)

/-- `SnkPush(x)` (R30). -/
def snkPush (x : Byte) (s : State) : State := { s with snk := s.snk ++ [x] }

/-- `OutPush(s)` (R31). -/
def outPush (x : Symbol) (s : State) : State := { s with out := s.out ++ [x] }

/-- The bit written goes to `bw_buf[7 - bw_cnt]`; the eighth one pushes the byte and empties the buffer (R54). -/
def bitWrite (b : Bool) (s : State) : State :=
  let buf := setByteBit s.bw.buf (7 - s.bw.cnt.toNat) b
  if s.bw.cnt = 7 then
    { snkPush buf s with bw := { s.bw with buf := 0, cnt := 0 } }
  else
    { s with bw := { s.bw with buf := buf, cnt := s.bw.cnt + 1 } }

/-- The end of `BitRead()` (R57): bit `7 - br_pos` of the current byte is delivered. With no bit left there is
nothing to deliver. -/
def deliverBit (s : State) : Option Bool × State :=
  if h : s.br.pos.val < 8 then
    (some (byteBit s.br.cur (7 - s.br.pos.val)),
      { s with br := { s.br with pos := ⟨s.br.pos.val + 1, by omega⟩ } })
  else (none, s)

/-- `BitRead()` (R57): the next bit, or `none` for `EOS`. -/
def bitRead (s : State) : Option Bool × State :=
  if s.br.eos then (none, s)
  else if s.br.pos.val = 8 then
    match srcPull s with
    | (none, s1) => (none, { s1 with br := { s1.br with eos := true } })
    | (some x, s1) => deliverBit { s1 with br := { s1.br with cur := x, pos := 0 } }
  else deliverBit s

/-- `lut[s]` (R18). -/
def Table.entry (t : Table) (sym : Symbol) : Option BitString := t.lut[sym.toNat]'sym.isLt

/-- `lut[s] <- some(c)`. -/
def Table.setEntry (t : Table) (sym : Symbol) (c : BitString) : Table :=
  { t with lut := t.lut.set sym.toNat (some c) sym.isLt }

/-- The first entry from index i on whose codeword satisfies p, as a symbol. -/
def findEntry (p : BitString → Bool) : Nat → List (Option BitString) → Option Symbol
  | _, [] => none
  | i, some c :: es => if p c then some (BitVec.ofNat 8 i) else findEntry p (i + 1) es
  | i, none :: es => findEntry p (i + 1) es

/-- A symbol whose codeword satisfies p, if there is one: the search behind R61, R62 and R63. -/
def Table.find (p : BitString → Bool) (t : Table) : Option Symbol := findEntry p 0 t.lut.toList

/-- `LutMatch(c)` (R61): the symbol whose codeword is c. -/
def lutMatch (c : BitString) (t : Table) : Option Symbol := t.find fun d => d == c

/-- `LutPrefix(c)` (R62): c is a proper prefix of some codeword. -/
def lutPrefix (c : BitString) (t : Table) : Bool := (t.find fun d => isProperPrefix c d).isSome

/-- The test of `LutInsert` (R63): an empty codeword, a symbol that has one already, or a codeword present that is
prefix-related to c. -/
def lutCorrupt (sym : Symbol) (c : BitString) (t : Table) : Bool :=
  c.isEmpty || (t.entry sym).isSome || (t.find fun d => prefixRelated d c).isSome

/-- `LutInsert(s, c)` (R63): the table with the pair entered, or `none` where it raises `CodeTableCorrupt`. -/
def lutInsert (sym : Symbol) (c : BitString) (t : Table) : Option Table :=
  if lutCorrupt sym c t then none else some (t.setEntry sym c)

/-- `lut_bad <- 1` (R63, R72). -/
def markBad (s : State) : State := { s with tab := { s.tab with bad := true } }

/-- What `DecStep()` yields (R74). -/
inductive StepYield where
  /-- `SYM(s)`. -/
  | emitted (sym : Symbol)
  /-- `NONE`. -/
  | quiet
  /-- It raises `MalformedStream`. -/
  | malformed
deriving DecidableEq, Repr

/-- `dec_state <- FAULT` and `raise MalformedStream` (R74); the raise is the command's. -/
def decFault (s : State) : StepYield × State := (.malformed, { s with dec := { s.dec with state := .fault } })

/-- The bit b enters the accumulator, and under `BITS` is counted (R74). -/
def decAccept (b : Bool) (s : State) : State :=
  { s with dec := { s.dec with
      acc := s.dec.acc ++ [b],
      rem := if s.params.framing = .bits then s.dec.rem - 1 else s.dec.rem } }

/-- A codeword of sym is complete (R74): the symbol is pushed and counted, the accumulator emptied, the count
under `SYMS` lowered; a count of 0 ends the decode. -/
def decEmit (sym : Symbol) (s : State) : State :=
  let left := if s.params.framing = .syms then s.dec.rem - 1 else s.dec.rem
  { outPush sym s with dec := {
      state := if left = 0 then .done else s.dec.state,
      acc := [],
      rem := left,
      emit := s.dec.emit + 1 } }

/-- `DecStep()` (R74). -/
def decStep (s : State) : StepYield × State :=
  match bitRead s with
  | (none, s1) => decFault s1
  | (some b, s1) =>
    let s2 := decAccept b s1
    match lutMatch s2.dec.acc s2.tab with
    | some sym => (.emitted sym, decEmit sym s2)
    | none =>
      if !lutPrefix s2.dec.acc s2.tab then decFault s2
      else if s2.params.framing = .bits ∧ s2.dec.rem = 0 then decFault s2
      else (.quiet, s2)

/-- How many bits `BitRead()` can still deliver at most: the rest of the current byte and the source. -/
def bitsLeft (s : State) : Nat := (8 - s.br.pos.val) + 8 * s.src.length

/-- The loop of `DEC.RUN` (R76): steps while `dec_state` = `RUN`, ended by a raise; `true` when a step raised.
The fuel bounds the steps: each step that does not raise takes a bit, so `bitsLeft + 1` is never used up
(proved in Laws/Decoder.lean). -/
def decLoop : Nat → State → Bool × State
  | 0, s => (false, s)
  | n + 1, s =>
    if s.dec.state = .run then
      match decStep s with
      | (.malformed, s1) => (true, s1)
      | (.emitted _, s1) => decLoop n s1
      | (.quiet, s1) => decLoop n s1
    else (false, s)

/-- The loop of `DEC.LDTAB` (R72) with `rem` block bytes left; `true` when it goes to `corrupt` or `LutInsert`
refuses. Every entry takes at least two source bytes, so a fuel of `src.length` bounds the entries; with no
fuel left the source is empty, and a block that is not finished is corrupt. -/
def ldTabLoop : Nat → Nat → State → Bool × State
  | _, 0, s => (false, s)
  | 0, _ + 1, s => (true, markBad s)
  | fuel + 1, rem + 1, s =>
    if rem + 1 < 2 then (true, markBad s)
    else
      match srcPullN 2 s with
      | (some [sym, n], s1) =>
        if n = 0 then (true, markBad s1)
        else if rem + 1 - 2 < ceil8 n.toNat then (true, markBad s1)
        else
          match srcPullN (ceil8 n.toNat) s1 with
          | (none, s2) => (true, markBad s2)
          | (some bytes, s2) =>
            match lutInsert sym ((unpackBytes bytes).take n.toNat) s2.tab with
            | none => (true, markBad s2)
            | some t => ldTabLoop fuel (rem + 1 - 2 - ceil8 n.toNat) { s2 with tab := t }
      | (_, s1) => (true, markBad s1)

/-- The effect of the reset input and of `SYS.RESET` (R81, R94): every state element of the block takes its reset
value; the streams and the parameters stay. -/
def State.resetBlock (s : State) : State :=
  { s with
    bw := Writer.reset
    br := Reader.reset
    hdr := Header.reset
    dec := Automaton.reset
    tab := Table.reset
    err := 0 }

/-- A word that is no command (R47, R50 step 1): `IllegalCommand`, nothing else changed. -/
def illegalWord (s : State) : Result := raised .illegalCommand s

/-- The host puts bytes at the end of the byte source (R28). -/
def hostSupply (bytes : List Byte) (s : State) : State := { s with src := s.src ++ bytes }

/-- The host appends bytes of its own to the byte sink (R28, R95). -/
def hostDeposit (bytes : List Byte) (s : State) : State := { s with snk := s.snk ++ bytes }

/-- The machine with the first item at the port taken. -/
def State.withPort (rest : List HostAct) (s : State) : State := { s with port := rest }

end Sys2Proof.Machine
end

