-- ==== Sys2Proof/Machine/Decoder.lean ====
section
/-! DEFINITION. The decoder's commands (spec/43_decoder_fsm.md R71 to R73, R75, R76). -/

namespace Sys2Proof.Machine

/-- `DEC.HDR` (R71), behind the interlock of R78. -/
def execDecHdr (s : State) : Result :=
  interlocked (fun s =>
    if s.params.srcRd = false then raised .invalidStreamMode s
    else
      match srcPullN 8 s with
      | (some [x0, x1, x2, x3, x4, x5, x6, x7], s1) =>
        completed .none { s1 with hdr := ⟨true, be32 x0 x1 x2 x3, be32 x4 x5 x6 x7⟩ }
      | (_, s1) => raised .malformedStream { s1 with hdr := { s1.hdr with ok := false } }) s

/-- `DEC.LDTAB` (R72), behind the interlock of R78. -/
def execDecLdTab (s : State) : Result :=
  interlocked (fun s =>
    if s.hdr.ok = false then raised .illegalCommand s
    else
      match ldTabLoop s.src.length s.hdr.l.toNat s with
      | (true, s1) => raised .codeTableCorrupt s1
      | (false, s1) => completed .none s1) s

/-- `DEC.START` (R73), admitted in every automaton state. -/
def execDecStart (s : State) : Result :=
  if s.hdr.ok = false ∨ s.br.opened = false then raised .illegalCommand s
  else if s.tab.bad = true then raised .codeTableCorrupt s
  else
    completed .none { s with dec :=
      { state := if s.hdr.plen = 0 then .done else .run, acc := [], rem := s.hdr.plen, emit := 0 } }

/-- `DEC.STEP` (R75). -/
def execDecStep (s : State) : Result :=
  if s.dec.state ≠ .run then raised .illegalCommand s
  else
    match decStep s with
    | (.emitted sym, s1) => completed (.sym sym) s1
    | (.quiet, s1) => completed .none s1
    | (.malformed, s1) => raised .malformedStream s1

/-- `DEC.RUN` (R76). -/
def execDecRun (s : State) : Result :=
  if s.dec.state ≠ .run then raised .illegalCommand s
  else
    match decLoop (bitsLeft s + 1) s with
    | (true, s1) => raised .malformedStream s1
    | (false, s1) => completed (.val s1.dec.emit) s1

end Sys2Proof.Machine
end

