-- ==== Sys2Proof/Machine/Lookup.lean ====
section
/-! DEFINITION. The lookup table's commands (spec/42_lookup_table.md R64 to R68). -/

namespace Sys2Proof.Machine

/-- `LUT.CLR` (R64), behind the interlock of R78. -/
def execLutClr (s : State) : Result :=
  interlocked (fun s => completed .none { s with tab := ⟨Vector.replicate nEnt none, false, []⟩ }) s

/-- `LUT.BIT b` (R65). -/
def execLutBit (b : BitVec 1) (s : State) : Result :=
  if s.tab.stg.length = maxLen then raised .illegalCommand s
  else completed .none { s with tab := { s.tab with stg := s.tab.stg ++ [bitOperand b] } }

/-- `LUT.COMMIT s` (R66), behind the interlock of R78: the staging register is emptied before the insertion is
tried. -/
def execLutCommit (sym : Symbol) (s : State) : Result :=
  interlocked (fun s =>
    let s1 := { s with tab := { s.tab with stg := [] } }
    match lutInsert sym s.tab.stg s1.tab with
    | none => raised .codeTableCorrupt (markBad s1)
    | some t => completed .none { s1 with tab := t }) s

/-- `LUT.QRY` (R67). -/
def execLutQry (s : State) : Result :=
  match lutMatch s.tab.stg s.tab with
  | some sym => completed (.sym sym) s
  | none => if lutPrefix s.tab.stg s.tab then completed .properPrefix s else completed .dead s

/-- `LUT.STGCLR` (R68). -/
def execLutStgClr (s : State) : Result :=
  completed .none { s with tab := { s.tab with stg := [] } }

end Sys2Proof.Machine
end

