-- ==== Sys2Proof/Machine/Reader.lean ====
section
/-! DEFINITION. The bit reader's commands (spec/41_bit_reader.md R58, R59). -/

namespace Sys2Proof.Machine

/-- `BR.OPEN` (R58), behind the interlock of R78. -/
def execBrOpen (s : State) : Result :=
  interlocked (fun s =>
    if s.params.srcRd = false then raised .invalidStreamMode s
    else
      match srcPull s with
      | (none, s1) => raised .emptySource s1
      | (some x, s1) => completed .none { s1 with br := ⟨true, x, 0, false⟩ }) s

/-- `BR.READ` (R59), behind the interlock of R78. End-of-source is a reply, not a condition. -/
def execBrRead (s : State) : Result :=
  interlocked (fun s =>
    if s.br.opened = false then raised .illegalCommand s
    else
      match bitRead s with
      | (none, s1) => completed .eos s1
      | (some b, s1) => completed (.bit b) s1) s

end Sys2Proof.Machine
end

