-- ==== Sys2Proof/Machine/System.lean ====
section
/-! DEFINITION. The system commands (spec/44_system.md R80, R81). -/

namespace Sys2Proof.Machine

/-- `SYS.RD r` (R80). -/
def execSysRd (r : BitVec 8) (s : State) : Result :=
  match readReg r s with
  | some v => completed (.val v) s
  | none => raised .illegalCommand s

/-- `SYS.RESET` (R81). -/
def execSysReset (s : State) : Result := completed .none s.resetBlock

end Sys2Proof.Machine
end

