-- ==== Sys2Proof/Machine/Writer.lean ====
section
/-! DEFINITION. The bit writer's commands (spec/40_bit_writer.md R53 to R55). -/

namespace Sys2Proof.Machine

/-- `BW.OPEN` (R53). -/
def execBwOpen (s : State) : Result :=
  if s.params.snkWr = false then raised .invalidStreamMode s
  else completed .none { s with bw := ⟨true, 0, 0⟩ }

/-- `BW.WRITE v` (R54). -/
def execBwWrite (v : BitVec 8) (s : State) : Result :=
  if s.bw.opened = false then raised .illegalCommand s
  else if isBitValue v = false then raised .invalidBitValue s
  else completed .none (bitWrite (v == 1) s)

/-- `BW.FLUSH` (R55). -/
def execBwFlush (s : State) : Result :=
  if s.bw.opened = false then raised .illegalCommand s
  else
    let s1 := if s.bw.cnt = 0 then s else snkPush s.bw.buf s
    completed .none { s1 with bw := { s.bw with buf := 0, cnt := 0 } }

end Sys2Proof.Machine
end

