-- ==== Sys2Proof/Machine/Dispatch.lean ====
section
/-! DEFINITION. exec: one arm per command of spec/30_encoding.md R44. -/

namespace Sys2Proof.Machine

def exec (i : Instr) (s : State) : Host.Outcome State Fault Refusal :=
  match i with
  | .bwOpen => Sys2Proof.Machine.execBwOpen s
  | .bwWrite v => Sys2Proof.Machine.execBwWrite v s
  | .bwFlush => Sys2Proof.Machine.execBwFlush s
  | .brOpen => Sys2Proof.Machine.execBrOpen s
  | .brRead => Sys2Proof.Machine.execBrRead s
  | .lutClr => Sys2Proof.Machine.execLutClr s
  | .lutBit b => Sys2Proof.Machine.execLutBit b s
  | .lutCommit sym => Sys2Proof.Machine.execLutCommit sym s
  | .lutQry => Sys2Proof.Machine.execLutQry s
  | .lutStgClr => Sys2Proof.Machine.execLutStgClr s
  | .decHdr => Sys2Proof.Machine.execDecHdr s
  | .decLdTab => Sys2Proof.Machine.execDecLdTab s
  | .decStart => Sys2Proof.Machine.execDecStart s
  | .decStep => Sys2Proof.Machine.execDecStep s
  | .decRun => Sys2Proof.Machine.execDecRun s
  | .sysRd r => Sys2Proof.Machine.execSysRd r s
  | .sysReset => Sys2Proof.Machine.execSysReset s

end Sys2Proof.Machine
end

