-- ==== Sys2Proof/Machine/Step.lean ====
section
/-! DEFINITION. One step (spec/00_scope.md R6, spec/30_encoding.md R43, R50): the machine takes the next item at
its boundary. A command word is decoded and executed to completion and answered; the reset input resets the
block; the host's own actions on the streams land between commands. With nothing at the port the block waits:
"between commands no state of the block changes". -/

namespace Sys2Proof.Machine

/-- One step. -/
def step (s : State) : Host.Outcome State Fault Refusal :=
  match s.port with
  | [] => .next s
  | .command cw :: rest =>
    match decode cw with
    | .ok i => exec i (s.withPort rest)
    | .error _ => illegalWord (s.withPort rest)
  | .reset :: rest => .next (s.withPort rest).resetBlock
  | .supply bytes :: rest => .next (hostSupply bytes (s.withPort rest))
  | .deposit bytes :: rest => .next (hostDeposit bytes (s.withPort rest))

/-- The state whose very next step takes the opcode-table word: it is put first at the command port. -/
def State.withFetchWord (s : State) (nbits w : Nat) : State :=
  { s with port := .command (tableCmdWord nbits w) :: s.port }

end Sys2Proof.Machine
end

