-- ==== Sys2Proof/Machine/Assembler.lean ====
section
/-! DEFINITION. The textual form of commands (spec/30_encoding.md R51) and the pseudo-commands (R52). A line is a
list of characters; it assembles to the command words it stands for, or to nothing where it is no line of the
syntax. -/

namespace Sys2Proof.Machine

/-- The commands a pseudo-command stands for, in order (R52). -/
def Pseudo.expand : Pseudo → List Instr
  | .bwBits bits => bits.map fun b => .bwWrite (if b then 1 else 0)
  | .lutAdd sym bits => .lutStgClr :: (bits.map fun b => .lutBit (if b then 1 else 0)) ++ [.lutCommit sym]
  | .brBits k => List.replicate k .brRead
  | .decAll => [.decHdr, .decLdTab, .brOpen, .decStart, .decRun]

/-- The text before a `;`, which starts a comment wherever it stands (R51). -/
def asmCode (line : List Char) : List Char := line.takeWhile fun c => c != ';'

/-- The text without the white space at its ends. -/
def asmTrim (cs : List Char) : List Char :=
  ((cs.dropWhile Char.isWhitespace).reverse.dropWhile Char.isWhitespace).reverse

/-- The value of a digit in base 10 or 16. -/
def asmDigit (base : Nat) (c : Char) : Option Nat :=
  let v :=
    if '0' ≤ c ∧ c ≤ '9' then c.toNat - 48
    else if 'a' ≤ c ∧ c ≤ 'f' then c.toNat - 87
    else if 'A' ≤ c ∧ c ≤ 'F' then c.toNat - 55
    else 16
  if v < base then some v else none

/-- A number with at least one digit. -/
def asmDigits (base : Nat) (cs : List Char) : Option Nat :=
  if cs.isEmpty then none else cs.foldlM (fun n c => (asmDigit base c).map fun d => n * base + d) 0

/-- A decimal number, or a hexadecimal one with `0x` (R51). -/
def asmNumber : List Char → Option Nat
  | '0' :: 'x' :: ds => asmDigits 16 ds
  | ds => asmDigits 10 ds

/-- A number below a bound, as a bit vector. -/
def asmBounded (w : Nat) (cs : List Char) : Option (BitVec w) :=
  (asmNumber cs).bind fun n => if n < 2 ^ w then some (BitVec.ofNat w n) else none

/-- The single quote, around a character operand. -/
def asmQuote : Char := Char.ofNat 39

/-- The double quote, around a bit string. -/
def asmDoubleQuote : Char := Char.ofNat 34

/-- A symbol: a number, or one printable ASCII character in single quotes, standing for its code (R51). -/
def asmSymbol (cs : List Char) : Option Symbol :=
  match cs with
  | [q, c, q'] =>
    if q = asmQuote ∧ q' = asmQuote ∧ 32 ≤ c.toNat ∧ c.toNat ≤ 126 then some (BitVec.ofNat 8 c.toNat)
    else asmBounded 8 cs
  | _ => asmBounded 8 cs

/-- A bit string in double quotes (R52). -/
def asmBits : List Char → Option BitString
  | [] => none
  | q :: rest =>
    if q = asmDoubleQuote ∧ rest.getLast? = some asmDoubleQuote ∧
        rest.dropLast.all (fun c => c == '0' || c == '1') then
      some (rest.dropLast.map fun c => c == '1')
    else none

/-- The operand of `LUT.ADD`: a symbol, a comma, a bit string. -/
def asmPair (cs : List Char) : Option (Symbol × BitString) :=
  let symLen := if cs.head? = some asmQuote then 3 else (cs.takeWhile fun c => c != ',').length
  match asmTrim (cs.drop symLen) with
  | ',' :: rest =>
    (asmSymbol (asmTrim (cs.take symLen))).bind fun sym => (asmBits (asmTrim rest)).map fun bits => (sym, bits)
  | _ => none

/-- The commands written without an operand (R44, R51). -/
def asmPlain : List (String × Instr) :=
  [ ("BW.OPEN", .bwOpen), ("BW.FLUSH", .bwFlush), ("BR.OPEN", .brOpen), ("BR.READ", .brRead),
    ("LUT.CLR", .lutClr), ("LUT.QRY", .lutQry), ("LUT.STGCLR", .lutStgClr), ("DEC.HDR", .decHdr),
    ("DEC.LDTAB", .decLdTab), ("DEC.START", .decStart), ("DEC.STEP", .decStep), ("DEC.RUN", .decRun),
    ("SYS.RESET", .sysReset) ]

/-- The commands of a line with mnemonic m, in capitals, and operand text (R44, R51, R52). -/
def asmCommands (m : String) (operand : List Char) : Option (List Instr) :=
  match asmPlain.lookup m with
  | some i => if operand.isEmpty then some [i] else none
  | none =>
    if m = "BW.WRITE" then (asmBounded 8 operand).map fun v => [.bwWrite v]
    else if m = "LUT.BIT" then (asmBounded 1 operand).map fun b => [.lutBit b]
    else if m = "LUT.COMMIT" then (asmSymbol operand).map fun sym => [.lutCommit sym]
    else if m = "SYS.RD" then (asmBounded 8 operand).map fun r => [.sysRd r]
    else if m = "BW.BITS" then (asmBits operand).map fun bits => Pseudo.expand (.bwBits bits)
    else if m = "LUT.ADD" then (asmPair operand).map fun p => Pseudo.expand (.lutAdd p.1 p.2)
    else if m = "BR.BITS" then (asmDigits 10 operand).map fun k => Pseudo.expand (.brBits k)
    else if m = "DEC.ALL" then if operand.isEmpty then some (Pseudo.expand .decAll) else none
    else none

/-- The commands of one line: none for a blank or comment line (R51). Mnemonics may be in lower case. -/
def asmLine (line : List Char) : Option (List Instr) :=
  let code := asmTrim (asmCode line)
  if code.isEmpty then some []
  else
    let m := code.takeWhile fun c => !c.isWhitespace
    asmCommands (String.ofList (m.map Char.toUpper)) (asmTrim (code.drop m.length))

/-- The command words of one line (R51). -/
def asmWords (line : List Char) : Option (List CmdWord) := (asmLine line).map fun is => is.map encode

end Sys2Proof.Machine
end

