-- ==== Sys2Proof/Machine/Format.lean ====
section
/-! DEFINITION. The layout of the byte source for a decode session (spec/20_memory.md R36 to R38): the header
fields, the table block, the payload, written independently of the commands that read them. -/

namespace Sys2Proof.Machine

/-- The four big-endian bytes of a header field: most significant first (R33). -/
def beBytes (v : Word32) : List Byte :=
  [v.extractLsb' 24 8, v.extractLsb' 16 8, v.extractLsb' 8 8, v.extractLsb' 0 8]

/-- One entry of the table block: symbol, length in bits, code bits packed MSB-first with zero pad bits (R37). -/
def tableEntry (p : Symbol × BitString) : List Byte := p.1 :: BitVec.ofNat 8 p.2.length :: packBits p.2

/-- The table block a conforming encoder writes: the entries back to back (R37). -/
def tableBlock (pairs : List (Symbol × BitString)) : List Byte := pairs.flatMap tableEntry

/-- The byte lists that are a table block, with the pairs they hold (R37): entries fill the block exactly, the
length byte is 1 to 255, pad bits may have any value. -/
inductive IsTableBlock : List Byte → List (Symbol × BitString) → Prop where
  | nil : IsTableBlock [] []
  | cons (sym : Symbol) (n : Byte) (code rest : List Byte) (pairs : List (Symbol × BitString)) :
      n ≠ 0 → code.length = ceil8 n.toNat → IsTableBlock rest pairs →
      IsTableBlock (sym :: n :: (code ++ rest)) ((sym, (unpackBytes code).take n.toNat) :: pairs)

/-- The payload bits of a symbol sequence: the concatenation of its codewords, in source order (R38). -/
def payloadBits (code : Symbol → BitString) (syms : List Symbol) : BitString := syms.flatMap code

/-- The payload length field (R36): payload bits under `BITS`, source symbols under `SYMS`. -/
def payloadLength (f : Framing) (code : Symbol → BitString) (syms : List Symbol) : Nat :=
  match f with
  | .bits => (payloadBits code syms).length
  | .syms => syms.length

/-- A compressed file: L at offset 0, PLEN at 4, the table block at 8, the payload at 8+L (R36). -/
def compressedFile (plen : Nat) (pairs : List (Symbol × BitString)) (payload : List Byte) : List Byte :=
  beBytes (BitVec.ofNat 32 (tableBlock pairs).length) ++ beBytes (BitVec.ofNat 32 plen) ++ tableBlock pairs ++
    payload

/-- The pairs entered one after the other (R63), or `none` where an insertion is refused. -/
def insertAll : List (Symbol × BitString) → Table → Option Table
  | [], t => some t
  | p :: ps, t => (lutInsert p.1 p.2 t).bind (insertAll ps)

/-- A strict binary tree with symbols at its leaves (R69 item 4). -/
inductive CodeTree where
  | leaf (sym : Symbol)
  | node (left right : CodeTree)
deriving DecidableEq, Repr

/-- The code a tree gives its leaves: 0 on left descent, 1 on right descent. -/
def CodeTree.codes : CodeTree → List (Symbol × BitString)
  | .leaf sym => [(sym, [])]
  | .node l r => (l.codes.map fun p => (p.1, false :: p.2)) ++ (r.codes.map fun p => (p.1, true :: p.2))

end Sys2Proof.Machine
end

