-- ==== Sys2Proof/Safety.lean ====
section
/-! DEFINITION. What counts as a good state and a safe run, in the terms the statements use: the invariants of
spec/10_state.md R22, reachable states, valid output (spec/70_reset_and_hazards.md R96, R98), sequences of
commands, the bits ahead of the reader. -/

namespace Sys2Proof.Machine

/-- The table holds codewords of 1 to `MAXLEN` bits, and no two symbols have prefix-related ones (R18,
R22 item 3). -/
def Table.prefixFree (t : Table) : Prop :=
  (∀ a c, t.entry a = some c → BitString.isCodeword c = true) ∧
  (∀ a b c d, a ≠ b → t.entry a = some c → t.entry b = some d → prefixRelated c d = false)

/-- c is a proper prefix of a codeword of the table (R62). -/
def Table.hasProperPrefix (t : Table) (c : BitString) : Prop :=
  ∃ a d, t.entry a = some d ∧ isProperPrefix c d = true

/-- The law of R22 item 9 for a declared count p. -/
def State.countsUpTo (p : Word32) (s : State) : Prop :=
  (s.params.framing = .bits → s.dec.emit.toNat + s.dec.rem.toNat ≤ p.toNat) ∧
  (s.params.framing = .syms → s.dec.emit.toNat + s.dec.rem.toNat = p.toNat)

/-- The invariants of R22, item 9 for `hdr_plen` as it stands, which is an invariant in `RUN`: in `DONE` and `FAULT` a
new `DEC.HDR` may replace `hdr_plen` (notes/assumptions/5.md). For the `hdr_plen` that the last `DEC.START` took, item
9 holds in every state but `IDLE`: `CountInv`. -/
structure Inv (s : State) : Prop where
  /-- Item 1: the unfilled positions of `bw_buf` are 0. -/
  writerPad : ∀ i, i < 8 - s.bw.cnt.toNat → byteBit s.bw.buf i = false
  /-- Item 2: a reader that is not constructed is as at reset. -/
  readerClosed : s.br.opened = false → s.br = ⟨false, 0, 0, false⟩
  /-- Item 2: at end-of-source the current byte is exhausted. -/
  readerEnded : s.br.eos = true → s.br.pos.val = 8
  /-- Item 3. -/
  tableFree : s.tab.prefixFree
  /-- Item 4. -/
  stagedLength : s.tab.stg.length ≤ maxLen
  /-- Item 4. -/
  accLength : s.dec.acc.length ≤ maxLen
  /-- Item 5. -/
  running : s.dec.state = .run → s.dec.rem ≠ 0 ∧ s.br.opened = true ∧ s.hdr.ok = true ∧ s.tab.bad = false ∧
    (s.dec.acc = [] ∨ s.tab.hasProperPrefix s.dec.acc)
  /-- Item 6. -/
  finished : s.dec.state = .done → s.dec.rem = 0 ∧ s.dec.acc = []
  /-- Item 7. -/
  writerStrap : s.bw.opened = true → s.params.snkWr = true
  /-- Item 7. -/
  readerStrap : s.br.opened = true ∨ s.hdr.ok = true → s.params.srcRd = true
  /-- Item 8. -/
  errZero : s.err.getLsbD 0 = false
  /-- Item 9 under `BITS`, in `RUN`. -/
  countBits : s.dec.state = .run → s.params.framing = .bits →
    s.dec.emit.toNat + s.dec.rem.toNat ≤ s.hdr.plen.toNat
  /-- Item 9 under `SYMS`, in `RUN`. -/
  countSyms : s.dec.state = .run → s.params.framing = .syms →
    s.dec.emit.toNat + s.dec.rem.toNat = s.hdr.plen.toNat

/-- R22 item 9 in the spec's words: whenever `dec_state` is not `IDLE`. -/
def CountLawOutsideIdle (s : State) : Prop :=
  s.dec.state ≠ .idle → s.countsUpTo s.hdr.plen

/-- R22 whole, p being the `hdr_plen` that the last completed `DEC.START` took: item 9 holds of p whenever `dec_state`
is not `IDLE`, and in `RUN` p is `hdr_plen` still (R78 shuts `DEC.HDR` out). -/
structure CountInv (p : Word32) (s : State) : Prop where
  /-- Items 1 to 8, and item 9 in `RUN`. -/
  inv : Inv s
  /-- Item 9. -/
  counts : s.dec.state ≠ .idle → s.countsUpTo p
  /-- Between `DEC.START` and the end of the decode no header is read. -/
  taken : s.dec.state = .run → p = s.hdr.plen

/-- The next step is a `DEC.START` that completes (R73). -/
def State.startsDecode (s : State) : Prop :=
  (∃ cw rest, s.port = .command cw :: rest ∧ decode cw = .ok .decStart) ∧
    s.hdr.ok = true ∧ s.br.opened = true ∧ s.tab.bad = false

/-- A state whose block is at reset, with any parameters, streams and host behaviour (R27, R94). -/
def State.blockAtReset (s : State) : Prop := s.resetBlock = s

/-- The states that runs reach: from any block at reset, by steps. -/
inductive Reachable : State → Prop where
  | start (s : State) : s.blockAtReset → Reachable s
  | next (s t : State) : Reachable s → step s = .next t → Reachable t

/-- The states that runs reach, with the `hdr_plen` that the last completed `DEC.START` took, 0 before the first. -/
inductive ReachableWith : Word32 → State → Prop where
  | start (s : State) : s.blockAtReset → ReachableWith 0 s
  | decode (p : Word32) (s t : State) : ReachableWith p s → s.startsDecode → step s = .next t →
      ReachableWith s.hdr.plen t
  | other (p : Word32) (s t : State) : ReachableWith p s → ¬ s.startsDecode → step s = .next t → ReachableWith p t

/-- The decoded output is valid (R96 step 7, R98 hazard H10). -/
def State.validOutput (s : State) : Prop := s.dec.state = .done

/-- No condition was raised since reset (R20, R88). -/
def State.clean (s : State) : Prop := s.err = 0

/-- Commands executed one after the other (R6). -/
def execAll : List Instr → State → Result
  | [], s => .next s
  | i :: is, s =>
    match exec i s with
    | .next t => execAll is t
    | .fault r => .fault r
    | .refused r => .refused r

/-- The command i, issued in s, raises c (R7, R85): its response carries the code of c. -/
def raises (i : Instr) (s : State) (c : Condition) : Prop :=
  ∃ t, exec i s = .next t ∧ t.rsps = s.rsps ++ [c.word]

/-- The bits the reader would deliver from here, in order (R57). -/
def State.bitsAhead (s : State) : BitString :=
  if s.br.eos then [] else (byteBits s.br.cur).drop s.br.pos.val ++ unpackBytes s.src

/-- `BitRead()` delivers the bit b and leaves the state t (R57): a bit of the current byte, or, when its 8 bits are
exhausted, bit 7 of the next byte, pulled by this read and no earlier. -/
inductive BitTaken (s : State) : Bool → State → Prop where
  | current (p : Fin 9) : s.br.eos = false → s.br.pos.val < 8 → p.val = s.br.pos.val + 1 →
      BitTaken s (s.br.cur.getLsbD (7 - s.br.pos.val)) { s with br := { s.br with pos := p } }
  | pulled (x : Byte) (rest : List Byte) : s.br.eos = false → s.br.pos.val = 8 → s.src = x :: rest →
      BitTaken s (x.getLsbD 7) { s with br := { s.br with cur := x, pos := 1 }, src := rest }

/-- Where `DEC.LDTAB` finds a block corrupt (R72), with `left` block bytes left and the pairs so far in `tab`: the bytes
it has pulled of the entry that fails, and what is left in the source. The cases are R72's (1) to (5). -/
inductive CorruptEntry (left : Nat) (tab : Table) : List Byte → List Byte → Prop where
  /-- (1) Fewer than 2 block bytes are left: nothing is pulled. -/
  | short (rest : List Byte) : left = 1 → CorruptEntry left tab [] rest
  /-- (2) The source ends at the symbol or at the length. -/
  | ended (part : List Byte) : 2 ≤ left → part.length < 2 → CorruptEntry left tab part []
  /-- (3) The length byte is 0. -/
  | noLength (sym : Symbol) (rest : List Byte) : 2 ≤ left → CorruptEntry left tab [sym, 0] rest
  /-- (4) The code bytes would run past the end of the block: none of them is pulled. -/
  | pastEnd (sym : Symbol) (n : Byte) (rest : List Byte) : 2 ≤ left → n ≠ 0 → left < 2 + (n.toNat + 7) / 8 →
      CorruptEntry left tab [sym, n] rest
  /-- (2) The source ends inside the code bytes. -/
  | endedInCode (sym : Symbol) (n : Byte) (code : List Byte) : n ≠ 0 → 2 + (n.toNat + 7) / 8 ≤ left →
      code.length < (n.toNat + 7) / 8 → CorruptEntry left tab (sym :: n :: code) []
  /-- (5) `LutInsert` refuses the pair (R63). -/
  | refused (sym : Symbol) (n : Byte) (code rest : List Byte) : n ≠ 0 → 2 + (n.toNat + 7) / 8 ≤ left →
      code.length = (n.toNat + 7) / 8 →
      (tab.entry sym ≠ none ∨ ∃ a d, tab.entry a = some d ∧
        (d <+: (unpackBytes code).take n.toNat ∨ (unpackBytes code).take n.toNat <+: d)) →
      CorruptEntry left tab (sym :: n :: code) rest

/-- n commands `DEC.STEP` from s lead to t, and the automaton is in `RUN` before each of them (R76). -/
inductive StepsTo : Nat → State → State → Prop where
  | zero (s : State) : StepsTo 0 s s
  | succ (n : Nat) (s m t : State) : s.dec.state = .run → exec .decStep s = .next m → StepsTo n m t →
      StepsTo (n + 1) s t

end Sys2Proof.Machine
end

