-- ==== Sys2Proof/Certificates/Slice0/Obligations.lean ====
section
/-! DEFINITION. The statements for the provers, from the numbered rules of spec/. Response words are written out
as numbers (spec/30_encoding.md R45), states as record updates, so that an equation `exec i s = .next …` says the
result, that the command completes, and its whole frame. That the responses are kept as the list `rsps`, and that the
host's next actions stand in the list `port`, is this model's choice (notes/assumptions/2.md, 4.md). -/

open Sys2Proof Sys2Proof.Machine

/-! ## Encoding -/

/-- R44, "A decoder can be written from this table alone": a word stands for a command exactly when it is that
command's encoding. Every instruction is well formed, so none is left out. -/
def Obligations.DecodeReadsExactlyTheEncodings : Prop :=
  ∀ (w : CmdWord) (i : Instr), decode w = .ok i ↔ (i.wellFormed = true ∧ encode i = w)

/-- R44: "A word `cw` selects the command of a row exactly when `cw AND mask = match`", for the 17 rows, the
operand being the low 8 bits (R43), or bit 0 for `LUT.BIT` (R46). -/
def Obligations.EachOpcodeRowSelectsItsCommand : Prop :=
  ∀ w : CmdWord,
    (w &&& 0xFFFF = 0x1000 ↔ decode w = .ok .bwOpen) ∧
    (w &&& 0xFF00 = 0x1100 ↔ decode w = .ok (.bwWrite (w.setWidth 8))) ∧
    (w &&& 0xFFFF = 0x1200 ↔ decode w = .ok .bwFlush) ∧
    (w &&& 0xFFFF = 0x2000 ↔ decode w = .ok .brOpen) ∧
    (w &&& 0xFFFF = 0x2100 ↔ decode w = .ok .brRead) ∧
    (w &&& 0xFFFF = 0x3000 ↔ decode w = .ok .lutClr) ∧
    (w &&& 0xFFFE = 0x3100 ↔ decode w = .ok (.lutBit (w.setWidth 1))) ∧
    (w &&& 0xFF00 = 0x3200 ↔ decode w = .ok (.lutCommit (w.setWidth 8))) ∧
    (w &&& 0xFFFF = 0x3300 ↔ decode w = .ok .lutQry) ∧
    (w &&& 0xFFFF = 0x3400 ↔ decode w = .ok .lutStgClr) ∧
    (w &&& 0xFFFF = 0x4000 ↔ decode w = .ok .decHdr) ∧
    (w &&& 0xFFFF = 0x4100 ↔ decode w = .ok .decLdTab) ∧
    (w &&& 0xFFFF = 0x4200 ↔ decode w = .ok .decStart) ∧
    (w &&& 0xFFFF = 0x4300 ↔ decode w = .ok .decStep) ∧
    (w &&& 0xFFFF = 0x4400 ↔ decode w = .ok .decRun) ∧
    (w &&& 0xFF00 = 0xF000 ↔ decode w = .ok (.sysRd (w.setWidth 8))) ∧
    (w &&& 0xFFFF = 0xFF00 ↔ decode w = .ok .sysReset)

/-- R47: the words the decoder rejects, by `op` = w / 256 and `arg` = w mod 256, and what a step does with one:
`IllegalCommand`, "changes nothing but `err[6]`". -/
def Obligations.IllegalWordsRaiseIllegalCommand : Prop :=
  (∀ w : CmdWord, (∃ r, decode w = .error r) ↔
    (w.toNat / 256 ∉ [0x10, 0x11, 0x12, 0x20, 0x21, 0x30, 0x31, 0x32, 0x33, 0x34, 0x40, 0x41, 0x42, 0x43, 0x44,
        0xF0, 0xFF] ∨
      (w.toNat / 256 ∈ [0x10, 0x12, 0x20, 0x21, 0x30, 0x33, 0x34, 0x40, 0x41, 0x42, 0x43, 0x44, 0xFF] ∧
        w.toNat % 256 ≠ 0) ∨
      (w.toNat / 256 = 0x31 ∧ 2 ≤ w.toNat % 256))) ∧
  (∀ (s : State) (w : CmdWord) (rest : List HostAct) (r : DecodeReject),
    s.port = .command w :: rest → decode w = .error r →
      step s = .next { s with port := rest, err := s.err ||| 0x40#7, rsps := s.rsps ++ [0x6000000000#40] })

/-- A few command words written out from R44, the two nibbles of `op` and the operand: a sanity statement. -/
def Obligations.SampleWordsDecodeAsTheTableSays : Prop :=
  decode 0x1101 = .ok (.bwWrite 1) ∧ decode 0x2100 = .ok .brRead ∧ decode 0x3261 = .ok (.lutCommit 0x61) ∧
  decode 0x3101 = .ok (.lutBit 1) ∧ decode 0x4400 = .ok .decRun ∧ decode 0xF00B = .ok (.sysRd 11) ∧
  decode 0x0000 = .error .unknownOpcode ∧ decode 0x1001 = .error .operandNotZero ∧
  decode 0x3102 = .error .bitOperandTooWide

/-- R51's examples, and R52's: what the assembler makes of them. -/
def Obligations.AssemblerExamples : Prop :=
  asmWords "BW.WRITE 1".toList = some [0x1101] ∧ asmWords "LUT.COMMIT 'a'".toList = some [0x3261] ∧
  asmWords "SYS.RD 0".toList = some [0xF000] ∧ asmWords "DEC.RUN".toList = some [0x4400] ∧
  asmWords "LUT.ADD 'b', \"10\"".toList = some [0x3400, 0x3101, 0x3100, 0x3262]

/-- R52: `LUT.ADD s, "…"` stages exactly its bits and then commits them, whatever the staging register held. -/
def Obligations.LutAddStagesItsBitsAndCommits : Prop :=
  ∀ (sym : Symbol) (bits : BitString) (s : State), bits.length ≤ 255 →
    execAll (Pseudo.expand (.lutAdd sym bits)) s =
      exec (.lutCommit sym) { s with
        tab := { s.tab with stg := bits }, rsps := s.rsps ++ List.replicate (bits.length + 1) 0x0000000000#40 }

/-! ## The step, the response, raising a condition -/

/-- One step (R6, R43, R50): the command word at the head of the port is decoded and its command executed, in the
state with that word taken; a word that is no command raises; the reset input and the host's own actions land
between commands; with nothing at the port the block waits. The port itself and the host's two stream actions are the
model's choice (notes/assumptions/2.md, 4.md). -/
def Obligations.StepExecutesTheDecodedCommand : Prop :=
  ∀ (s : State) (rest : List HostAct),
    (∀ w i, s.port = .command w :: rest → decode w = .ok i → step s = exec i { s with port := rest }) ∧
    (∀ w r, s.port = .command w :: rest → decode w = .error r →
      step s = .next (State.raise .illegalCommand { s with port := rest })) ∧
    (s.port = .reset :: rest → step s = .next (State.resetBlock { s with port := rest })) ∧
    (∀ bytes, s.port = .supply bytes :: rest → step s = .next { s with port := rest, src := s.src ++ bytes }) ∧
    (∀ bytes, s.port = .deposit bytes :: rest → step s = .next { s with port := rest, snk := s.snk ++ bytes }) ∧
    (s.port = [] → step s = .next s)

/-- R7: a command has exactly one of two outcomes, both a next state with exactly one response; no step stops the
machine; the parameters and the host's plans stay as they are (R5, R6). -/
def Obligations.EveryCommandIsAnsweredOnce : Prop :=
  (∀ (i : Instr) (s : State), ∃ t w, exec i s = .next t ∧ t.rsps = s.rsps ++ [w] ∧ (rspCond w).toNat ≤ 6 ∧
    t.params = s.params ∧ t.port = s.port) ∧
  (∀ s : State, ∃ t, step s = .next t ∧ t.params = s.params ∧ t.port = s.port.tail ∧
    ((∃ cw rest w, s.port = .command cw :: rest ∧ t.rsps = s.rsps ++ [w]) ∨
      ((∀ cw, s.port.head? ≠ some (.command cw)) ∧ t.rsps = s.rsps)))

/-- R82, R84, R85: what raising each condition leaves, its `err` bit and its response word; nothing else. -/
def Obligations.RaisingSetsOneErrBitAndAnswersItsCode : Prop :=
  ∀ s : State,
    s.raise .invalidBitValue = { s with err := s.err ||| 0x02#7, rsps := s.rsps ++ [0x1000000000#40] } ∧
    s.raise .invalidStreamMode = { s with err := s.err ||| 0x04#7, rsps := s.rsps ++ [0x2000000000#40] } ∧
    s.raise .emptySource = { s with err := s.err ||| 0x08#7, rsps := s.rsps ++ [0x3000000000#40] } ∧
    s.raise .malformedStream = { s with err := s.err ||| 0x10#7, rsps := s.rsps ++ [0x4000000000#40] } ∧
    s.raise .codeTableCorrupt = { s with err := s.err ||| 0x20#7, rsps := s.rsps ++ [0x5000000000#40] } ∧
    s.raise .illegalCommand = { s with err := s.err ||| 0x40#7, rsps := s.rsps ++ [0x6000000000#40] }

/-- R20: a command word sets the `err` bit of the condition its response carries, and no other, a word that is no
command included; no command clears one but `SYS.RESET`, which clears all, as the reset input does; bit 0 is set by
none. -/
def Obligations.ErrIsStickyAndFollowsTheResponse : Prop :=
  ∀ (s t : State) (rest : List HostAct), step s = .next t →
    (∀ cw w, s.port = .command cw :: rest → t.rsps = s.rsps ++ [w] →
      (decode cw = .ok .sysReset → t.err = 0) ∧
      (decode cw ≠ .ok .sysReset → t.err.getLsbD 0 = s.err.getLsbD 0 ∧
        (rspCond w = 0 → t.err = s.err) ∧ (rspCond w ≠ 0 → t.err = s.err ||| (1#7 <<< (rspCond w).toNat)))) ∧
    (s.port = .reset :: rest → t.err = 0)

/-- R88, R20: "no condition was raised in this session" is "`err` = 0 at its end given `err` = 0 at its start": over any
sequence of commands without `SYS.RESET`, one response each. -/
def Obligations.CleanErrMeansNoConditionWasRaised : Prop :=
  ∀ (is : List Instr) (s : State), .sysReset ∉ is → ∃ t ws, execAll is s = .next t ∧ t.rsps = s.rsps ++ ws ∧
    ws.length = is.length ∧ (t.clean ↔ s.clean ∧ ∀ w ∈ ws, rspCond w = 0)

/-- R83: "Every place a condition is raised. The list is complete". One clause per condition, and last the word that
is no command. -/
def Obligations.ConditionsAreRaisedExactlyWhereListed : Prop :=
  (∀ (i : Instr) (s : State),
    (raises i s .invalidBitValue ↔ ∃ v : BitVec 8, i = .bwWrite v ∧ s.bw.opened = true ∧ 2 ≤ v.toNat) ∧
    (raises i s .invalidStreamMode ↔
      (i = .bwOpen ∧ s.params.snkWr = false) ∨
      ((i = .brOpen ∨ i = .decHdr) ∧ s.dec.state ≠ .run ∧ s.params.srcRd = false)) ∧
    (raises i s .emptySource ↔
      i = .brOpen ∧ s.dec.state ≠ .run ∧ s.params.srcRd = true ∧ s.src = []) ∧
    (raises i s .malformedStream ↔
      (i = .decHdr ∧ s.dec.state ≠ .run ∧ s.params.srcRd = true ∧ s.src.length < 8) ∨
      (i = .decStep ∧ s.dec.state = .run ∧
        (s.bitsAhead = [] ∨ ∃ b w, s.bitsAhead = b :: w ∧ (∀ x, s.tab.entry x ≠ some (s.dec.acc ++ [b])) ∧
          (¬ s.tab.hasProperPrefix (s.dec.acc ++ [b]) ∨ (s.params.framing = .bits ∧ s.dec.rem = 1)))) ∨
      (i = .decRun ∧ ∃ n m, StepsTo n s m ∧ m.dec.state = .run ∧ raises .decStep m .malformedStream)) ∧
    (raises i s .codeTableCorrupt ↔
      (∃ x, i = .lutCommit x ∧ s.dec.state ≠ .run ∧
        (s.tab.stg = [] ∨ s.tab.entry x ≠ none ∨
          ∃ a d, s.tab.entry a = some d ∧ (d <+: s.tab.stg ∨ s.tab.stg <+: d))) ∨
      (i = .decLdTab ∧ s.dec.state ≠ .run ∧ s.hdr.ok = true ∧
        ¬ ∃ block rest pairs, s.src = block ++ rest ∧ block.length = s.hdr.l.toNat ∧ IsTableBlock block pairs ∧
          insertAll pairs s.tab ≠ none) ∨
      (i = .decStart ∧ s.hdr.ok = true ∧ s.br.opened = true ∧ s.tab.bad = true)) ∧
    (raises i s .illegalCommand ↔
      ((i = .brOpen ∨ i = .brRead ∨ i = .lutClr ∨ (∃ x, i = .lutCommit x) ∨ i = .decHdr ∨ i = .decLdTab) ∧
        s.dec.state = .run) ∨
      (((∃ v, i = .bwWrite v) ∨ i = .bwFlush) ∧ s.bw.opened = false) ∨
      (i = .brRead ∧ s.br.opened = false) ∨
      ((∃ b, i = .lutBit b) ∧ s.tab.stg.length = 255) ∨
      (i = .decLdTab ∧ s.hdr.ok = false) ∨
      (i = .decStart ∧ (s.hdr.ok = false ∨ s.br.opened = false)) ∨
      ((i = .decStep ∨ i = .decRun) ∧ s.dec.state ≠ .run) ∨
      (∃ r : BitVec 8, i = .sysRd r ∧ 12 ≤ r.toNat))) ∧
  (∀ (s : State) (cw : CmdWord) (rest : List HostAct), s.port = .command cw :: rest → (∃ r, decode cw = .error r) →
    step s = .next (State.raise .illegalCommand { s with port := rest }))

/-- R78: while `dec_state` = `RUN` the six commands are refused and change nothing but `err[6]`; the other eleven
are not refused for it, and none of the commands but `SYS.RESET` changes the table's entries, `lut_bad` or the
header under the run (R42). -/
def Obligations.RunInterlock : Prop :=
  ∀ s : State, s.dec.state = .run →
    (∀ i : Instr, (i = .brOpen ∨ i = .brRead ∨ i = .lutClr ∨ (∃ x, i = .lutCommit x) ∨ i = .decHdr ∨
        i = .decLdTab) →
      exec i s = .next { s with err := s.err ||| 0x40#7, rsps := s.rsps ++ [0x6000000000#40] }) ∧
    (∀ (i : Instr) (other : DecState), (i = .bwOpen ∨ (∃ v, i = .bwWrite v) ∨ i = .bwFlush ∨ (∃ b, i = .lutBit b) ∨
        i = .lutQry ∨ i = .lutStgClr ∨ i = .decStart ∨ (∃ r, i = .sysRd r) ∨ i = .sysReset) →
      (raises i s .illegalCommand ↔
        raises i { s with dec := { s.dec with state := other } } .illegalCommand)) ∧
    (∀ i : Instr, i = .decStep ∨ i = .decRun → ¬ raises i s .illegalCommand) ∧
    (∀ (i : Instr) (t : State), i ≠ .sysReset → exec i s = .next t →
      t.tab.lut = s.tab.lut ∧ t.tab.bad = s.tab.bad ∧ t.hdr = s.hdr)

/-! ## The bit writer -/

/-- R53: `BW.OPEN`. Issued again it loses the bits pending; the sink keeps its bytes. -/
def Obligations.BwOpenConstructsAnEmptyWriter : Prop :=
  decode 0x1000 = .ok .bwOpen ∧ ∀ s : State,
    (s.params.snkWr = true →
      exec .bwOpen s = .next { s with bw := ⟨true, 0x00, 0⟩, rsps := s.rsps ++ [0x0000000000#40] }) ∧
    (s.params.snkWr = false → exec .bwOpen s = .next (s.raise .invalidStreamMode))

/-- R54: `BW.WRITE v`. -/
def Obligations.BwWriteSetsTheNextBitAndPushesTheEighth : Prop :=
  ∀ (v : BitVec 8) (s : State),
    decode (0x1100 + v.setWidth 16) = .ok (.bwWrite v) ∧
    (s.bw.opened = false → exec (.bwWrite v) s = .next (s.raise .illegalCommand)) ∧
    (s.bw.opened = true → v ≠ 0 → v ≠ 1 → exec (.bwWrite v) s = .next (s.raise .invalidBitValue)) ∧
    (s.bw.opened = true → (v = 0 ∨ v = 1) → ∃ buf : Byte,
      (∀ j < 8, buf.getLsbD j = if j = 7 - s.bw.cnt.toNat then decide (v = 1) else s.bw.buf.getLsbD j) ∧
      exec (.bwWrite v) s =
        if s.bw.cnt = 7 then
          .next { s with bw := ⟨true, 0x00, 0⟩, snk := s.snk ++ [buf], rsps := s.rsps ++ [0x0000000000#40] }
        else .next { s with bw := ⟨true, buf, s.bw.cnt + 1⟩, rsps := s.rsps ++ [0x0000000000#40] })

/-- R55: `BW.FLUSH`. -/
def Obligations.BwFlushPushesThePartialByte : Prop :=
  decode 0x1200 = .ok .bwFlush ∧ ∀ s : State,
    (s.bw.opened = false → exec .bwFlush s = .next (s.raise .illegalCommand)) ∧
    (s.bw.opened = true →
      exec .bwFlush s = .next { s with
        bw := ⟨true, 0x00, 0⟩
        snk := if 0 < s.bw.cnt.toNat then s.snk ++ [s.bw.buf] else s.snk
        rsps := s.rsps ++ [0x0000000000#40] })

/-- R32, R38, R56: bit 8j+i of a bit string stands at bit 7-i of byte j of its packing; pad bits are 0; there are
`ceil8` bytes. -/
def Obligations.PackingIsMostSignificantBitFirst : Prop :=
  ∀ c : BitString, (packBits c).length = (c.length + 7) / 8 ∧
    ∀ (j i : Nat) (x : Byte), (packBits c)[j]? = some x → i < 8 → x.getLsbD (7 - i) = c.getD (8 * j + i) false

/-- R56, the packing law of BW: k writes after `BW.OPEN` leave `k div 8` packed bytes in the sink and the rest in
the buffer; a flush adds the zero-padded rest. -/
def Obligations.WriterPacksWhatIsWritten : Prop :=
  ∀ (bits : BitString) (s : State), s.params.snkWr = true →
    execAll (.bwOpen :: bits.map fun b => .bwWrite (if b then 1 else 0)) s = .next { s with
      bw := ⟨true, packByte (bits.drop (8 * (bits.length / 8))), BitVec.ofNat 3 (bits.length % 8)⟩
      snk := s.snk ++ (packBits bits).take (bits.length / 8)
      rsps := s.rsps ++ List.replicate (bits.length + 1) 0x0000000000#40 } ∧
    execAll ((.bwOpen :: bits.map fun b => .bwWrite (if b then 1 else 0)) ++ [.bwFlush]) s = .next { s with
      bw := ⟨true, 0x00, 0⟩
      snk := s.snk ++ packBits bits
      rsps := s.rsps ++ List.replicate (bits.length + 2) 0x0000000000#40 }

/-- The writer shares nothing with the rest (R78): a command that is none of BW's and no read of the register view
or reset behaves the same whatever the writer and the byte sink hold, and leaves them alone. -/
def Obligations.WriterSharesNothingWithTheDecoder : Prop :=
  ∀ (i : Instr) (s t : State) (w : Writer) (k : List Byte),
    i ≠ .bwOpen → (∀ v, i ≠ .bwWrite v) → i ≠ .bwFlush → (∀ r, i ≠ .sysRd r) → i ≠ .sysReset →
    exec i s = .next t →
      t.bw = s.bw ∧ t.snk = s.snk ∧ exec i { s with bw := w, snk := k } = .next { t with bw := w, snk := k }

/-! ## The bit reader -/

/-- R58: `BR.OPEN`. -/
def Obligations.BrOpenPullsTheFirstByteEagerly : Prop :=
  decode 0x2000 = .ok .brOpen ∧ ∀ s : State,
    (s.dec.state = .run → exec .brOpen s = .next (s.raise .illegalCommand)) ∧
    (s.dec.state ≠ .run → s.params.srcRd = false → exec .brOpen s = .next (s.raise .invalidStreamMode)) ∧
    (s.dec.state ≠ .run → s.params.srcRd = true → s.src = [] → exec .brOpen s = .next (s.raise .emptySource)) ∧
    (∀ x rest, s.dec.state ≠ .run → s.params.srcRd = true → s.src = x :: rest →
      exec .brOpen s =
        .next { s with br := ⟨true, x, 0, false⟩, src := rest, rsps := s.rsps ++ [0x0000000000#40] })

/-- R57, R59: `BR.READ`, with the six cases of `BitRead()`. -/
def Obligations.BrReadDeliversTheNextBit : Prop :=
  decode 0x2100 = .ok .brRead ∧ ∀ s : State,
    (s.dec.state = .run ∨ s.br.opened = false → exec .brRead s = .next (s.raise .illegalCommand)) ∧
    (s.dec.state ≠ .run → s.br.opened = true → s.br.eos = true →
      exec .brRead s = .next { s with rsps := s.rsps ++ [0x0200000000#40] }) ∧
    (s.dec.state ≠ .run → s.br.opened = true → s.br.eos = false → s.br.pos.val = 8 → s.src = [] →
      exec .brRead s = .next { s with br := { s.br with eos := true }, rsps := s.rsps ++ [0x0200000000#40] }) ∧
    (∀ x rest, s.dec.state ≠ .run → s.br.opened = true → s.br.eos = false → s.br.pos.val = 8 →
      s.src = x :: rest →
      exec .brRead s = .next { s with
        br := ⟨true, x, 1, false⟩
        src := rest
        rsps := s.rsps ++ [if x.getLsbD 7 then 0x0100000001#40 else 0x0100000000#40] }) ∧
    (s.dec.state ≠ .run → s.br.opened = true → s.br.eos = false → s.br.pos.val < 8 →
      ∃ p : Fin 9, p.val = s.br.pos.val + 1 ∧ exec .brRead s = .next { s with
        br := { s.br with pos := p }
        rsps := s.rsps ++ [if s.br.cur.getLsbD (7 - s.br.pos.val) then 0x0100000001#40 else 0x0100000000#40] })

/-- R60, the round-trip law of BW and BR: reading the packed bytes back gives the bits, then the zero pad bits, then
`EOS` for ever; with no bits there is no byte and the construction raises `EmptySource`. -/
def Obligations.ReaderDeliversWhatWasPacked : Prop :=
  ∀ (bits : BitString) (s : State), s.dec.state ≠ .run → s.params.srcRd = true → s.src = packBits bits →
    (bits = [] → exec .brOpen s = .next (s.raise .emptySource)) ∧
    (bits ≠ [] → ∀ n, ∃ t, execAll (.brOpen :: List.replicate n .brRead) s = .next t ∧
      t.rsps = s.rsps ++ 0x0000000000#40 :: (List.range n).map fun i =>
        if i < 8 * ((bits.length + 7) / 8) then
          if bits.getD i false then 0x0100000001#40 else 0x0100000000#40
        else 0x0200000000#40)

/-- R57: the pull is made by the read that needs the byte. After the construction and n reads, n at least 1, the
bytes that have left the source are exactly those that hold the n bits. -/
def Obligations.ReaderPullsNoByteEarly : Prop :=
  ∀ (s : State) (n : Nat), s.dec.state ≠ .run → s.params.srcRd = true → 1 ≤ n → n ≤ 8 * s.src.length →
    ∃ t, execAll (.brOpen :: List.replicate n .brRead) s = .next t ∧ t.src = s.src.drop ((n + 7) / 8) ∧
      t.br.eos = false

/-! ## The lookup table -/

/-- R64: `LUT.CLR`. -/
def Obligations.LutClrEmptiesTheTable : Prop :=
  decode 0x3000 = .ok .lutClr ∧ ∀ s : State,
    (s.dec.state = .run → exec .lutClr s = .next (s.raise .illegalCommand)) ∧
    (s.dec.state ≠ .run → ∃ tab : Table, (∀ a, tab.entry a = none) ∧ tab.bad = false ∧ tab.stg = [] ∧
      exec .lutClr s = .next { s with tab := tab, rsps := s.rsps ++ [0x0000000000#40] })

/-- R65: `LUT.BIT b`. -/
def Obligations.LutBitAppendsUpTo255Bits : Prop :=
  ∀ (b : BitVec 1) (s : State),
    decode (0x3100 + b.setWidth 16) = .ok (.lutBit b) ∧
    (s.tab.stg.length = 255 → exec (.lutBit b) s = .next (s.raise .illegalCommand)) ∧
    (s.tab.stg.length < 255 → exec (.lutBit b) s = .next { s with
      tab := { s.tab with stg := s.tab.stg ++ [decide (b = 1)] }, rsps := s.rsps ++ [0x0000000000#40] })

/-- R63, R66: `LUT.COMMIT s`. Refused, it empties the staging register and marks the table bad; accepted, it enters
the pair and changes no other entry. -/
def Obligations.LutCommitEntersOrRefusesThePair : Prop :=
  ∀ (sym : Symbol) (s : State),
    decode (0x3200 + sym.setWidth 16) = .ok (.lutCommit sym) ∧
    (s.dec.state = .run → exec (.lutCommit sym) s = .next (s.raise .illegalCommand)) ∧
    (s.dec.state ≠ .run →
      (s.tab.stg = [] ∨ s.tab.entry sym ≠ none ∨
        ∃ a d, s.tab.entry a = some d ∧ (d <+: s.tab.stg ∨ s.tab.stg <+: d)) →
      exec (.lutCommit sym) s =
        .next (State.raise .codeTableCorrupt { s with tab := { s.tab with bad := true, stg := [] } })) ∧
    (s.dec.state ≠ .run → s.tab.stg ≠ [] → s.tab.entry sym = none →
      (∀ a d, s.tab.entry a = some d → ¬ d <+: s.tab.stg ∧ ¬ s.tab.stg <+: d) →
      ∃ tab : Table, (∀ a, tab.entry a = if a = sym then some s.tab.stg else s.tab.entry a) ∧
        tab.bad = s.tab.bad ∧ tab.stg = [] ∧
        exec (.lutCommit sym) s = .next { s with tab := tab, rsps := s.rsps ++ [0x0000000000#40] })

/-- R67: `LUT.QRY` answers a symbol whose codeword is staged, else `PREFIX`, else `DEAD`, and changes nothing. -/
def Obligations.LutQryAnswersCodewordPrefixOrDeadEnd : Prop :=
  decode 0x3300 = .ok .lutQry ∧ ∀ s : State,
    ((∃ a, s.tab.entry a = some s.tab.stg) → ∃ a, s.tab.entry a = some s.tab.stg ∧
      exec .lutQry s = .next { s with rsps := s.rsps ++ [0x03#8 ++ a.setWidth 32] }) ∧
    ((∀ a, s.tab.entry a ≠ some s.tab.stg) → s.tab.hasProperPrefix s.tab.stg →
      exec .lutQry s = .next { s with rsps := s.rsps ++ [0x0400000000#40] }) ∧
    ((∀ a, s.tab.entry a ≠ some s.tab.stg) → ¬ s.tab.hasProperPrefix s.tab.stg →
      exec .lutQry s = .next { s with rsps := s.rsps ++ [0x0500000000#40] })

/-- R68: `LUT.STGCLR`. -/
def Obligations.LutStgClrEmptiesTheStagingRegister : Prop :=
  decode 0x3400 = .ok .lutStgClr ∧ ∀ s : State, exec .lutStgClr s =
    .next { s with tab := { s.tab with stg := [] }, rsps := s.rsps ++ [0x0000000000#40] }

/-- R61, R62: on a table that meets R22 item 3, `LutMatch` finds the one entry that is c, `LutPrefix` says whether c
is a proper prefix of one, and the two never hold together; ε is no codeword, and a prefix when there is an entry. -/
def Obligations.LookupFunctionsOnAPrefixFreeTable : Prop :=
  ∀ (t : Table) (c : BitString), t.prefixFree →
    (∀ a, lutMatch c t = some a ↔ t.entry a = some c) ∧
    (lutPrefix c t = true ↔ ∃ a d, t.entry a = some d ∧ c <+: d ∧ c ≠ d) ∧
    ¬ (lutMatch c t ≠ none ∧ lutPrefix c t = true) ∧
    lutMatch [] t = none ∧ (lutPrefix [] t = true ↔ ∃ a, t.entry a ≠ none)

/-- R63: "a table passes all its insertions exactly when the finished table satisfies the invariant": pairs entered
into an empty table all pass exactly when they have non-empty codewords, distinct symbols and no two prefix-related
codewords; the table then holds exactly these pairs. -/
def Obligations.InsertionsPassExactlyForPrefixFreePairs : Prop :=
  ∀ pairs : List (Symbol × BitString),
    (insertAll pairs Table.reset ≠ none ↔
      (∀ p ∈ pairs, p.2 ≠ []) ∧
      pairs.Pairwise fun p q => p.1 ≠ q.1 ∧ ¬ p.2 <+: q.2 ∧ ¬ q.2 <+: p.2) ∧
    (∀ t, insertAll pairs Table.reset = some t → ∀ a c, t.entry a = some c ↔ (a, c) ∈ pairs)

/-- R63, "whatever the order of insertion": the same pairs in another order are accepted or refused alike, and give
the same table. -/
def Obligations.InsertionOrderDoesNotMatter : Prop :=
  ∀ (ps qs : List (Symbol × BitString)) (t : Table), ps.Perm qs → insertAll ps t = insertAll qs t

/-- R42: a codeword entered by `LUT.COMMIT` is seen by the very next lookup. -/
def Obligations.CommittedCodewordIsSeenAtOnce : Prop :=
  ∀ (sym : Symbol) (s t : State), exec (.lutCommit sym) s = .next t → t.rsps = s.rsps ++ [0x0000000000#40] →
    lutMatch s.tab.stg t.tab = some sym ∧
    exec .lutQry { t with tab := { t.tab with stg := s.tab.stg } } =
      .next { t with tab := { t.tab with stg := s.tab.stg }, rsps := t.rsps ++ [0x03#8 ++ sym.setWidth 32] }

/-- R69 (3), capacity: a table holds at most 256 codewords, and each successful commit adds exactly one. -/
def Obligations.TableNeverOverflows : Prop :=
  (∀ t : Table, t.count ≤ 256) ∧
  (∀ (sym : Symbol) (s t : State), exec (.lutCommit sym) s = .next t → t.rsps = s.rsps ++ [0x0000000000#40] →
    t.tab.count = s.tab.count + 1)

/-- R69 (1), unique decoding: two ways to cut a prefix of w into codewords of a prefix-free table are one the start
of the other. -/
def Obligations.CodewordsDecodeUniquely : Prop :=
  ∀ (t : Table) (code : Symbol → BitString) (xs ys : List Symbol) (w : BitString), t.prefixFree →
    (∀ a ∈ xs ++ ys, t.entry a = some (code a)) → xs.flatMap code <+: w → ys.flatMap code <+: w →
    xs <+: ys ∨ ys <+: xs

/-- R69 (4), complete codes: on the table of a strict binary tree's leaves no bit string is a dead end unless it
extends past a leaf. -/
def Obligations.CompleteCodesHaveNoDeadEnd : Prop :=
  ∀ (tree : CodeTree) (t : Table) (c : BitString), insertAll tree.codes Table.reset = some t →
    (∃ a d, t.entry a = some d ∧ d <+: c) ∨ lutPrefix c t = true

/-! ## The decoder -/

/-- R33: the value of a header field, byte by byte, and that 32 bits packed most significant first are its four
big-endian bytes. -/
def Obligations.HeaderFieldsAreBigEndian : Prop :=
  (∀ b0 b1 b2 b3 : Byte, (be32 b0 b1 b2 b3).toNat =
    b0.toNat * 2 ^ 24 + b1.toNat * 2 ^ 16 + b2.toNat * 2 ^ 8 + b3.toNat) ∧
  (∀ v : Word32, ∃ b0 b1 b2 b3, packBits ((List.range 32).map fun i => v.getLsbD (31 - i)) = [b0, b1, b2, b3] ∧
    be32 b0 b1 b2 b3 = v)

/-- R71: `DEC.HDR`. -/
def Obligations.DecHdrReadsEightBytes : Prop :=
  decode 0x4000 = .ok .decHdr ∧ ∀ s : State,
    (s.dec.state = .run → exec .decHdr s = .next (s.raise .illegalCommand)) ∧
    (s.dec.state ≠ .run → s.params.srcRd = false → exec .decHdr s = .next (s.raise .invalidStreamMode)) ∧
    (s.dec.state ≠ .run → s.params.srcRd = true → s.src.length < 8 →
      exec .decHdr s =
        .next (State.raise .malformedStream { s with hdr := { s.hdr with ok := false }, src := [] })) ∧
    (∀ x0 x1 x2 x3 x4 x5 x6 x7 rest, s.dec.state ≠ .run → s.params.srcRd = true →
      s.src = [x0, x1, x2, x3, x4, x5, x6, x7] ++ rest → ∃ l plen : Word32,
      l.toNat = x0.toNat * 2 ^ 24 + x1.toNat * 2 ^ 16 + x2.toNat * 2 ^ 8 + x3.toNat ∧
      plen.toNat = x4.toNat * 2 ^ 24 + x5.toNat * 2 ^ 16 + x6.toNat * 2 ^ 8 + x7.toNat ∧
      exec .decHdr s = .next { s with hdr := ⟨true, l, plen⟩, src := rest, rsps := s.rsps ++ [0x0000000000#40] })

/-- R37: what a conforming encoder writes is a table block, and holds the pairs it was made from. -/
def Obligations.WrittenTableBlocksAreTableBlocks : Prop :=
  ∀ pairs : List (Symbol × BitString), (∀ p ∈ pairs, 1 ≤ p.2.length ∧ p.2.length ≤ 255) →
    IsTableBlock (tableBlock pairs) pairs

/-- R37, R72: `DEC.LDTAB` on a source that begins with a table block of `hdr_l` bytes whose pairs the table accepts:
the pairs are entered, exactly the block is pulled. With L = 0 nothing is pulled and nothing entered. -/
def Obligations.DecLdTabLoadsAWellFormedBlock : Prop :=
  decode 0x4100 = .ok .decLdTab ∧ ∀ s : State,
    (s.dec.state = .run ∨ s.hdr.ok = false → exec .decLdTab s = .next (s.raise .illegalCommand)) ∧
    (∀ block rest pairs tab, s.dec.state ≠ .run → s.hdr.ok = true → s.src = block ++ rest →
      block.length = s.hdr.l.toNat → IsTableBlock block pairs → insertAll pairs s.tab = some tab →
      exec .decLdTab s = .next { s with tab := tab, src := rest, rsps := s.rsps ++ [0x0000000000#40] })

/-- R72, R85: `DEC.LDTAB` on any other source raises `CodeTableCorrupt`: the pairs entered so far stay, `lut_bad` is
set, the bytes pulled so far stay pulled, the bytes of the block not pulled yet stay in the source. Which bytes of the
failing entry are pulled is fixed case by case (`CorruptEntry`): none, the first two, all that was left, or all of the
entry. -/
def Obligations.DecLdTabRefusesAnIllFormedBlock : Prop :=
  ∀ s : State, s.dec.state ≠ .run → s.hdr.ok = true →
    (¬ ∃ block rest pairs, s.src = block ++ rest ∧ block.length = s.hdr.l.toNat ∧ IsTableBlock block pairs ∧
      insertAll pairs s.tab ≠ none) →
    ∃ whole part rest pairs tab, s.src = whole ++ part ++ rest ∧ IsTableBlock whole pairs ∧
      insertAll pairs s.tab = some tab ∧ (whole ++ part).length ≤ s.hdr.l.toNat ∧ part.length ≤ 34 ∧
      CorruptEntry (s.hdr.l.toNat - whole.length) tab part rest ∧
      exec .decLdTab s =
        .next (State.raise .codeTableCorrupt { s with tab := { tab with bad := true }, src := rest })

/-- R73: `DEC.START`, in every automaton state. -/
def Obligations.DecStartBeginsADecode : Prop :=
  decode 0x4200 = .ok .decStart ∧ ∀ s : State,
    (s.hdr.ok = false ∨ s.br.opened = false → exec .decStart s = .next (s.raise .illegalCommand)) ∧
    (s.hdr.ok = true → s.br.opened = true → s.tab.bad = true →
      exec .decStart s = .next (s.raise .codeTableCorrupt)) ∧
    (s.hdr.ok = true → s.br.opened = true → s.tab.bad = false →
      exec .decStart s = .next { s with
        dec := ⟨if s.hdr.plen = 0 then .done else .run, [], s.hdr.plen, 0⟩
        rsps := s.rsps ++ [0x0000000000#40] })

/-- R74, R75: `DEC.STEP`, with the five branches of `DecStep()`. `BitRead()` leaves the state r (`BitTaken`, R57), the
bit enters the accumulator, the counts change as the framing says. -/
def Obligations.DecStepTakesOneBranchOfTheAutomaton : Prop :=
  decode 0x4300 = .ok .decStep ∧ ∀ s : State,
    (s.dec.state ≠ .run → exec .decStep s = .next (s.raise .illegalCommand)) ∧
    (s.dec.state = .run → s.bitsAhead = [] →
      exec .decStep s = .next (State.raise .malformedStream { s with
        br := { s.br with eos := true }, dec := { s.dec with state := .fault } })) ∧
    (∀ b w, s.dec.state = .run → s.bitsAhead = b :: w → ∃ r : State,
      BitTaken s b r ∧ r.bitsAhead = w ∧
      (∀ counted left : Word32,
        counted = (if s.params.framing = .bits then s.dec.rem - 1 else s.dec.rem) → left = s.dec.rem - 1 →
        (∀ x, lutMatch (s.dec.acc ++ [b]) s.tab = some x →
          exec .decStep s = .next { r with
            dec := ⟨if left = 0 then .done else .run, [], left, s.dec.emit + 1⟩
            out := s.out ++ [x]
            rsps := s.rsps ++ [0x03#8 ++ x.setWidth 32] }) ∧
        (lutMatch (s.dec.acc ++ [b]) s.tab = none →
          (lutPrefix (s.dec.acc ++ [b]) s.tab = false ∨ (s.params.framing = .bits ∧ counted = 0)) →
          exec .decStep s = .next (State.raise .malformedStream { r with
            dec := ⟨.fault, s.dec.acc ++ [b], counted, s.dec.emit⟩ })) ∧
        (lutMatch (s.dec.acc ++ [b]) s.tab = none → lutPrefix (s.dec.acc ++ [b]) s.tab = true →
          (s.params.framing = .bits → counted ≠ 0) →
          exec .decStep s = .next { r with
            dec := ⟨.run, s.dec.acc ++ [b], counted, s.dec.emit⟩
            rsps := s.rsps ++ [0x0000000000#40] })))

/-- R76: `DEC.RUN` "is exactly that of issuing `DEC.STEP` until one returns with `dec_state` not `RUN`", but for the
responses: it gives one, the count of symbols in `DONE`, `MalformedStream` in `FAULT`. It always ends. -/
def Obligations.DecRunIsDecStepRepeated : Prop :=
  decode 0x4400 = .ok .decRun ∧ ∀ s : State,
    (s.dec.state ≠ .run → exec .decRun s = .next (s.raise .illegalCommand)) ∧
    (s.dec.state = .run → ∃ n m t, 1 ≤ n ∧ StepsTo n s m ∧ exec .decRun s = .next t ∧
      t = { m with rsps := t.rsps } ∧
      ((m.dec.state = .done ∧ t.rsps = s.rsps ++ [0x06#8 ++ m.dec.emit]) ∨
        (m.dec.state = .fault ∧ t.rsps = s.rsps ++ [0x4000000000#40])))

/-- R74, R76, R77: `DEC.RUN` completes whenever the bits ahead, after the accumulator's, begin with the codewords of
the declared count: the symbols reach the sink in order, exactly these bits are taken, and nothing else changes. The
last bit taken decides the byte the reader stands in: k bytes have left the source, none early (R57), and end-of-source
is not touched. -/
def Obligations.DecRunCompletesOnAWellFormedPayload : Prop :=
  ∀ (s : State) (code : Symbol → BitString) (xs : List Symbol) (w rest : BitString) (k : Nat),
    Inv s → s.dec.state = .run → (∀ x ∈ xs, s.tab.entry x = some (code x)) → s.bitsAhead = w ++ rest →
    s.dec.acc ++ w = xs.flatMap code →
    (s.params.framing = .bits → s.dec.rem.toNat = w.length) →
    (s.params.framing = .syms → s.dec.rem.toNat = xs.length) →
    k = (s.br.pos.val + w.length - 1) / 8 →
    ∃ pos : Fin 9, pos.val + 8 * k = s.br.pos.val + w.length ∧ k ≤ s.src.length ∧ exec .decRun s = .next { s with
        br := ⟨true, (s.br.cur :: s.src).getD k 0, pos, false⟩
        src := s.src.drop k
        dec := ⟨.done, [], 0, s.dec.emit + BitVec.ofNat 32 xs.length⟩
        out := s.out ++ xs
        rsps := s.rsps ++ [0x06#8 ++ (s.dec.emit + BitVec.ofNat 32 xs.length)] } ∧
      State.bitsAhead { s with
        br := ⟨true, (s.br.cur :: s.src).getD k 0, pos, false⟩, src := s.src.drop k } = rest

/-- R77: when a run reaches `DONE`, the symbols it emitted are the ones whose codewords are the bits it took, under
`BITS` exactly the declared bits, under `SYMS` exactly the declared symbols; no byte but those of the bits taken has
left the source, end-of-source is not touched; and no further step is enabled. -/
def Obligations.DoneRunTookExactlyTheDeclaredCount : Prop :=
  ∀ s t : State, Inv s → s.dec.state = .run → exec .decRun s = .next t → t.dec.state = .done →
    ∃ (xs : List Symbol) (code : Symbol → BitString) (w : BitString),
      t.out = s.out ++ xs ∧ (∀ x ∈ xs, s.tab.entry x = some (code x)) ∧ s.bitsAhead = w ++ t.bitsAhead ∧
      s.dec.acc ++ w = xs.flatMap code ∧
      t.src = s.src.drop ((s.br.pos.val + w.length - 1) / 8) ∧ t.br.eos = false ∧
      (s.params.framing = .bits → w.length = s.dec.rem.toNat) ∧
      (s.params.framing = .syms → xs.length = s.dec.rem.toNat) ∧
      exec .decStep t = .next (t.raise .illegalCommand) ∧ exec .decRun t = .next (t.raise .illegalCommand)

/-- R88: after `MalformedStream` from a decode the automaton is in `FAULT`, `DEC.STEP` and `DEC.RUN` raise
`IllegalCommand`, the symbols pushed stay, and the output is not valid. -/
def Obligations.MalformedDecodeStopsInFault : Prop :=
  ∀ (i : Instr) (s t : State), i = .decStep ∨ i = .decRun → exec i s = .next t →
    t.rsps = s.rsps ++ [0x4000000000#40] →
    t.dec.state = .fault ∧ ¬ t.validOutput ∧ s.out <+: t.out ∧
    exec .decStep t = .next (t.raise .illegalCommand) ∧ exec .decRun t = .next (t.raise .illegalCommand)

/-- R70: `dec_state` moves as the table says and at no other event: reset, a completing `DEC.START`, the steps of
`DEC.STEP` and `DEC.RUN` in `RUN`. -/
def Obligations.DecStateMovesOnlyAsTheTableSays : Prop :=
  (∀ (i : Instr) (s t : State), exec i s = .next t →
    (i = .sysReset → t.dec.state = .idle) ∧
    (i = .decStart → t.rsps = s.rsps ++ [0x0000000000#40] →
      t.dec.state = if s.hdr.plen = 0 then .done else .run) ∧
    (i = .decStart → t.rsps ≠ s.rsps ++ [0x0000000000#40] → t.dec.state = s.dec.state) ∧
    (i = .decStep → s.dec.state = .run → t.dec.state ≠ .idle ∧
      (t.dec.state = .fault ↔ t.rsps = s.rsps ++ [0x4000000000#40]) ∧
      (t.dec.state = .done ↔ t.dec.rem = 0 ∧ ∃ x, t.out = s.out ++ [x])) ∧
    (i = .decRun → s.dec.state = .run →
      (t.dec.state = .fault ∧ t.rsps = s.rsps ++ [0x4000000000#40]) ∨
      (t.dec.state = .done ∧ t.dec.rem = 0 ∧ t.rsps ≠ s.rsps ++ [0x4000000000#40])) ∧
    (i ≠ .sysReset → i ≠ .decStart → ((i ≠ .decStep ∧ i ≠ .decRun) ∨ s.dec.state ≠ .run) →
      t.dec.state = s.dec.state)) ∧
  (∀ (s : State) (rest : List HostAct), s.port = .reset :: rest →
    ∃ t, step s = .next t ∧ t.dec.state = .idle)

/-- R79, the round trip: for a table of prefix-free pairs with a codeword for every symbol of a non-empty sequence,
the file of that sequence decodes to exactly that sequence, under the framing it was written with. -/
def Obligations.DecodeInvertsEncode : Prop :=
  ∀ (s : State) (pairs : List (Symbol × BitString)) (code : Symbol → BitString) (xs : List Symbol),
    s.dec.state ≠ .run → s.params.srcRd = true →
    (∀ p ∈ pairs, BitString.isCodeword p.2 = true) → insertAll pairs Table.reset ≠ none →
    xs ≠ [] → (∀ x ∈ xs, (x, code x) ∈ pairs) → payloadLength s.params.framing code xs < 2 ^ 32 →
    s.src = compressedFile (payloadLength s.params.framing code xs) pairs (packBits (payloadBits code xs)) →
    ∃ t, execAll [.lutClr, .decHdr, .decLdTab, .brOpen, .decStart, .decRun] s = .next t ∧
      t.out = s.out ++ xs ∧ t.dec.state = .done ∧ t.dec.emit.toNat = xs.length ∧ t.err = s.err ∧ t.src = [] ∧
      t.rsps = s.rsps ++ List.replicate 5 0x0000000000#40 ++ [0x06#8 ++ BitVec.ofNat 32 xs.length]

/-- R79, truncation: the same file with its payload cut by the last byte. With at least two payload bytes the session
completes up to `DEC.START` and `DEC.RUN` raises `MalformedStream`, having emitted only symbols of the sequence, in
order and not all; with one payload byte `BR.OPEN` raises `EmptySource`. -/
def Obligations.TruncatedPayloadIsMalformed : Prop :=
  ∀ (s : State) (pairs : List (Symbol × BitString)) (code : Symbol → BitString) (xs : List Symbol),
    s.dec.state ≠ .run → s.params.srcRd = true →
    (∀ p ∈ pairs, BitString.isCodeword p.2 = true) → insertAll pairs Table.reset ≠ none →
    xs ≠ [] → (∀ x ∈ xs, (x, code x) ∈ pairs) → payloadLength s.params.framing code xs < 2 ^ 32 →
    s.src =
      compressedFile (payloadLength s.params.framing code xs) pairs (packBits (payloadBits code xs)).dropLast →
    (2 ≤ (packBits (payloadBits code xs)).length →
      ∃ t ys, execAll [.lutClr, .decHdr, .decLdTab, .brOpen, .decStart, .decRun] s = .next t ∧
        t.out = s.out ++ ys ∧ ys <+: xs ∧ ys ≠ xs ∧ t.dec.state = .fault ∧
        t.rsps = s.rsps ++ List.replicate 5 0x0000000000#40 ++ [0x4000000000#40]) ∧
    ((packBits (payloadBits code xs)).length = 1 →
      ∃ t, execAll [.lutClr, .decHdr, .decLdTab] s = .next t ∧
        t.rsps = s.rsps ++ List.replicate 3 0x0000000000#40 ∧ exec .brOpen t = .next (t.raise .emptySource))

/-! ## The system commands and reset -/

/-- R24, R25, R26, R80: `SYS.RD r`: the value of every register, no side effect, and `IllegalCommand` for the
registers that do not exist. -/
def Obligations.SysRdReturnsTheRegister : Prop :=
  ∀ (r : BitVec 8) (s : State),
    decode (0xF000 + r.setWidth 16) = .ok (.sysRd r) ∧
    (12 ≤ r.toNat → exec (.sysRd r) s = .next (s.raise .illegalCommand)) ∧
    (r.toNat < 12 → ∃ v : Word32, exec (.sysRd r) s = .next { s with rsps := s.rsps ++ [0x06#8 ++ v] } ∧
      (r = 0 → v.getLsbD 0 = s.bw.opened ∧ v.getLsbD 1 = s.br.opened ∧ v.getLsbD 2 = s.br.eos ∧
        v.getLsbD 3 = s.tab.bad ∧ v.getLsbD 4 = s.hdr.ok ∧
        (v.extractLsb' 5 2).toNat =
          (match s.dec.state with | .idle => 0 | .run => 1 | .done => 2 | .fault => 3) ∧
        v.getLsbD 7 = false ∧ v.extractLsb' 8 3 = s.bw.cnt ∧ v.getLsbD 11 = false ∧
        (v.extractLsb' 12 4).toNat = s.br.pos.val ∧ v.extractLsb' 16 16 = 0) ∧
      (r = 1 → v.toNat = s.err.toNat) ∧ (r = 2 → v = s.hdr.l) ∧ (r = 3 → v = s.hdr.plen) ∧
      (r = 4 → v = s.dec.rem) ∧ (r = 5 → v = s.dec.emit) ∧
      (r = 6 → v = BitVec.ofNat 32 s.dec.acc.length) ∧
      (r = 7 → v.toNat = ((List.finRange 256).filter fun a => (s.tab.lut.get a).isSome).length) ∧
      (r = 8 → v.toNat = s.bw.buf.toNat) ∧ (r = 9 → v.toNat = s.br.cur.toNat) ∧
      (r = 10 → v = BitVec.ofNat 32 s.tab.stg.length) ∧
      (r = 11 → v.toNat = (if s.params.framing = .syms then 1 else 0) + (if s.params.snkWr then 2 else 0) +
        (if s.params.srcRd then 4 else 0)))

/-- R27, R81, R94: `SYS.RESET` and the reset input do the same: every element takes its reset value, the streams and
the parameters stay; the command answers, and clears `err`. -/
def Obligations.ResetGivesEveryElementItsResetValue : Prop :=
  decode 0xFF00 = .ok .sysReset ∧ ∀ s : State, ∃ tab : Table, (∀ a, tab.entry a = none) ∧ tab.bad = false ∧ tab.stg = [] ∧
    exec .sysReset s = .next { s with
      bw := ⟨false, 0x00, 0⟩, br := ⟨false, 0x00, 0, false⟩, hdr := ⟨false, 0, 0⟩, dec := ⟨.idle, [], 0, 0⟩,
      tab := tab, err := 0, rsps := s.rsps ++ [0x0000000000#40] } ∧
    (∀ rest, s.port = .reset :: rest → step s = .next { s with
      bw := ⟨false, 0x00, 0⟩, br := ⟨false, 0x00, 0, false⟩, hdr := ⟨false, 0, 0⟩, dec := ⟨.idle, [], 0, 0⟩,
      tab := tab, err := 0, port := rest })

/-- R27: after reset every register of the view reads 0 but `CONFIG`, which shows the parameters, whatever they
are; for the defaults that is 6. -/
def Obligations.RegistersReadZeroAfterReset : Prop :=
  (∀ (p : Params) (r : BitVec 8), r.toNat < 11 →
    exec (.sysRd r) (State.resetWith p) = .next { State.resetWith p with rsps := [0x0600000000#40] }) ∧
  (∀ p : Params, exec (.sysRd 11) (State.resetWith p) = .next { State.resetWith p with
    rsps := [0x06#8 ++ BitVec.ofNat 32 ((if p.framing = .syms then 1 else 0) + (if p.snkWr then 2 else 0) +
      (if p.srcRd then 4 else 0))] }) ∧
  exec (.sysRd 11) State.reset = .next { State.reset with rsps := [0x0600000006#40] }

/-! ## The whole machine -/

/-- R29, R30, R31, R40: the streams move one way: bytes leave the source at its head, bytes and symbols are appended
to the sinks, and only the commands that may do so. -/
def Obligations.StreamsMoveOneWay : Prop :=
  ∀ (i : Instr) (s t : State), exec i s = .next t →
    t.src <:+ s.src ∧ s.snk <+: t.snk ∧ s.out <+: t.out ∧
    (t.src ≠ s.src → i ∈ [.brOpen, .brRead, .decHdr, .decLdTab, .decStep, .decRun]) ∧
    (t.snk ≠ s.snk → i = .bwFlush ∨ ∃ v, i = .bwWrite v) ∧
    (t.out ≠ s.out → i = .decStep ∨ i = .decRun)

/-- R35: how many bytes and symbols one command moves. -/
def Obligations.CommandsMoveBoundedlyManyBytes : Prop :=
  ∀ (i : Instr) (s t : State), exec i s = .next t →
    (i = .brOpen → t.rsps = s.rsps ++ [0x0000000000#40] → t.src.length + 1 = s.src.length) ∧
    (i = .brRead ∨ i = .decStep → s.src.length ≤ t.src.length + 1) ∧
    (i = .decHdr → s.src.length ≤ t.src.length + 8) ∧
    (i = .decLdTab → s.src.length ≤ t.src.length + s.hdr.l.toNat) ∧
    (i ≠ .decRun → t.snk.length ≤ s.snk.length + 1 ∧ t.out.length ≤ s.out.length + 1)

/-- R22: the invariants hold at reset, whatever the parameters. -/
def Obligations.InvariantsHoldAtReset : Prop :=
  ∀ p : Params, Inv (State.resetWith p)

/-- R22: every step keeps the invariants, from every state that meets them. -/
def Obligations.EveryStepKeepsTheInvariants : Prop :=
  ∀ s t : State, Inv s → step s = .next t → Inv t

/-- R22: the invariants hold in every reachable state; with them the consequences the spec draws: `LutMatch` is
unambiguous, and in `RUN` the accumulator is shorter than `MAXLEN`. -/
def Obligations.ReachableStatesMeetTheInvariants : Prop :=
  ∀ s : State, Reachable s → Inv s ∧ (s.dec.state = .run → s.dec.acc.length ≤ 254) ∧
    ∀ a b c, s.tab.entry a = some c → s.tab.entry b = some c → a = b

/-- R22 item 9 as the spec words it, "whenever `dec_state` is not `IDLE`", for every reachable state. EXPECTED TO
FAIL: `DEC.HDR` is admitted in `DONE` and `FAULT` (R78) and replaces `hdr_plen` (R71) while `dec_emit` and `dec_rem`
stay (notes/assumptions/5.md). -/
def Obligations.CountLawHoldsOutsideIdle : Prop :=
  ∀ s : State, Reachable s → CountLawOutsideIdle s

/-- R22 item 9 as an invariant of every state but `IDLE`: it holds of the `hdr_plen` that the last completed `DEC.START`
took, which is `hdr_plen` itself until a later `DEC.HDR` replaces that (notes/assumptions/5.md). Every step keeps it, a
completing `DEC.START` setting it anew. And item 9 as it is worded, of `hdr_plen` as it stands, is kept by every step but
one: a `DEC.HDR` in `DONE` or `FAULT`. -/
def Obligations.EveryStepKeepsTheCountLaw : Prop :=
  (∀ (p : Word32) (s t : State), CountInv p s → step s = .next t →
    (s.startsDecode → CountInv s.hdr.plen t) ∧ (¬ s.startsDecode → CountInv p t)) ∧
  (∀ s t : State, Inv s → CountLawOutsideIdle s → step s = .next t →
    (∀ cw rest, s.port = .command cw :: rest → decode cw = .ok .decHdr →
      s.dec.state = .idle ∨ s.dec.state = .run) →
    CountLawOutsideIdle t)

/-- R22 item 9 in every reachable state, for the count that the last completed `DEC.START` took: the law, whole; the law
of `hdr_plen` as it stands wherever `hdr_plen` is still that count, so always in `RUN`; and "Neither counter wraps": in
`RUN` there is room below for `dec_rem` and above for `dec_emit`. -/
def Obligations.CountLawHoldsOfTheCountTaken : Prop :=
  ∀ (p : Word32) (s : State), ReachableWith p s →
    (s.dec.state ≠ .idle → s.countsUpTo p) ∧ (p = s.hdr.plen → CountLawOutsideIdle s) ∧
    (s.dec.state = .run → p = s.hdr.plen ∧ 1 ≤ s.dec.rem.toNat ∧ s.dec.emit.toNat + 1 < 2 ^ 32)
end

