-- ==== Sys2Proof/Laws/State.lean ====
section
/-! SUPPORT. The small lemmas of the state: one per field per shared update, true by rfl, so that no later proof
unfolds a record update. -/

namespace Sys2Proof.Machine

variable (s : State)


/-! `State.raise`. -/

@[simp] theorem State.raise_params (c : Condition) : (s.raise c).params = s.params := rfl
@[simp] theorem State.raise_bw (c : Condition) : (s.raise c).bw = s.bw := rfl
@[simp] theorem State.raise_br (c : Condition) : (s.raise c).br = s.br := rfl
@[simp] theorem State.raise_hdr (c : Condition) : (s.raise c).hdr = s.hdr := rfl
@[simp] theorem State.raise_dec (c : Condition) : (s.raise c).dec = s.dec := rfl
@[simp] theorem State.raise_tab (c : Condition) : (s.raise c).tab = s.tab := rfl
@[simp] theorem State.raise_err (c : Condition) : (s.raise c).err = stickyErr c s.err := rfl
@[simp] theorem State.raise_src (c : Condition) : (s.raise c).src = s.src := rfl
@[simp] theorem State.raise_snk (c : Condition) : (s.raise c).snk = s.snk := rfl
@[simp] theorem State.raise_out (c : Condition) : (s.raise c).out = s.out := rfl
@[simp] theorem State.raise_port (c : Condition) : (s.raise c).port = s.port := rfl
@[simp] theorem State.raise_rsps (c : Condition) : (s.raise c).rsps = s.rsps ++ [c.word] := rfl

/-! `State.complete`. -/

@[simp] theorem State.complete_params (r : Reply) : (s.complete r).params = s.params := rfl
@[simp] theorem State.complete_bw (r : Reply) : (s.complete r).bw = s.bw := rfl
@[simp] theorem State.complete_br (r : Reply) : (s.complete r).br = s.br := rfl
@[simp] theorem State.complete_hdr (r : Reply) : (s.complete r).hdr = s.hdr := rfl
@[simp] theorem State.complete_dec (r : Reply) : (s.complete r).dec = s.dec := rfl
@[simp] theorem State.complete_tab (r : Reply) : (s.complete r).tab = s.tab := rfl
@[simp] theorem State.complete_err (r : Reply) : (s.complete r).err = s.err := rfl
@[simp] theorem State.complete_src (r : Reply) : (s.complete r).src = s.src := rfl
@[simp] theorem State.complete_snk (r : Reply) : (s.complete r).snk = s.snk := rfl
@[simp] theorem State.complete_out (r : Reply) : (s.complete r).out = s.out := rfl
@[simp] theorem State.complete_port (r : Reply) : (s.complete r).port = s.port := rfl
@[simp] theorem State.complete_rsps (r : Reply) : (s.complete r).rsps = s.rsps ++ [r.word] := rfl

/-! `State.withPort`. -/

@[simp] theorem State.withPort_params (rest : List HostAct) : (s.withPort rest).params = s.params := rfl
@[simp] theorem State.withPort_bw (rest : List HostAct) : (s.withPort rest).bw = s.bw := rfl
@[simp] theorem State.withPort_br (rest : List HostAct) : (s.withPort rest).br = s.br := rfl
@[simp] theorem State.withPort_hdr (rest : List HostAct) : (s.withPort rest).hdr = s.hdr := rfl
@[simp] theorem State.withPort_dec (rest : List HostAct) : (s.withPort rest).dec = s.dec := rfl
@[simp] theorem State.withPort_tab (rest : List HostAct) : (s.withPort rest).tab = s.tab := rfl
@[simp] theorem State.withPort_err (rest : List HostAct) : (s.withPort rest).err = s.err := rfl
@[simp] theorem State.withPort_src (rest : List HostAct) : (s.withPort rest).src = s.src := rfl
@[simp] theorem State.withPort_snk (rest : List HostAct) : (s.withPort rest).snk = s.snk := rfl
@[simp] theorem State.withPort_out (rest : List HostAct) : (s.withPort rest).out = s.out := rfl
@[simp] theorem State.withPort_port (rest : List HostAct) : (s.withPort rest).port = rest := rfl
@[simp] theorem State.withPort_rsps (rest : List HostAct) : (s.withPort rest).rsps = s.rsps := rfl

/-! `State.resetBlock`. -/

@[simp] theorem State.resetBlock_params : (s.resetBlock).params = s.params := rfl
@[simp] theorem State.resetBlock_bw : (s.resetBlock).bw = Writer.reset := rfl
@[simp] theorem State.resetBlock_br : (s.resetBlock).br = Reader.reset := rfl
@[simp] theorem State.resetBlock_hdr : (s.resetBlock).hdr = Header.reset := rfl
@[simp] theorem State.resetBlock_dec : (s.resetBlock).dec = Automaton.reset := rfl
@[simp] theorem State.resetBlock_tab : (s.resetBlock).tab = Table.reset := rfl
@[simp] theorem State.resetBlock_err : (s.resetBlock).err = 0 := rfl
@[simp] theorem State.resetBlock_src : (s.resetBlock).src = s.src := rfl
@[simp] theorem State.resetBlock_snk : (s.resetBlock).snk = s.snk := rfl
@[simp] theorem State.resetBlock_out : (s.resetBlock).out = s.out := rfl
@[simp] theorem State.resetBlock_port : (s.resetBlock).port = s.port := rfl
@[simp] theorem State.resetBlock_rsps : (s.resetBlock).rsps = s.rsps := rfl

/-! `snkPush`. -/

@[simp] theorem snkPush_params (x : Byte) : (snkPush x s).params = s.params := rfl
@[simp] theorem snkPush_bw (x : Byte) : (snkPush x s).bw = s.bw := rfl
@[simp] theorem snkPush_br (x : Byte) : (snkPush x s).br = s.br := rfl
@[simp] theorem snkPush_hdr (x : Byte) : (snkPush x s).hdr = s.hdr := rfl
@[simp] theorem snkPush_dec (x : Byte) : (snkPush x s).dec = s.dec := rfl
@[simp] theorem snkPush_tab (x : Byte) : (snkPush x s).tab = s.tab := rfl
@[simp] theorem snkPush_err (x : Byte) : (snkPush x s).err = s.err := rfl
@[simp] theorem snkPush_src (x : Byte) : (snkPush x s).src = s.src := rfl
@[simp] theorem snkPush_snk (x : Byte) : (snkPush x s).snk = s.snk ++ [x] := rfl
@[simp] theorem snkPush_out (x : Byte) : (snkPush x s).out = s.out := rfl
@[simp] theorem snkPush_port (x : Byte) : (snkPush x s).port = s.port := rfl
@[simp] theorem snkPush_rsps (x : Byte) : (snkPush x s).rsps = s.rsps := rfl

/-! `outPush`. -/

@[simp] theorem outPush_params (x : Symbol) : (outPush x s).params = s.params := rfl
@[simp] theorem outPush_bw (x : Symbol) : (outPush x s).bw = s.bw := rfl
@[simp] theorem outPush_br (x : Symbol) : (outPush x s).br = s.br := rfl
@[simp] theorem outPush_hdr (x : Symbol) : (outPush x s).hdr = s.hdr := rfl
@[simp] theorem outPush_dec (x : Symbol) : (outPush x s).dec = s.dec := rfl
@[simp] theorem outPush_tab (x : Symbol) : (outPush x s).tab = s.tab := rfl
@[simp] theorem outPush_err (x : Symbol) : (outPush x s).err = s.err := rfl
@[simp] theorem outPush_src (x : Symbol) : (outPush x s).src = s.src := rfl
@[simp] theorem outPush_snk (x : Symbol) : (outPush x s).snk = s.snk := rfl
@[simp] theorem outPush_out (x : Symbol) : (outPush x s).out = s.out ++ [x] := rfl
@[simp] theorem outPush_port (x : Symbol) : (outPush x s).port = s.port := rfl
@[simp] theorem outPush_rsps (x : Symbol) : (outPush x s).rsps = s.rsps := rfl

/-! `markBad`. -/

@[simp] theorem markBad_params : (markBad s).params = s.params := rfl
@[simp] theorem markBad_bw : (markBad s).bw = s.bw := rfl
@[simp] theorem markBad_br : (markBad s).br = s.br := rfl
@[simp] theorem markBad_hdr : (markBad s).hdr = s.hdr := rfl
@[simp] theorem markBad_dec : (markBad s).dec = s.dec := rfl
@[simp] theorem markBad_tab : (markBad s).tab = { s.tab with bad := true } := rfl
@[simp] theorem markBad_err : (markBad s).err = s.err := rfl
@[simp] theorem markBad_src : (markBad s).src = s.src := rfl
@[simp] theorem markBad_snk : (markBad s).snk = s.snk := rfl
@[simp] theorem markBad_out : (markBad s).out = s.out := rfl
@[simp] theorem markBad_port : (markBad s).port = s.port := rfl
@[simp] theorem markBad_rsps : (markBad s).rsps = s.rsps := rfl

/-! `hostSupply`. -/

@[simp] theorem hostSupply_params (bs : List Byte) : (hostSupply bs s).params = s.params := rfl
@[simp] theorem hostSupply_bw (bs : List Byte) : (hostSupply bs s).bw = s.bw := rfl
@[simp] theorem hostSupply_br (bs : List Byte) : (hostSupply bs s).br = s.br := rfl
@[simp] theorem hostSupply_hdr (bs : List Byte) : (hostSupply bs s).hdr = s.hdr := rfl
@[simp] theorem hostSupply_dec (bs : List Byte) : (hostSupply bs s).dec = s.dec := rfl
@[simp] theorem hostSupply_tab (bs : List Byte) : (hostSupply bs s).tab = s.tab := rfl
@[simp] theorem hostSupply_err (bs : List Byte) : (hostSupply bs s).err = s.err := rfl
@[simp] theorem hostSupply_src (bs : List Byte) : (hostSupply bs s).src = s.src ++ bs := rfl
@[simp] theorem hostSupply_snk (bs : List Byte) : (hostSupply bs s).snk = s.snk := rfl
@[simp] theorem hostSupply_out (bs : List Byte) : (hostSupply bs s).out = s.out := rfl
@[simp] theorem hostSupply_port (bs : List Byte) : (hostSupply bs s).port = s.port := rfl
@[simp] theorem hostSupply_rsps (bs : List Byte) : (hostSupply bs s).rsps = s.rsps := rfl

/-! `hostDeposit`. -/

@[simp] theorem hostDeposit_params (bs : List Byte) : (hostDeposit bs s).params = s.params := rfl
@[simp] theorem hostDeposit_bw (bs : List Byte) : (hostDeposit bs s).bw = s.bw := rfl
@[simp] theorem hostDeposit_br (bs : List Byte) : (hostDeposit bs s).br = s.br := rfl
@[simp] theorem hostDeposit_hdr (bs : List Byte) : (hostDeposit bs s).hdr = s.hdr := rfl
@[simp] theorem hostDeposit_dec (bs : List Byte) : (hostDeposit bs s).dec = s.dec := rfl
@[simp] theorem hostDeposit_tab (bs : List Byte) : (hostDeposit bs s).tab = s.tab := rfl
@[simp] theorem hostDeposit_err (bs : List Byte) : (hostDeposit bs s).err = s.err := rfl
@[simp] theorem hostDeposit_src (bs : List Byte) : (hostDeposit bs s).src = s.src := rfl
@[simp] theorem hostDeposit_snk (bs : List Byte) : (hostDeposit bs s).snk = s.snk ++ bs := rfl
@[simp] theorem hostDeposit_out (bs : List Byte) : (hostDeposit bs s).out = s.out := rfl
@[simp] theorem hostDeposit_port (bs : List Byte) : (hostDeposit bs s).port = s.port := rfl
@[simp] theorem hostDeposit_rsps (bs : List Byte) : (hostDeposit bs s).rsps = s.rsps := rfl

/-! `decAccept`, `decEmit`: they touch the automaton, and `decEmit` the symbol sink. -/

@[simp] theorem decAccept_out (b : Bool) : (decAccept b s).out = s.out := rfl
@[simp] theorem decAccept_tab (b : Bool) : (decAccept b s).tab = s.tab := rfl
@[simp] theorem decAccept_params (b : Bool) : (decAccept b s).params = s.params := rfl
@[simp] theorem decAccept_state (b : Bool) : (decAccept b s).dec.state = s.dec.state := rfl
@[simp] theorem decAccept_acc (b : Bool) : (decAccept b s).dec.acc = s.dec.acc ++ [b] := rfl
@[simp] theorem decAccept_emit (b : Bool) : (decAccept b s).dec.emit = s.dec.emit := rfl
@[simp] theorem decEmit_out (x : Symbol) : (decEmit x s).out = s.out ++ [x] := rfl
@[simp] theorem decEmit_tab (x : Symbol) : (decEmit x s).tab = s.tab := rfl
@[simp] theorem decEmit_params (x : Symbol) : (decEmit x s).params = s.params := rfl
@[simp] theorem decEmit_acc (x : Symbol) : (decEmit x s).dec.acc = [] := rfl
@[simp] theorem decEmit_emit (x : Symbol) : (decEmit x s).dec.emit = s.dec.emit + 1 := rfl

/-! The two ways a command ends (R7). -/

@[simp] theorem raised_eq (c : Condition) : raised c s = .next (s.raise c) := rfl
@[simp] theorem completed_eq (r : Reply) : completed r s = .next (s.complete r) := rfl

theorem interlocked_run {rule : State → Result} {s : State} (h : s.dec.state = .run) :
    interlocked rule s = .next (s.raise .illegalCommand) := by
  simp [interlocked, h]

theorem interlocked_free {rule : State → Result} {s : State} (h : s.dec.state ≠ .run) :
    interlocked rule s = rule s := by
  simp [interlocked, h]

end Sys2Proof.Machine
end

