-- ==== Sys2Proof/Laws/Ops.lean ====
section
/-! SUPPORT. One lemma per shared operation over the streams and the adapters, saying once what it can do
(spec/20_memory.md R29, R35; spec/40_bit_writer.md R54; spec/41_bit_reader.md R57). -/

namespace Sys2Proof.Machine

variable {s t : State}

/-- `SrcPull()` (R29): it takes the head of the source, or answers END and changes nothing. -/
theorem srcPull_cases (s : State) :
    (s.src = [] ∧ srcPull s = (none, s)) ∨
    (∃ x rest, s.src = x :: rest ∧ srcPull s = (some x, { s with src := rest })) := by
  unfold srcPull
  rcases h : s.src with _ | ⟨x, rest⟩
  · exact .inl ⟨rfl, rfl⟩
  · exact .inr ⟨x, rest, rfl, rfl⟩

theorem srcPull_nil (h : s.src = []) : srcPull s = (none, s) := by
  simp [srcPull, h]

theorem srcPull_cons {x : Byte} {rest : List Byte} (h : s.src = x :: rest) :
    srcPull s = (some x, { s with src := rest }) := by
  simp [srcPull, h]

/-- n pulls (R35): the first n bytes of the source, or END with the whole source pulled. -/
theorem srcPullN_eq (n : Nat) (s : State) :
    srcPullN n s =
      if n ≤ s.src.length then (some (s.src.take n), { s with src := s.src.drop n })
      else (none, { s with src := [] }) := by
  induction n generalizing s with
  | zero => simp [srcPullN]
  | succ n ih =>
    rcases srcPull_cases s with ⟨h, hp⟩ | ⟨x, rest, h, hp⟩
    · simp only [srcPullN, hp, h, List.length_nil]
      cases s
      simp_all
    · simp only [srcPullN, hp, h, ih, List.length_cons, Nat.succ_le_succ_iff]
      by_cases hn : n ≤ rest.length <;> simp [hn]

/-- `BitRead()` (R57), all it can do. -/
theorem bitRead_cases (s : State) :
    (s.br.eos = true ∧ bitRead s = (none, s)) ∨
    (s.br.eos = false ∧ s.br.pos.val = 8 ∧ s.src = [] ∧
      bitRead s = (none, { s with br := { s.br with eos := true } })) ∨
    (∃ x rest, s.br.eos = false ∧ s.br.pos.val = 8 ∧ s.src = x :: rest ∧
      bitRead s = (some (byteBit x 7), { s with src := rest, br := { s.br with cur := x, pos := 1 } })) ∨
    (∃ h : s.br.pos.val < 8, s.br.eos = false ∧
      bitRead s = (some (byteBit s.br.cur (7 - s.br.pos.val)),
        { s with br := { s.br with pos := ⟨s.br.pos.val + 1, by omega⟩ } })) := by
  unfold bitRead
  rcases he : s.br.eos with _ | _
  · by_cases hp : s.br.pos.val = 8
    · rcases srcPull_cases s with ⟨h, hs⟩ | ⟨x, rest, h, hs⟩
      · exact .inr (.inl ⟨rfl, hp, h, by simp [hp, hs]⟩)
      · exact .inr (.inr (.inl ⟨x, rest, rfl, hp, h, by simp [hp, hs, deliverBit]⟩))
    · have hlt : s.br.pos.val < 8 := by have := s.br.pos.isLt; omega
      exact .inr (.inr (.inr ⟨hlt, rfl, by simp [hp, deliverBit, hlt]⟩))
  · exact .inl ⟨rfl, by simp⟩

/-- A bit delivered is one bit less on the way. -/
theorem bitRead_some_bitsLeft {b : Bool} (h : bitRead s = (some b, t)) : bitsLeft t + 1 = bitsLeft s := by
  rcases bitRead_cases s with ⟨_, hr⟩ | ⟨_, _, _, hr⟩ | ⟨x, rest, _, hp, hs, hr⟩ | ⟨hlt, _, hr⟩
  · simp [hr] at h
  · simp [hr] at h
  · rw [hr] at h
    obtain ⟨-, rfl⟩ := Prod.mk.inj h
    simp only [bitsLeft, hs, hp, List.length_cons]
    have : (1 : Fin 9).val = 1 := rfl
    omega
  · rw [hr] at h
    obtain ⟨-, rfl⟩ := Prod.mk.inj h
    simp only [bitsLeft]
    omega

/-- `BitRead()` touches the reader and the source only. -/
theorem bitRead_frame (s : State) :
    (bitRead s).2 = { s with br := (bitRead s).2.br, src := (bitRead s).2.src } := by
  rcases bitRead_cases s with ⟨_, hr⟩ | ⟨_, _, _, hr⟩ | ⟨x, rest, _, _, _, hr⟩ | ⟨_, _, hr⟩ <;> simp [hr]

theorem bitRead_frame_of {o : Option Bool} (h : bitRead s = (o, t)) : t = { s with br := t.br, src := t.src } := by
  have hf := bitRead_frame s
  rwa [h] at hf

/-- The write of one bit touches the writer and the sink only (R54). -/
theorem bitWrite_frame (b : Bool) (s : State) :
    bitWrite b s = { s with bw := (bitWrite b s).bw, snk := (bitWrite b s).snk } := by
  unfold bitWrite
  split <;> rfl

end Sys2Proof.Machine
end

