-- ==== Sys2Proof/Laws/Table.lean ====
section
/-! SUPPORT. The lookup table: entries after a write, and what the one search behind `LutMatch`, `LutPrefix` and
`LutInsert` finds (spec/42_lookup_table.md R61 to R63). -/

namespace Sys2Proof.Machine

variable {t : Table} {c : BitString}

/-- `lut[s] <- some(c)` changes that entry only. -/
@[simp] theorem Table.entry_setEntry (t : Table) (a b : Symbol) (c : BitString) :
    (t.setEntry a c).entry b = if b = a then some c else t.entry b := by
  unfold Table.entry Table.setEntry
  by_cases h : b = a
  · subst h
    simp
  · have hne : a.toNat ≠ b.toNat := fun e => h (BitVec.eq_of_toNat_eq e.symm)
    simp [hne, h]

@[simp] theorem Table.setEntry_bad (t : Table) (a : Symbol) (c : BitString) : (t.setEntry a c).bad = t.bad := rfl
@[simp] theorem Table.setEntry_stg (t : Table) (a : Symbol) (c : BitString) : (t.setEntry a c).stg = t.stg := rfl

@[simp] theorem Table.entry_reset (a : Symbol) : Table.reset.entry a = none := by
  simp [Table.entry, Table.reset]

@[simp] theorem Table.bad_reset : Table.reset.bad = false := rfl
@[simp] theorem Table.stg_reset : Table.reset.stg = [] := rfl
@[simp] theorem Table.count_reset : Table.reset.count = 0 := by decide

/-- Entries do not depend on `lut_bad` and `stg`. -/
theorem Table.entry_congr {t u : Table} (h : t.lut = u.lut) (a : Symbol) : t.entry a = u.entry a := by
  simp [Table.entry, h]

theorem findEntry_some {p : BitString → Bool} {a : Symbol} (es : List (Option BitString)) (i : Nat)
    (hi : i + es.length ≤ 256) (h : findEntry p i es = some a) :
    ∃ c, i ≤ a.toNat ∧ es[a.toNat - i]? = some (some c) ∧ p c = true := by
  induction es generalizing i with
  | nil => simp [findEntry] at h
  | cons e es ih =>
    simp only [List.length_cons] at hi
    have later : findEntry p (i + 1) es = some a →
        ∃ c, i ≤ a.toNat ∧ (e :: es)[a.toNat - i]? = some (some c) ∧ p c = true := by
      intro h'
      obtain ⟨c, h1, h2, h3⟩ := ih (i + 1) (by omega) h'
      refine ⟨c, by omega, ?_, h3⟩
      rw [show a.toNat - i = (a.toNat - (i + 1)) + 1 by omega]
      simpa using h2
    cases e with
    | none => exact later (by simpa [findEntry] using h)
    | some d =>
      by_cases hp : p d = true
      · have ha : a = BitVec.ofNat 8 i := by simpa [findEntry, hp] using h.symm
        have hai : a.toNat = i := by rw [ha]; simp; omega
        exact ⟨d, by omega, by simp [hai], hp⟩
      · exact later (by simpa [findEntry, hp] using h)

theorem findEntry_none {p : BitString → Bool} (es : List (Option BitString)) (i : Nat)
    (h : findEntry p i es = none) {k : Nat} {c : BitString} (hk : es[k]? = some (some c)) : p c = false := by
  induction es generalizing i k with
  | nil => simp at hk
  | cons e es ih =>
    cases e with
    | none =>
      cases k with
      | zero => simp at hk
      | succ k => exact ih (i + 1) (by simpa [findEntry] using h) (by simpa using hk)
    | some d =>
      by_cases hp : p d = true
      · simp [findEntry, hp] at h
      · cases k with
        | zero => simp at hk; simpa [hk] using hp
        | succ k => exact ih (i + 1) (by simpa [findEntry, hp] using h) (by simpa using hk)

theorem Table.entry_eq_getElem? (t : Table) (a : Symbol) : t.lut.toList[a.toNat]? = some (t.entry a) := by
  have h : a.toNat < t.lut.toList.length := by simpa using a.isLt
  rw [List.getElem?_eq_getElem h]
  simp [Table.entry]

/-- What the search finds is an entry that satisfies the test. -/
theorem Table.find_some {p : BitString → Bool} {a : Symbol} (h : t.find p = some a) :
    ∃ c, t.entry a = some c ∧ p c = true := by
  obtain ⟨c, -, h2, h3⟩ := findEntry_some t.lut.toList 0 (by simp [nEnt]) h
  rw [Nat.sub_zero, Table.entry_eq_getElem?] at h2
  exact ⟨c, by simpa using h2, h3⟩

/-- Where the search finds nothing, no entry satisfies the test. -/
theorem Table.find_none {p : BitString → Bool} (h : t.find p = none) {a : Symbol} (ha : t.entry a = some c) :
    p c = false :=
  findEntry_none t.lut.toList 0 h (k := a.toNat) (by rw [Table.entry_eq_getElem?, ha])

theorem Table.find_isSome_iff {p : BitString → Bool} :
    (t.find p).isSome = true ↔ ∃ a c, t.entry a = some c ∧ p c = true := by
  constructor
  · intro h
    obtain ⟨a, ha⟩ := Option.isSome_iff_exists.mp h
    exact ⟨a, Table.find_some ha⟩
  · rintro ⟨a, c, ha, hp⟩
    cases hf : t.find p with
    | some b => rfl
    | none => simp [Table.find_none hf ha] at hp

/-- `LutMatch` answers a symbol whose codeword is c (R61). -/
theorem lutMatch_some {a : Symbol} (h : lutMatch c t = some a) : t.entry a = some c := by
  obtain ⟨d, hd, he⟩ := Table.find_some h
  simpa [show d = c by simpa using he] using hd

/-- `LutMatch` answers none when no entry is c (R61). -/
theorem lutMatch_none_iff : lutMatch c t = none ↔ ∀ a, t.entry a ≠ some c := by
  constructor
  · intro h a ha
    simpa using Table.find_none h ha
  · intro h
    cases hm : lutMatch c t with
    | none => rfl
    | some a => exact absurd (lutMatch_some hm) (h a)

theorem isPrefix_iff {c d : BitString} : isPrefix c d = true ↔ c <+: d := by simp [isPrefix]

theorem isProperPrefix_iff {c d : BitString} : isProperPrefix c d = true ↔ c <+: d ∧ c.length < d.length := by
  simp [isProperPrefix, isPrefix_iff]

theorem prefixRelated_iff {c d : BitString} : prefixRelated c d = true ↔ c <+: d ∨ d <+: c := by
  simp [prefixRelated, isPrefix_iff]

theorem prefixRelated_comm (c d : BitString) : prefixRelated c d = prefixRelated d c := by
  simp [prefixRelated, Bool.or_comm]

/-- `LutPrefix` (R62). -/
theorem lutPrefix_iff : lutPrefix c t = true ↔ ∃ a d, t.entry a = some d ∧ isProperPrefix c d = true :=
  Table.find_isSome_iff

/-- The refusal test of `LutInsert` (R63). -/
theorem lutCorrupt_iff {sym : Symbol} :
    lutCorrupt sym c t = true ↔
      c = [] ∨ t.entry sym ≠ none ∨ ∃ a d, t.entry a = some d ∧ prefixRelated d c = true := by
  have he : (t.entry sym).isSome = true ↔ t.entry sym ≠ none := Option.isSome_iff_ne_none
  simp only [lutCorrupt, Bool.or_eq_true, Table.find_isSome_iff, List.isEmpty_iff, he, or_assoc]

/-- `LutInsert` (R63): refused and nothing entered, or the pair entered and nothing else changed. -/
theorem lutInsert_cases (sym : Symbol) (c : BitString) (t : Table) :
    (lutCorrupt sym c t = true ∧ lutInsert sym c t = none) ∨
    (lutCorrupt sym c t = false ∧ lutInsert sym c t = some (t.setEntry sym c)) := by
  cases h : lutCorrupt sym c t <;> simp [lutInsert, h]

end Sys2Proof.Machine
end

