-- ==== Sys2Proof/Laws/Decoder.lean ====
section
/-! SUPPORT. What `DecStep()` can do, said once, and that the fuels of the two loops are never used up
(spec/43_decoder_fsm.md R72, R74, R76). -/

namespace Sys2Proof.Machine

variable {s t : State}

/-- `DecStep()` (R74), all it can do. -/
theorem decStep_cases (s : State) :
    (∃ s1, bitRead s = (none, s1) ∧ decStep s = decFault s1) ∨
    (∃ b s1 sym, bitRead s = (some b, s1) ∧ lutMatch (s1.dec.acc ++ [b]) s1.tab = some sym ∧
      decStep s = (.emitted sym, decEmit sym (decAccept b s1))) ∨
    (∃ b s1, bitRead s = (some b, s1) ∧ lutMatch (s1.dec.acc ++ [b]) s1.tab = none ∧
      (lutPrefix (s1.dec.acc ++ [b]) s1.tab = false ∨
        (s1.params.framing = .bits ∧ (decAccept b s1).dec.rem = 0)) ∧
      decStep s = decFault (decAccept b s1)) ∨
    (∃ b s1, bitRead s = (some b, s1) ∧ lutMatch (s1.dec.acc ++ [b]) s1.tab = none ∧
      lutPrefix (s1.dec.acc ++ [b]) s1.tab = true ∧
      ¬(s1.params.framing = .bits ∧ (decAccept b s1).dec.rem = 0) ∧
      decStep s = (.quiet, decAccept b s1)) := by
  unfold decStep
  rcases bitRead s with ⟨_ | b, s1⟩
  · exact .inl ⟨s1, rfl, rfl⟩
  · refine .inr ?_
    cases hm : lutMatch (s1.dec.acc ++ [b]) s1.tab with
    | some sym => exact .inl ⟨b, s1, sym, rfl, hm, by simp [hm]⟩
    | none =>
      refine .inr ?_
      cases hp : lutPrefix (s1.dec.acc ++ [b]) s1.tab with
      | false => exact .inl ⟨b, s1, rfl, hm, .inl hp, by simp [hm, hp]⟩
      | true =>
        by_cases hc : s1.params.framing = .bits ∧ (decAccept b s1).dec.rem = 0
        · exact .inl ⟨b, s1, rfl, hm, .inr hc, by simp [hm, hp, hc]⟩
        · exact .inr ⟨b, s1, rfl, hm, hp, hc, by simp only [decAccept_acc, decAccept_tab, hm, hp]; exact if_neg hc⟩

/-- A step that does not raise takes a bit. -/
theorem decStep_bitsLeft (h : (decStep s).1 ≠ .malformed) : bitsLeft (decStep s).2 + 1 = bitsLeft s := by
  rcases decStep_cases s with ⟨s1, -, hd⟩ | ⟨b, s1, sym, hb, -, hd⟩ | ⟨b, s1, -, -, -, hd⟩ | ⟨b, s1, hb, -, -, -, hd⟩
  · simp [hd, decFault] at h
  · rw [hd, ← bitRead_some_bitsLeft hb]
    rfl
  · simp [hd, decFault] at h
  · rw [hd, ← bitRead_some_bitsLeft hb]
    rfl

/-- One round of the loop of `DEC.RUN`. -/
theorem decLoop_succ (n : Nat) (s : State) :
    decLoop (n + 1) s =
      if s.dec.state = .run then
        if (decStep s).1 = .malformed then (true, (decStep s).2) else decLoop n (decStep s).2
      else (false, s) := by
  simp only [decLoop]
  split
  · rcases decStep s with ⟨_ | _ | _, s1⟩ <;> simp
  · rfl

/-- The fuel of `DEC.RUN` is never used up: any fuel above `bitsLeft` gives the same run (R76 "It always ends"). -/
theorem decLoop_fuel {n m : Nat} (hn : bitsLeft s < n) (hm : bitsLeft s < m) : decLoop n s = decLoop m s := by
  induction n generalizing m s with
  | zero => omega
  | succ n ih =>
    cases m with
    | zero => omega
    | succ m =>
      rw [decLoop_succ, decLoop_succ]
      by_cases hr : s.dec.state = .run
      · by_cases hd : (decStep s).1 = .malformed
        · simp [hd]
        · have := decStep_bitsLeft hd
          simp [hr, hd, ih (s := (decStep s).2) (m := m) (by omega) (by omega)]
      · simp [hr]

/-- With enough fuel the loop ends by a raise or out of `RUN`. -/
theorem decLoop_ends {n : Nat} (hn : bitsLeft s < n) :
    (decLoop n s).1 = true ∨ (decLoop n s).2.dec.state ≠ .run := by
  induction n generalizing s with
  | zero => omega
  | succ n ih =>
    rw [decLoop_succ]
    by_cases hr : s.dec.state = .run
    · by_cases hd : (decStep s).1 = .malformed
      · simp [hr, hd]
      · have := decStep_bitsLeft hd
        simpa [hr, hd] using ih (s := (decStep s).2) (by omega)
    · simp [hr]

/-- One round of the loop of `DEC.LDTAB` (R72). -/
theorem ldTabLoop_succ (fuel rem : Nat) (s : State) :
    ldTabLoop (fuel + 1) (rem + 1) s =
      if rem = 0 then (true, markBad s)
      else
        match s.src with
        | sym :: n :: rest =>
          if n = 0 ∨ rem - 1 < ceil8 n.toNat then (true, markBad { s with src := rest })
          else if rest.length < ceil8 n.toNat then (true, markBad { s with src := [] })
          else
            match lutInsert sym ((unpackBytes (rest.take (ceil8 n.toNat))).take n.toNat) s.tab with
            | none => (true, markBad { s with src := rest.drop (ceil8 n.toNat) })
            | some t =>
              ldTabLoop fuel (rem - 1 - ceil8 n.toNat) { s with src := rest.drop (ceil8 n.toNat), tab := t }
        | _ => (true, markBad { s with src := [] }) := by
  have hr : rem + 1 < 2 ↔ rem = 0 := by omega
  have hk : rem + 1 - 2 = rem - 1 := by omega
  simp only [ldTabLoop, srcPullN_eq, hr, hk]
  rcases hsrc : s.src with _ | ⟨x, _ | ⟨n, rest⟩⟩
  · simp
  · simp
  · by_cases h0 : rem = 0
    · simp [h0]
    by_cases hn : n = 0
    · simp [hn]
    by_cases hl : rem - 1 < ceil8 n.toNat
    · simp [hl]
    by_cases hs : rest.length < ceil8 n.toNat
    · simp [hl, hs, Nat.not_le.mpr hs]
    · simp only [List.length_cons, Nat.le_add_left, if_true, List.take_succ_cons, List.take_zero, hn, hl, hs,
        h0, if_false, or_false, List.drop_succ_cons, List.drop_zero, Nat.not_lt.mp hs]
      -- where the package is read as one text, the line above has closed the goal already
      all_goals
        rcases lutInsert x ((unpackBytes (rest.take (ceil8 n.toNat))).take n.toNat) s.tab with _ | t <;> rfl

/-- The fuel of `DEC.LDTAB` is never used up: any fuel from the length of the source on gives the same load. -/
theorem ldTabLoop_fuel {f g rem : Nat} (hf : s.src.length ≤ f) (hg : s.src.length ≤ g) :
    ldTabLoop f rem s = ldTabLoop g rem s := by
  induction f generalizing g rem s with
  | zero =>
    have hs : s.src = [] := List.length_eq_zero_iff.mp (by omega)
    cases rem with
    | zero => cases g <;> simp [ldTabLoop]
    | succ rem =>
      cases g with
      | zero => rfl
      | succ g =>
        rw [ldTabLoop_succ, hs]
        have : ({ s with src := [] } : State) = s := by cases s; simp_all
        simp [ldTabLoop, this]
  | succ f ih =>
    cases rem with
    | zero => cases g <;> simp [ldTabLoop]
    | succ rem =>
      cases g with
      | zero =>
        have hs : s.src = [] := List.length_eq_zero_iff.mp (by omega)
        have : ({ s with src := [] } : State) = s := by cases s; simp_all
        rw [ldTabLoop_succ, hs]
        simp [ldTabLoop, this]
      | succ g =>
        rw [ldTabLoop_succ, ldTabLoop_succ]
        rcases hsrc : s.src with _ | ⟨x, _ | ⟨n, rest⟩⟩
        · rfl
        · rfl
        · simp only [hsrc, List.length_cons] at hf hg
          dsimp only
          rcases lutInsert x ((unpackBytes (rest.take (ceil8 n.toNat))).take n.toNat) s.tab with _ | t
          · rfl
          · have hd := ih (s := { s with src := rest.drop (ceil8 n.toNat), tab := t }) (g := g)
              (rem := rem - 1 - ceil8 n.toNat) (by simp; omega) (by simp; omega)
            simp only [hd]

/-- `DecStep()` touches the reader, the source, the automaton and the symbol sink only. -/
theorem decStep_frame (s : State) :
    (decStep s).2 = { s with
      br := (decStep s).2.br, src := (decStep s).2.src, dec := (decStep s).2.dec, out := (decStep s).2.out } := by
  rcases decStep_cases s with ⟨s1, hb, hd⟩ | ⟨b, s1, sym, hb, -, hd⟩ | ⟨b, s1, hb, -, -, hd⟩ |
      ⟨b, s1, hb, -, -, -, hd⟩ <;>
    · rw [hd, bitRead_frame_of hb]
      rfl

/-- What every `DecStep()` in `RUN` keeps, the loop of `DEC.RUN` keeps. -/
theorem decLoop_keeps {P : State → Prop} (hstep : ∀ u, P u → u.dec.state = .run → P (decStep u).2) (n : Nat)
    (hs : P s) : P (decLoop n s).2 := by
  induction n generalizing s with
  | zero => exact hs
  | succ n ih =>
    rw [decLoop_succ]
    by_cases hr : s.dec.state = .run
    · by_cases hd : (decStep s).1 = .malformed
      · simpa [hr, hd] using hstep s hs hr
      · simpa [hr, hd] using ih (hstep s hs hr)
    · simpa [hr] using hs

/-- The loop of `DEC.RUN` touches what `DecStep()` touches. -/
theorem decLoop_frame (n : Nat) (s : State) :
    (decLoop n s).2 = { s with
      br := (decLoop n s).2.br, src := (decLoop n s).2.src, dec := (decLoop n s).2.dec,
      out := (decLoop n s).2.out } := by
  refine decLoop_keeps (P := fun u => u = { s with br := u.br, src := u.src, dec := u.dec, out := u.out })
    (fun u hu _ => ?_) n rfl
  rw [decStep_frame u, hu]

/-- What marking the table bad and entering one accepted pair keep, whatever is pulled, `DEC.LDTAB` keeps. -/
theorem ldTabLoop_keeps {P : State → Prop}
    (hbad : ∀ u src, P u → P (markBad { u with src := src }))
    (hpair : ∀ u sym (n : Byte) code src t, P u → n ≠ 0 → code.length = ceil8 n.toNat →
      lutInsert sym ((unpackBytes code).take n.toNat) u.tab = some t → P { u with src := src, tab := t })
    (fuel rem : Nat) (hs : P s) : P (ldTabLoop fuel rem s).2 := by
  induction fuel generalizing rem s with
  | zero =>
    cases rem with
    | zero => exact hs
    | succ rem => exact hbad s s.src hs
  | succ fuel ih =>
    cases rem with
    | zero => exact hs
    | succ rem =>
      rw [ldTabLoop_succ]
      by_cases h0 : rem = 0
      · rw [if_pos h0]
        exact hbad s s.src hs
      rw [if_neg h0]
      rcases hsrc : s.src with _ | ⟨sym, _ | ⟨n, rest⟩⟩
      · exact hbad s [] hs
      · exact hbad s [] hs
      · dsimp only
        by_cases hn : n = 0 ∨ rem - 1 < ceil8 n.toNat
        · rw [if_pos hn]
          exact hbad s rest hs
        by_cases hl : rest.length < ceil8 n.toNat
        · rw [if_neg hn, if_pos hl]
          exact hbad s [] hs
        rw [if_neg hn, if_neg hl]
        rcases hi : lutInsert sym ((unpackBytes (rest.take (ceil8 n.toNat))).take n.toNat) s.tab with _ | t
        · exact hbad s _ hs
        · refine ih _ (hpair s sym n (rest.take (ceil8 n.toNat)) _ t hs (fun h => hn (.inl h)) ?_ hi)
          simp only [List.length_take]
          omega

/-- `DEC.LDTAB` touches the table's entries, `lut_bad` and the source only. -/
theorem ldTabLoop_frame (fuel rem : Nat) (s : State) :
    (ldTabLoop fuel rem s).2 =
      { s with tab := (ldTabLoop fuel rem s).2.tab, src := (ldTabLoop fuel rem s).2.src } := by
  refine ldTabLoop_keeps (P := fun u => u = { s with tab := u.tab, src := u.src }) (fun u src hu => ?_)
    (fun u _ _ _ _ _ hu _ _ _ => ?_) fuel rem rfl
  · rw [hu]
    rfl
  · rw [hu]

end Sys2Proof.Machine
end

