-- ==== Sys2Proof/Laws/Exec.lean ====
section
/-! SUPPORT. What every command has in common: it completes or raises once, over a state that kept the parameters,
the port and the responses (spec/00_scope.md R7), and what the big commands leave alone. -/

namespace Sys2Proof.Machine

/-- A command ends by completing or by raising, with the parameters, the port and the responses untouched before. -/
inductive Ends (s : State) : Result → Prop where
  | completes (t : State) (r : Reply) : t.params = s.params → t.port = s.port → t.rsps = s.rsps →
      t.err = s.err ∨ t.err = 0 → Ends s (.next (t.complete r))
  | raises (t : State) (c : Condition) : t.params = s.params → t.port = s.port → t.rsps = s.rsps →
      t.err = s.err → Ends s (.next (t.raise c))

theorem Ends.raised_self (s : State) (c : Condition) : Ends s (raised c s) := .raises s c rfl rfl rfl rfl

theorem Ends.completed_self (s : State) (r : Reply) : Ends s (completed r s) := .completes s r rfl rfl rfl (.inl rfl)

theorem Ends.interlocked {s : State} {rule : State → Result} (h : Ends s (rule s)) : Ends s (interlocked rule s) := by
  by_cases hr : s.dec.state = .run
  · rw [interlocked_run hr]
    exact .raised_self s _
  · rwa [interlocked_free hr]

/-- R7, for every command. -/
theorem exec_ends (i : Instr) (s : State) : Ends s (exec i s) := by
  cases i with
  | bwOpen =>
    simp only [exec, execBwOpen]
    split
    · exact .raised_self s _
    · exact .completes _ _ rfl rfl rfl (.inl rfl)
  | bwWrite v =>
    simp only [exec, execBwWrite]
    split
    · exact .raised_self s _
    · split
      · exact .raised_self s _
      · rw [bitWrite_frame]
        exact .completes _ _ rfl rfl rfl (.inl rfl)
  | bwFlush =>
    simp only [exec, execBwFlush]
    split
    · exact .raised_self s _
    · split <;> exact .completes _ _ rfl rfl rfl (.inl rfl)
  | brOpen =>
    simp only [exec, execBrOpen]
    refine Ends.interlocked ?_
    split
    · exact .raised_self s _
    · rcases srcPull_cases s with ⟨-, h⟩ | ⟨x, rest, -, h⟩ <;> rw [h]
      · exact .raised_self s _
      · exact .completes _ _ rfl rfl rfl (.inl rfl)
  | brRead =>
    simp only [exec, execBrRead]
    refine Ends.interlocked ?_
    split
    · exact .raised_self s _
    · rcases h : bitRead s with ⟨_ | b, s1⟩ <;> dsimp only <;> rw [bitRead_frame_of h] <;>
        exact .completes _ _ rfl rfl rfl (.inl rfl)
  | lutClr =>
    simp only [exec, execLutClr]
    refine Ends.interlocked ?_
    exact .completes { s with tab := _ } _ rfl rfl rfl (.inl rfl)
  | lutBit b =>
    simp only [exec, execLutBit]
    split
    · exact .raised_self s _
    · exact .completes _ _ rfl rfl rfl (.inl rfl)
  | lutCommit sym =>
    simp only [exec, execLutCommit]
    refine Ends.interlocked ?_
    split
    · exact .raises _ _ rfl rfl rfl rfl
    · exact .completes _ _ rfl rfl rfl (.inl rfl)
  | lutQry =>
    simp only [exec, execLutQry]
    split
    · exact .completed_self s _
    · split <;> exact .completed_self s _
  | lutStgClr => exact .completes _ _ rfl rfl rfl (.inl rfl)
  | decHdr =>
    simp only [exec, execDecHdr]
    refine Ends.interlocked ?_
    split
    · exact .raised_self s _
    · rw [srcPullN_eq]
      split
      · rename_i h
        split at h <;> simp only [Prod.mk.injEq] at h <;> rw [← h.2] <;> exact .completes _ _ rfl rfl rfl (.inl rfl)
      · rename_i h
        split at h <;> simp only [Prod.mk.injEq] at h <;> rw [← h.2] <;> exact .raises _ _ rfl rfl rfl rfl
  | decLdTab =>
    simp only [exec, execDecLdTab]
    refine Ends.interlocked ?_
    split
    · exact .raised_self s _
    · have hf := ldTabLoop_frame s.src.length s.hdr.l.toNat s
      rcases h : ldTabLoop s.src.length s.hdr.l.toNat s with ⟨_ | _, s1⟩ <;> rw [h] at hf <;>
        dsimp only at hf ⊢ <;> rw [hf]
      · exact .completes _ _ rfl rfl rfl (.inl rfl)
      · exact .raises _ _ rfl rfl rfl rfl
  | decStart =>
    simp only [exec, execDecStart]
    split
    · exact .raised_self s _
    · split
      · exact .raised_self s _
      · exact .completes _ _ rfl rfl rfl (.inl rfl)
  | decStep =>
    simp only [exec, execDecStep]
    split
    · exact .raised_self s _
    · have hf := decStep_frame s
      rcases h : decStep s with ⟨_ | _ | _, s1⟩ <;> rw [h] at hf <;> dsimp only at hf ⊢ <;> rw [hf]
      · exact .completes _ _ rfl rfl rfl (.inl rfl)
      · exact .completes _ _ rfl rfl rfl (.inl rfl)
      · exact .raises _ _ rfl rfl rfl rfl
  | decRun =>
    simp only [exec, execDecRun]
    split
    · exact .raised_self s _
    · have hf := decLoop_frame (bitsLeft s + 1) s
      rcases h : decLoop (bitsLeft s + 1) s with ⟨_ | _, s1⟩ <;> rw [h] at hf <;> dsimp only at hf ⊢ <;> rw [hf]
      · exact .completes _ _ rfl rfl rfl (.inl rfl)
      · exact .raises _ _ rfl rfl rfl rfl
  | sysRd r =>
    simp only [exec, execSysRd]
    split
    · exact .completed_self s _
    · exact .raised_self s _
  | sysReset => exact .completes _ _ rfl rfl rfl (.inr rfl)

end Sys2Proof.Machine
end

