-- ==== Sys2Proof/Laws/Invariant.lean ====
section
/-! SUPPORT. The table invariant (spec/10_state.md R22 item 3): it depends on the entries alone, the empty table has
it, and every accepted insertion keeps it. -/

namespace Sys2Proof.Machine

variable {t u : Table}

/-- The invariant speaks of the entries only. -/
theorem Table.prefixFree_congr (h : t.lut = u.lut) (hf : t.prefixFree) : u.prefixFree := by
  have e := Table.entry_congr h
  exact ⟨fun a c hc => hf.1 a c (by rwa [e]),
    fun a b c d hab ha hb => hf.2 a b c d hab (by rwa [e]) (by rwa [e])⟩

theorem Table.prefixFree_reset : Table.reset.prefixFree :=
  ⟨fun a c h => by simp at h, fun a b c d _ h => by simp at h⟩

/-- An accepted pair with a codeword of at most `MAXLEN` bits keeps the invariant (R63). -/
theorem lutInsert_prefixFree {sym : Symbol} {c : BitString} (hf : t.prefixFree) (hc : c.length ≤ maxLen)
    (h : lutInsert sym c t = some u) : u.prefixFree := by
  rcases lutInsert_cases sym c t with ⟨_, h1⟩ | ⟨h0, h1⟩
  · simp [h1] at h
  · rw [h1] at h
    obtain rfl := Option.some.inj h
    rw [← Bool.not_eq_true, lutCorrupt_iff, not_or, not_or] at h0
    obtain ⟨g1, -, g3⟩ := h0
    have fresh : ∀ a d, t.entry a = some d → prefixRelated d c = false := fun a d hd => by
      rw [← Bool.not_eq_true]
      exact fun hp => g3 ⟨a, d, hd, hp⟩
    refine ⟨fun a d hd => ?_, fun a b x y hab ha hb => ?_⟩
    · rw [Table.entry_setEntry] at hd
      split at hd
      · obtain rfl := Option.some.inj hd
        have : c.length ≠ 0 := by simpa using g1
        simp only [BitString.isCodeword, decide_eq_true_eq]
        omega
      · exact hf.1 a d hd
    · rw [Table.entry_setEntry] at ha hb
      split at ha <;> split at hb
      · rename_i h1 h2
        exact absurd (h1.trans h2.symm) hab
      · obtain rfl := Option.some.inj ha
        rw [prefixRelated_comm]
        exact fresh b y hb
      · obtain rfl := Option.some.inj hb
        exact fresh a x ha
      · exact hf.2 a b x y hab ha hb

/-- Any number of accepted pairs. -/
theorem insertAll_prefixFree {pairs : List (Symbol × BitString)} (hf : t.prefixFree)
    (hc : ∀ p ∈ pairs, p.2.length ≤ maxLen) (h : insertAll pairs t = some u) : u.prefixFree := by
  induction pairs generalizing t with
  | nil =>
    obtain rfl := Option.some.inj h
    exact hf
  | cons p ps ih =>
    obtain ⟨v, hv, hu⟩ := Option.bind_eq_some_iff.mp h
    exact ih (lutInsert_prefixFree hf (hc p (by simp)) hv) (fun q hq => hc q (by simp [hq])) hu

end Sys2Proof.Machine
end

