-- ==== Sys2Proof/Laws/PerInstr.lean ====
section
/-! SUPPORT. Statements made per instruction. `EncodedUnit`: "The high nibble of `op` is the unit: 1 BW, 2 BR, 3 LUT,
4 DEC, F system", and the low byte is the operand, or zero (spec/30_encoding.md R43, R44). -/

namespace Sys2Proof.Laws.EncodedUnit

/-- The unit of an instruction as a number (R44). -/
def unitOf : Instr → BitVec 4
  | .bwOpen | .bwWrite _ | .bwFlush => 1
  | .brOpen | .brRead => 2
  | .lutClr | .lutBit _ | .lutCommit _ | .lutQry | .lutStgClr => 3
  | .decHdr | .decLdTab | .decStart | .decStep | .decRun => 4
  | .sysRd _ | .sysReset => 15

/-- The operand an instruction's word carries: zero where R44 marks it must-be-zero. -/
def operandOf : Instr → Byte
  | .bwWrite v => v
  | .lutBit b => if b = 1 then 1 else 0
  | .lutCommit sym => sym
  | .sysRd r => r
  | .bwOpen | .bwFlush | .brOpen | .brRead | .lutClr | .lutQry | .lutStgClr | .decHdr | .decLdTab | .decStart
  | .decStep | .decRun | .sysReset => 0

/-- The instruction is well formed; its word has its unit in the top four bits and its operand in the low byte. -/
def Statement (i : Instr) : Prop :=
  i.wellFormed = true ∧ (encode i).extractLsb' 12 4 = unitOf i ∧ argOf (encode i) = operandOf i

theorem bwOpen : Statement .bwOpen := by unfold Statement; decide
theorem bwWrite (v : BitVec 8) : Statement (.bwWrite v) := by revert v; unfold Statement; decide +kernel
theorem bwFlush : Statement .bwFlush := by unfold Statement; decide
theorem brOpen : Statement .brOpen := by unfold Statement; decide
theorem brRead : Statement .brRead := by unfold Statement; decide
theorem lutClr : Statement .lutClr := by unfold Statement; decide
theorem lutBit (b : BitVec 1) : Statement (.lutBit b) := by revert b; unfold Statement; decide
theorem lutCommit (sym : Symbol) : Statement (.lutCommit sym) := by revert sym; unfold Statement; decide +kernel
theorem lutQry : Statement .lutQry := by unfold Statement; decide
theorem lutStgClr : Statement .lutStgClr := by unfold Statement; decide
theorem decHdr : Statement .decHdr := by unfold Statement; decide
theorem decLdTab : Statement .decLdTab := by unfold Statement; decide
theorem decStart : Statement .decStart := by unfold Statement; decide
theorem decStep : Statement .decStep := by unfold Statement; decide
theorem decRun : Statement .decRun := by unfold Statement; decide
theorem sysRd (r : BitVec 8) : Statement (.sysRd r) := by revert r; unfold Statement; decide +kernel
theorem sysReset : Statement .sysReset := by unfold Statement; decide

end Sys2Proof.Laws.EncodedUnit
end

