-- ==== Sys2Proof/Tests/Slice0.lean ====
section
/-! SUPPORT. Tests of one step each, with the expected values of spec/95_test_vectors.md and of the worked examples of
the rules, and for every statement with hypotheses a theorem that shows states and operands meeting them, clause by
clause. -/

namespace Sys2Proof.Tests

open Sys2Proof.Machine

/-! ## Helpers -/

/-- The state after the step that takes the command word w, if the step answers one. -/
def stepped (w : Nat) (s : State) : Option State :=
  match step (s.withFetchWord 16 w) with
  | .next t => some t
  | .fault _ => none
  | .refused _ => none

/-- The state a command leaves. -/
def after (i : Instr) (s : State) : State :=
  match exec i s with
  | .next t => t
  | .fault r => nomatch r
  | .refused _ => s

theorem exec_after (i : Instr) (s : State) : exec i s = .next (after i s) := by
  have h := exec_ends i s
  unfold after
  generalize exec i s = r at h
  cases h <;> rfl

/-- A table with given pairs. -/
def tableOf (pairs : List (Symbol × BitString)) : Table := (insertAll pairs Table.reset).getD Table.reset

/-- T_abc: a:"0", b:"10", c:"11". -/
def abcPairs : List (Symbol × BitString) := [(0x61, [false]), (0x62, [true, false]), (0x63, [true, true])]

/-- T_abc as a table. -/
def abc : Table := tableOf abcPairs

/-- A decode of F_abc in `RUN` (T40, T41), with a given reader position, accumulator and counts. -/
def running (pos : Fin 9) (acc : BitString) (rem emit : Word32) : State :=
  { State.reset with
    br := ⟨true, 0x15, pos, false⟩, hdr := ⟨true, 9, 9⟩, dec := ⟨.run, acc, rem, emit⟩, tab := abc, src := [0x80] }

/-- The file F_abc. -/
def fileAbc : List Byte :=
  [0x00, 0x00, 0x00, 0x09, 0x00, 0x00, 0x00, 0x09, 0x61, 0x01, 0x00, 0x62, 0x02, 0x80, 0x63, 0x02, 0xC0, 0x15, 0x80]

theorem abc_insert : insertAll abcPairs Table.reset = some abc := by
  cases h : insertAll abcPairs Table.reset with
  | none => exact absurd h (by decide)
  | some t => simp [abc, tableOf, h]

theorem abc_prefixFree : abc.prefixFree :=
  insertAll_prefixFree Table.prefixFree_reset (by decide) abc_insert

/-! ## Well-formedness: each check refuses an ill-formed term (R18, R65) -/

theorem test_codeword_not_empty : BitString.isCodeword [] = false := by decide
theorem test_codeword_not_256_bits : BitString.isCodeword (List.replicate 256 true) = false := by decide +kernel
theorem test_codeword_255_bits : BitString.isCodeword (List.replicate 255 true) = true := by decide +kernel
theorem test_pseudo_too_long : Pseudo.wellFormed (.lutAdd 0x61 (List.replicate 256 true)) = false := by decide +kernel

/-! ## Decoding: R44's words, bit by bit, one per constructor -/

theorem test_decode_bw : decode 0b0001000000000000 = .ok .bwOpen ∧ decode 0b0001000111111111 = .ok (.bwWrite 255) ∧
    decode 0b0001001000000000 = .ok .bwFlush := by decide
theorem test_decode_br : decode 0b0010000000000000 = .ok .brOpen ∧ decode 0b0010000100000000 = .ok .brRead := by
  decide
theorem test_decode_lut : decode 0b0011000000000000 = .ok .lutClr ∧ decode 0b0011000100000001 = .ok (.lutBit 1) ∧
    decode 0b0011001001100001 = .ok (.lutCommit 0x61) ∧ decode 0b0011001100000000 = .ok .lutQry ∧
    decode 0b0011010000000000 = .ok .lutStgClr := by decide
theorem test_decode_dec : decode 0b0100000000000000 = .ok .decHdr ∧ decode 0b0100000100000000 = .ok .decLdTab ∧
    decode 0b0100001000000000 = .ok .decStart ∧ decode 0b0100001100000000 = .ok .decStep ∧
    decode 0b0100010000000000 = .ok .decRun := by decide
theorem test_decode_sys : decode 0b1111000000001011 = .ok (.sysRd 11) ∧
    decode 0b1111111100000000 = .ok .sysReset := by decide
/-- T31: the illegal words, and the two that decode and raise in their own test. -/
theorem test_decode_illegal :
    ([0x0000, 0x1001, 0x1300, 0x3102, 0x31FF, 0x4401, 0x5000, 0xFF01].all fun w => (decodeTableWord 16 w).isNone) =
      true ∧ decodeTableWord 16 0xF00C = some (.sysRd 12) := by decide
/-- No word matches two rows (R44 "The rows are disjoint"). -/
theorem test_rows_disjoint : rows.Pairwise fun a b => a.pattern &&& (a.mask &&& b.mask) ≠
    b.pattern &&& (a.mask &&& b.mask) := by decide
/-- T31: an illegal word changes nothing but `err` = 0x40. -/
theorem test_illegal_word : stepped 0x0000 State.reset =
    some { State.reset with err := 0x40, rsps := [0x6000000000] } := by decide +kernel

/-! ## One step per command -/

/-- T1. -/
theorem test_bwOpen : (stepped 0x1000 State.reset).map (fun t => (t.bw, t.snk, t.rsps)) =
    some (⟨true, 0x00, 0⟩, [], [0x0000000000]) := by decide
/-- T7. -/
theorem test_bwOpen_mode : (stepped 0x1000 (State.resetWith ⟨.bits, false, true⟩)).map
    (fun t => (t.bw.opened, t.err, t.rsps)) = some (false, 0x04, [0x2000000000]) := by decide
/-- R54's example. -/
theorem test_bwWrite_eighth : (stepped 0x1101 { State.reset with bw := ⟨true, 0x14, 7⟩ }).map
    (fun t => (t.bw, t.snk, t.rsps)) = some (⟨true, 0x00, 0⟩, [0x15], [0x0000000000]) := by decide
/-- T4. -/
theorem test_bwWrite_value : (stepped 0x1102 { State.reset with bw := ⟨true, 0xA0, 3⟩ }).map
    (fun t => (t.bw, t.snk, t.err, t.rsps)) = some (⟨true, 0xA0, 3⟩, [], 0x02, [0x1000000000]) := by decide
/-- R55's example. -/
theorem test_bwFlush : (stepped 0x1200 { State.reset with bw := ⟨true, 0xA0, 3⟩ }).map (fun t => (t.bw, t.snk)) =
    some (⟨true, 0x00, 0⟩, [0xA0]) := by decide
/-- T6. -/
theorem test_bwFlush_closed : (stepped 0x1200 State.reset).map (fun t => (t.err, t.rsps)) =
    some (0x40, [0x6000000000]) := by decide
/-- T10. -/
theorem test_brOpen : (stepped 0x2000 { State.reset with src := [0x15, 0x80] }).map (fun t => (t.br, t.src, t.rsps)) =
    some (⟨true, 0x15, 0, false⟩, [0x80], [0x0000000000]) := by decide
/-- T12. -/
theorem test_brOpen_empty : (stepped 0x2000 State.reset).map (fun t => (t.br, t.err, t.rsps)) =
    some (⟨false, 0x00, 0, false⟩, 0x08, [0x3000000000]) := by decide
/-- T15. -/
theorem test_brRead : (stepped 0x2100 { State.reset with br := ⟨true, 0x15, 3, false⟩ }).map
    (fun t => (t.br.pos, t.rsps)) = some (4, [0x0100000001]) := by decide
/-- T11, read 17. -/
theorem test_brRead_eos : (stepped 0x2100 { State.reset with br := ⟨true, 0x80, 8, false⟩ }).map
    (fun t => (t.br, t.err, t.rsps)) = some (⟨true, 0x80, 8, true⟩, 0, [0x0200000000]) := by decide
/-- T22, its end. -/
theorem test_lutClr : (stepped 0x3000 { State.reset with tab := { abc with bad := true, stg := [true] } }).map
    (fun t => (t.tab.count, t.tab.bad, t.tab.stg)) = some (0, false, []) := by decide
/-- T59. -/
theorem test_lutClr_interlock : (stepped 0x3000 (running 0 [] 9 0)).map (fun t => (t.tab.count, t.rsps)) =
    some (3, [0x6000000000]) := by decide
/-- R65's example. -/
theorem test_lutBit : (stepped 0x3100 { State.reset with tab := { Table.reset with stg := [true] } }).map
    (fun t => t.tab.stg) = some [true, false] := by decide
/-- T27. -/
theorem test_lutBit_full : (stepped 0x3100
    { State.reset with tab := { Table.reset with stg := List.replicate 255 true } }).map
    (fun t => (t.tab.stg.length, t.rsps)) = some (255, [0x6000000000]) := by decide +kernel
/-- R66's example. -/
theorem test_lutCommit : (stepped 0x3262 { State.reset with tab := { Table.reset with stg := [true, false] } }).map
    (fun t => (t.tab.entry 0x62, t.tab.stg, t.tab.count)) = some (some [true, false], [], 1) := by decide
/-- T22: "1" is a proper prefix of "10". -/
theorem test_lutCommit_corrupt : (stepped 0x3264 { State.reset with tab := { abc with stg := [true] } }).map
    (fun t => (t.tab.count, t.tab.bad, t.tab.stg, t.err, t.rsps)) = some (3, true, [], 0x20, [0x5000000000]) := by
  decide
/-- T21: "10" and "1". -/
theorem test_lutQry : (stepped 0x3300 { State.reset with tab := { abc with stg := [true, false] } }).map (·.rsps) =
    some [0x0300000062] ∧ (stepped 0x3300 { State.reset with tab := { abc with stg := [true] } }).map (·.rsps) =
    some [0x0400000000] := by decide
/-- T21: "00" is dead; T28: so is the empty string on the empty table. -/
theorem test_lutQry_dead : (stepped 0x3300 { State.reset with tab := { abc with stg := [false, false] } }).map
    (·.rsps) = some [0x0500000000] ∧ (stepped 0x3300 State.reset).map (·.rsps) = some [0x0500000000] := by decide
/-- R68's example. -/
theorem test_lutStgClr : (stepped 0x3400 { State.reset with tab := { abc with stg := [true, false, true] } }).map
    (fun t => (t.tab.stg, t.tab.count)) = some ([], 3) := by decide
/-- T55. -/
theorem test_decHdr : (stepped 0x4000
    { State.reset with src := [0x00, 0x00, 0x01, 0x02, 0x12, 0x34, 0x56, 0x78, 0xAA] }).map
    (fun t => (t.hdr, t.src, statusReg t)) = some (⟨true, 258, 0x12345678⟩, [0xAA], 0x00000010) := by decide
/-- T50. -/
theorem test_decHdr_short : (stepped 0x4000 { State.reset with src := [0x00, 0x00, 0x00, 0x09, 0x00] }).map
    (fun t => (t.hdr, t.src, t.rsps)) = some (⟨false, 0, 0⟩, [], [0x4000000000]) := by decide
/-- R72's example. -/
theorem test_decLdTab : (stepped 0x4100
    { State.reset with hdr := ⟨true, 9, 9⟩, src := fileAbc.drop 8 }).map
    (fun t => ([0x61, 0x62, 0x63].map t.tab.entry, t.tab.count, t.src)) =
    some ([some [false], some [true, false], some [true, true]], 3, [0x15, 0x80]) := by decide
/-- T48, last row: the third block byte is not pulled. -/
theorem test_decLdTab_corrupt : (stepped 0x4100
    { State.reset with hdr := ⟨true, 3, 1⟩, src := [0x61, 0x09, 0x00, 0x00] }).map
    (fun t => (t.tab.count, t.tab.bad, t.src, t.rsps)) = some (0, true, [0x00, 0x00], [0x5000000000]) := by decide
/-- R73's example. -/
theorem test_decStart : (stepped 0x4200
    { State.reset with hdr := ⟨true, 9, 9⟩, tab := abc, br := ⟨true, 0x15, 0, false⟩ }).map
    (fun t => (t.dec, t.rsps)) = some (⟨.run, [], 9, 0⟩, [0x0000000000]) := by decide
/-- T51: `br_open` = 0 is tested before `lut_bad`. -/
theorem test_decStart_order : (stepped 0x4200
    { State.reset with hdr := ⟨true, 9, 9⟩, tab := { abc with bad := true } }).map (fun t => (t.dec.state, t.rsps)) =
    some (.idle, [0x6000000000]) := by decide
/-- R75's example: T41, step 5. -/
theorem test_decStep : (stepped 0x4300 (running 4 [true] 5 3)).map (fun t => (t.dec, t.out, t.br.pos, t.rsps)) =
    some (⟨.run, [], 4, 4⟩, [0x62], 5, [0x0300000062]) := by decide
/-- T45, the third step: a dead end. -/
theorem test_decStep_dead : (stepped 0x4300
    { running 2 [] 2 2 with br := ⟨true, 0x20, 2, false⟩, tab := tableOf [(0x61, [false])] }).map
    (fun t => (t.dec, t.br.pos, t.err, t.rsps)) = some (⟨.fault, [true], 1, 2⟩, 3, 0x10, [0x4000000000]) := by decide
/-- T40. -/
theorem test_decRun : (stepped 0x4400 (running 0 [] 9 0)).map (fun t => ((t.dec, t.br), t.out, t.src, t.rsps)) =
    some ((⟨.done, [], 0, 6⟩, ⟨true, 0x80, 1, false⟩), [0x61, 0x61, 0x61, 0x62, 0x62, 0x63], [], [0x0600000006]) := by
  decide
/-- T43: the count is used up inside a codeword. -/
theorem test_decRun_count : (stepped 0x4400 (running 0 [] 8 0)).map (fun t => ((t.dec, t.br), t.out, t.src, t.rsps)) =
    some ((⟨.fault, [true], 0, 5⟩, ⟨true, 0x15, 8, false⟩), [0x61, 0x61, 0x61, 0x62, 0x62], [0x80],
      [0x4000000000]) := by
  decide
/-- R26's example. -/
theorem test_sysRd : (stepped 0xF000 { State.reset with bw := ⟨true, 0xA0, 3⟩ }).map (·.rsps) =
    some [0x0600000301] := by decide
/-- T70: register 12 does not exist; `CONFIG` under `SYMS`. -/
theorem test_sysRd_config : (stepped 0xF00C State.reset).map (·.rsps) = some [0x6000000000] ∧
    (stepped 0xF00B (State.resetWith ⟨.syms, true, true⟩)).map (·.rsps) = some [0x0600000007] := by decide
/-- T71: the streams stay. -/
theorem test_sysReset : (stepped 0xFF00 { running 8 [true] 1 5 with out := [0x61], err := 0x10 }).map
    (fun t => ((t.dec, t.err, t.tab.count), t.out, t.src, t.rsps)) =
    some ((⟨.idle, [], 0, 0⟩, 0, 0), [0x61], [0x80], [0x0000000000]) := by decide
/-- R94: the reset input does the same and answers nothing. -/
theorem test_resetInput : (match step { running 8 [true] 1 5 with port := [.reset] } with
    | .next t => some (t.dec, t.tab.count, t.src, t.rsps) | _ => none) =
    some (⟨.idle, [], 0, 0⟩, 0, [0x80], []) := by decide
/-- T30, T33. -/
theorem test_assembler : asmWords "lut.bit 0x1 ; one bit".toList = some [0x3101] ∧
    asmWords "LUT.BIT 2".toList = none ∧ asmWords "BW.BITS \"01\"".toList = some [0x1100, 0x1101] ∧
    asmWords "LUT.COMMIT 0xFF".toList = some [0x32FF] ∧ asmWords "BR.BITS 2".toList = some [0x2100, 0x2100] := by
  decide

/-! ## Witnesses: for each statement of Certificates/Slice0/Obligations.lean with hypotheses, states and operands that
meet them, one group per clause -/

/-- The state a step leaves. -/
def afterStep (s : State) : State :=
  match step s with
  | .next t => t
  | .fault r => nomatch r
  | .refused _ => s

theorem step_afterStep (s : State) : step s = .next (afterStep s) := by
  have h : ∃ t, step s = .next t := by
    unfold step
    split
    · exact ⟨_, rfl⟩
    · split
      · exact ⟨_, exec_after _ _⟩
      · exact ⟨_, rfl⟩
    · exact ⟨_, rfl⟩
    · exact ⟨_, rfl⟩
    · exact ⟨_, rfl⟩
  obtain ⟨t, ht⟩ := h
  simp [afterStep, ht]

/-- A state with one item at the port. -/
def withItem (a : HostAct) : State := { State.reset with port := [a] }

/-- A state with given staging register. -/
def staged (t : Table) (c : BitString) : State := { State.reset with tab := { t with stg := c } }

/-- The codeword of a symbol in a list of pairs. -/
def codeIn (pairs : List (Symbol × BitString)) (x : Symbol) : BitString := (pairs.lookup x).getD []

/-- "aaabbc". -/
def message : List Symbol := [0x61, 0x61, 0x61, 0x62, 0x62, 0x63]

theorem running_inv : Inv (running 0 [] 9 0) where
  writerPad := by decide
  readerClosed := by decide
  readerEnded := by decide
  tableFree := abc_prefixFree
  stagedLength := by decide
  accLength := by decide
  running := fun _ => ⟨by decide, rfl, rfl, by decide, .inl rfl⟩
  finished := by decide
  writerStrap := by decide
  readerStrap := fun _ => rfl
  errZero := by decide
  countBits := by decide
  countSyms := by decide

theorem runningSyms_inv : Inv { running 0 [] 6 0 with params := ⟨.syms, true, true⟩, hdr := ⟨true, 9, 6⟩ } :=
  { running_inv with
    running := fun _ => ⟨by decide, rfl, rfl, by decide, .inl rfl⟩
    finished := by decide
    countBits := by decide
    countSyms := by decide }

theorem witness_IllegalWordsRaiseIllegalCommand :
    (withItem (.command 0x0000)).port = .command 0x0000 :: [] ∧ decode 0x0000 = .error .unknownOpcode ∧
    (withItem (.command 0x1001)).port = .command 0x1001 :: [] ∧ decode 0x1001 = .error .operandNotZero ∧
    (withItem (.command 0x3102)).port = .command 0x3102 :: [] ∧ decode 0x3102 = .error .bitOperandTooWide := by decide
theorem witness_LutAddStagesItsBitsAndCommits : (List.replicate 255 true : BitString).length ≤ 255 := by
  decide +kernel
theorem witness_StepExecutesTheDecodedCommand :
    (withItem (.command 0x1000)).port = .command 0x1000 :: [] ∧ decode 0x1000 = .ok .bwOpen ∧
    (withItem (.command 0x0000)).port = .command 0x0000 :: [] ∧ decode 0x0000 = .error .unknownOpcode ∧
    (withItem .reset).port = .reset :: [] ∧ (withItem (.supply [1])).port = .supply [1] :: [] ∧
    (withItem (.deposit [1])).port = .deposit [1] :: [] ∧ State.reset.port = [] := by decide
theorem witness_ErrIsStickyAndFollowsTheResponse : (∀ s, step s = .next (afterStep s)) ∧
    ((afterStep (withItem (.command 0xFF00))).rsps = [] ++ [0x0000000000] ∧ decode 0xFF00 = .ok .sysReset) ∧
    ((afterStep (withItem (.command 0x0000))).rsps = [] ++ [0x6000000000] ∧ decode 0x0000 ≠ .ok .sysReset ∧
      rspCond 0x6000000000 ≠ 0) ∧
    ((afterStep (withItem (.command 0x3400))).rsps = [] ++ [0x0000000000] ∧ decode 0x3400 ≠ .ok .sysReset ∧
      rspCond 0x0000000000 = 0) ∧ (withItem .reset).port = .reset :: [] :=
  ⟨step_afterStep, by decide⟩
theorem witness_CleanErrMeansNoConditionWasRaised : Instr.sysReset ∉ [Instr.decRun, Instr.lutQry] := by decide
theorem witness_RunInterlock : (running 0 [] 9 0).dec.state = .run ∧ Instr.decRun ≠ .sysReset ∧
    exec .decRun (running 0 [] 9 0) = .next (after .decRun (running 0 [] 9 0)) :=
  ⟨by decide, by decide, exec_after _ _⟩
theorem witness_BwOpenConstructsAnEmptyWriter : State.reset.params.snkWr = true ∧
    (State.resetWith ⟨.bits, false, true⟩).params.snkWr = false := by decide
theorem witness_BwWriteSetsTheNextBitAndPushesTheEighth : State.reset.bw.opened = false ∧
    ({ State.reset with bw := ⟨true, 0, 0⟩ } : State).bw.opened = true ∧ (2 : BitVec 8) ≠ 0 ∧ (2 : BitVec 8) ≠ 1 ∧
    ({ State.reset with bw := ⟨true, 0x14, 7⟩ } : State).bw.cnt = 7 := by decide
theorem witness_BwFlushPushesThePartialByte : State.reset.bw.opened = false ∧
    ({ State.reset with bw := ⟨true, 0xA0, 3⟩ } : State).bw.opened = true := by decide
theorem witness_PackingIsMostSignificantBitFirst : (packBits (List.replicate 9 true))[1]? = some 0x80 ∧ 7 < 8 := by
  decide
theorem witness_WriterPacksWhatIsWritten : State.reset.params.snkWr = true := by decide
theorem witness_WriterSharesNothingWithTheDecoder : Instr.decRun ≠ .bwOpen ∧ (∀ v, Instr.decRun ≠ .bwWrite v) ∧
    Instr.decRun ≠ .bwFlush ∧ (∀ r, Instr.decRun ≠ .sysRd r) ∧ Instr.decRun ≠ .sysReset ∧
    exec .decRun (running 0 [] 9 0) = .next (after .decRun (running 0 [] 9 0)) :=
  ⟨by decide, fun v h => (nomatch h), by decide, fun r h => (nomatch h), by decide, exec_after _ _⟩
theorem witness_BrOpenPullsTheFirstByteEagerly : (running 0 [] 9 0).dec.state = .run ∧
    (State.reset.dec.state ≠ .run ∧ (State.resetWith ⟨.bits, true, false⟩).params.srcRd = false ∧
      (State.resetWith ⟨.bits, true, false⟩).dec.state ≠ .run) ∧
    (State.reset.params.srcRd = true ∧ State.reset.src = []) ∧
    ({ State.reset with src := [0x15, 0x80] } : State).src = 0x15 :: [0x80] := by decide
theorem witness_BrReadDeliversTheNextBit : (running 0 [] 9 0).dec.state = .run ∧ State.reset.br.opened = false ∧
    State.reset.dec.state ≠ .run ∧
    (({ State.reset with br := ⟨true, 0x80, 8, true⟩ } : State).br.opened = true ∧
      ({ State.reset with br := ⟨true, 0x80, 8, true⟩ } : State).br.eos = true) ∧
    (({ State.reset with br := ⟨true, 0x80, 8, false⟩ } : State).br.pos.val = 8 ∧
      ({ State.reset with br := ⟨true, 0x80, 8, false⟩ } : State).src = []) ∧
    ({ State.reset with br := ⟨true, 0x80, 8, false⟩, src := [0xFF] } : State).src = 0xFF :: [] ∧
    ({ State.reset with br := ⟨true, 0x15, 7, false⟩ } : State).br.pos.val < 8 := by decide
theorem witness_ReaderDeliversWhatWasPacked : State.reset.dec.state ≠ .run ∧ State.reset.params.srcRd = true ∧
    State.reset.src = packBits [] ∧
    ({ State.reset with src := [0x80] } : State).src = packBits [true] ∧ [true] ≠ ([] : BitString) := by decide
theorem witness_ReaderPullsNoByteEarly : State.reset.dec.state ≠ .run ∧ State.reset.params.srcRd = true ∧
    1 ≤ 1 ∧ 8 ≤ 8 * ({ State.reset with src := [0x15] } : State).src.length := by decide
theorem witness_LutClrEmptiesTheTable : (running 0 [] 9 0).dec.state = .run ∧ State.reset.dec.state ≠ .run := by decide
theorem witness_LutBitAppendsUpTo255Bits :
    (staged Table.reset (List.replicate 255 true)).tab.stg.length = 255 ∧
    (staged Table.reset (List.replicate 254 true)).tab.stg.length < 255 := by decide +kernel
theorem witness_LutCommitEntersOrRefusesThePair : (running 0 [] 9 0).dec.state = .run ∧
    (staged abc []).dec.state ≠ .run ∧ (staged abc []).tab.stg = [] ∧ (staged abc [true]).tab.entry 0x61 ≠ none ∧
    ((staged abc [true]).tab.entry 0x62 = some [true, false] ∧ (staged abc [true]).tab.stg <+: [true, false]) ∧
    ((staged Table.reset [true]).dec.state ≠ .run ∧ (staged Table.reset [true]).tab.stg ≠ [] ∧
      (staged Table.reset [true]).tab.entry 0x61 = none) := by decide
theorem witness_LutCommitEntersOrRefusesThePair_fresh : ∀ a d, (staged Table.reset [true]).tab.entry a = some d →
    ¬ d <+: (staged Table.reset [true]).tab.stg ∧ ¬ (staged Table.reset [true]).tab.stg <+: d := by
  intro a d h
  have : Table.reset.entry a = some d := h
  simp at this
theorem witness_LutQryAnswersCodewordPrefixOrDeadEnd :
    (∃ a, (staged abc [false]).tab.entry a = some (staged abc [false]).tab.stg) ∧
    ((∀ a, (staged abc [true]).tab.entry a ≠ some (staged abc [true]).tab.stg) ∧
      (staged abc [true]).tab.hasProperPrefix (staged abc [true]).tab.stg) ∧
    ((∀ a, (staged abc [false, true]).tab.entry a ≠ some (staged abc [false, true]).tab.stg) ∧
      ¬ (staged abc [false, true]).tab.hasProperPrefix (staged abc [false, true]).tab.stg) :=
  ⟨⟨0x61, by decide⟩, ⟨lutMatch_none_iff.mp (by decide), lutPrefix_iff.mp (by decide)⟩,
    ⟨lutMatch_none_iff.mp (by decide), fun h => absurd (lutPrefix_iff.mpr h) (by decide)⟩⟩
theorem witness_LookupFunctionsOnAPrefixFreeTable : abc.prefixFree := abc_prefixFree
theorem witness_InsertionsPassExactlyForPrefixFreePairs : insertAll abcPairs Table.reset = some abc := abc_insert
theorem witness_InsertionOrderDoesNotMatter : abcPairs.Perm abcPairs.reverse := (List.reverse_perm abcPairs).symm
theorem witness_CommittedCodewordIsSeenAtOnce :
    exec (.lutCommit 0x62) (staged Table.reset [true]) = .next (after (.lutCommit 0x62) (staged Table.reset [true])) ∧
    (after (.lutCommit 0x62) (staged Table.reset [true])).rsps = [] ++ [0x0000000000] :=
  ⟨exec_after _ _, by decide⟩
theorem witness_TableNeverOverflows :
    exec (.lutCommit 0xFF) (staged Table.reset [true]) = .next (after (.lutCommit 0xFF) (staged Table.reset [true])) ∧
    (after (.lutCommit 0xFF) (staged Table.reset [true])).rsps = [] ++ [0x0000000000] :=
  ⟨exec_after _ _, by decide⟩
theorem witness_CodewordsDecodeUniquely : abc.prefixFree ∧
    (∀ a ∈ [0x61, 0x62] ++ [0x61], abc.entry a = some (codeIn abcPairs a)) ∧
    ([0x61, 0x62] : List Symbol).flatMap (codeIn abcPairs) <+: [false, true, false, true] ∧
    ([0x61] : List Symbol).flatMap (codeIn abcPairs) <+: [false, true, false, true] :=
  ⟨abc_prefixFree, by decide⟩
theorem witness_CompleteCodesHaveNoDeadEnd :
    insertAll (CodeTree.node (.leaf 0x61) (.node (.leaf 0x62) (.leaf 0x63))).codes Table.reset = some abc := abc_insert
theorem witness_DecHdrReadsEightBytes : (running 0 [] 9 0).dec.state = .run ∧ State.reset.dec.state ≠ .run ∧
    (State.resetWith ⟨.bits, true, false⟩).params.srcRd = false ∧ State.reset.params.srcRd = true ∧
    ({ State.reset with src := List.replicate 7 0 } : State).src.length < 8 ∧
    ({ State.reset with src := List.replicate 8 0 } : State).src = [0, 0, 0, 0, 0, 0, 0, 0] ++ [] := by decide
theorem witness_WrittenTableBlocksAreTableBlocks : ∀ p ∈ abcPairs, 1 ≤ p.2.length ∧ p.2.length ≤ 255 := by decide
theorem witness_DecLdTabLoadsAWellFormedBlock : (running 0 [] 9 0).dec.state = .run ∧ State.reset.hdr.ok = false ∧
    State.reset.dec.state ≠ .run ∧
    (({ State.reset with hdr := ⟨true, 9, 9⟩, src := fileAbc.drop 8 } : State).src = (fileAbc.drop 8).take 9 ++
      [0x15, 0x80] ∧ ((fileAbc.drop 8).take 9).length = (9 : Word32).toNat) ∧
    (([] : List Byte).length = (0 : Word32).toNat) := by decide
theorem witness_DecLdTabLoadsAWellFormedBlock_block : IsTableBlock ((fileAbc.drop 8).take 9) abcPairs ∧
    insertAll abcPairs State.reset.tab = some abc ∧ IsTableBlock [] [] ∧ insertAll [] abc = some abc :=
  ⟨.cons 0x61 1 [0x00] _ _ (by decide) (by decide) (.cons 0x62 2 [0x80] _ _ (by decide) (by decide)
    (.cons 0x63 2 [0xC0] _ _ (by decide) (by decide) .nil)), abc_insert, .nil, rfl⟩
/-- T48's fourth block: the length byte is 0. -/
theorem witness_DecLdTabRefusesAnIllFormedBlock :
    ({ State.reset with hdr := ⟨true, 2, 1⟩, src := [0x61, 0x00] } : State).dec.state ≠ .run ∧
    ({ State.reset with hdr := ⟨true, 2, 1⟩, src := [0x61, 0x00] } : State).hdr.ok = true ∧
    ¬ ∃ block rest pairs, ({ State.reset with hdr := ⟨true, 2, 1⟩, src := [0x61, 0x00] } : State).src = block ++ rest ∧
      block.length = (2 : Word32).toNat ∧ IsTableBlock block pairs ∧ insertAll pairs State.reset.tab ≠ none := by
  refine ⟨by decide, by decide, ?_⟩
  rintro ⟨block, rest, pairs, hs, hl, hb, -⟩
  cases hb with
  | nil => simp at hl
  | cons sym n code more pairs hn =>
    simp only [List.cons_append, List.cons.injEq] at hs
    exact hn hs.2.1.symm
/-- T48: the cases of a failing entry, at their boundary values. -/
theorem witness_DecLdTabRefusesAnIllFormedBlock_cases (tab : Table) :
    CorruptEntry 1 tab [] [0x61, 0x00] ∧ CorruptEntry 2 tab [0x61] [] ∧ CorruptEntry 2 tab [0x61, 0x00] [0x00] ∧
    CorruptEntry 3 tab [0x61, 0x09] [0x00, 0x00] ∧ CorruptEntry 4 tab [0x61, 0x09, 0x00] [] ∧
    CorruptEntry 3 abc [0x61, 0x01, 0x80] [] :=
  ⟨.short _ rfl, .ended _ (by decide) (by decide), .noLength _ _ (by decide),
    .pastEnd _ _ _ (by decide) (by decide) (by decide), .endedInCode _ _ [0x00] (by decide) (by decide) (by decide),
    .refused 0x61 0x01 [0x80] _ (by decide) (by decide) (by decide) (.inl (by decide))⟩
theorem witness_DecStartBeginsADecode : State.reset.hdr.ok = false ∧
    (let s : State := { State.reset with hdr := ⟨true, 9, 9⟩, tab := { abc with bad := true } }
     s.hdr.ok = true ∧ s.br.opened = false) ∧
    (let s : State := { running 0 [] 9 0 with tab := { abc with bad := true } }
     s.hdr.ok = true ∧ s.br.opened = true ∧ s.tab.bad = true) ∧
    ((running 0 [] 9 0).hdr.ok = true ∧ (running 0 [] 9 0).br.opened = true ∧ (running 0 [] 9 0).tab.bad = false) := by
  decide
theorem witness_DecStepTakesOneBranchOfTheAutomaton : State.reset.dec.state ≠ .run ∧
    (({ running 8 [true] 1 5 with src := [] } : State).dec.state = .run ∧
      ({ running 8 [true] 1 5 with src := [] } : State).bitsAhead = []) ∧
    ((running 4 [true] 5 3).dec.state = .run ∧ (running 4 [true] 5 3).bitsAhead.head? = some false ∧
      lutMatch [true, false] (running 4 [true] 5 3).tab = some 0x62) ∧
    ((running 3 [false] 5 3).bitsAhead.head? = some true ∧ lutMatch [false, true] abc = none ∧
      lutPrefix [false, true] abc = false) ∧
    ((running 7 [] 1 5).bitsAhead.head? = some true ∧ (running 7 [] 1 5).params.framing = .bits ∧
      (running 7 [] 1 5).dec.rem - 1 = 0) ∧
    ((running 3 [] 6 3).bitsAhead.head? = some true ∧ lutMatch [true] abc = none ∧ lutPrefix [true] abc = true ∧
      (running 3 [] 6 3).dec.rem - 1 ≠ 0) := by decide
/-- T41, step 9: the eighth bit pulls nothing, the next one pulls. -/
theorem witness_DecStepTakesOneBranchOfTheAutomaton_bit :
    BitTaken (running 7 [] 2 5) true { running 7 [] 2 5 with br := ⟨true, 0x15, 8, false⟩ } ∧
    BitTaken (running 8 [true] 1 5) true
      { running 8 [true] 1 5 with br := ⟨true, 0x80, 1, false⟩, src := [] } :=
  ⟨.current (s := running 7 [] 2 5) 8 rfl (by decide) rfl, .pulled (s := running 8 [true] 1 5) 0x80 [] rfl rfl rfl⟩
theorem witness_DecRunIsDecStepRepeated : State.reset.dec.state ≠ .run ∧ (running 0 [] 9 0).dec.state = .run := by
  decide
/-- Both framings: 9 bits, or 6 symbols, of the payload of F_abc; 7 pad bits stay. -/
theorem witness_DecRunCompletesOnAWellFormedPayload : Inv (running 0 [] 9 0) ∧
    Inv { running 0 [] 6 0 with params := ⟨.syms, true, true⟩, hdr := ⟨true, 9, 6⟩ } ∧
    (∀ x ∈ message, abc.entry x = some (codeIn abcPairs x)) ∧
    (running 0 [] 9 0).bitsAhead = [false, false, false, true, false, true, false, true, true] ++
      List.replicate 7 false ∧
    [] ++ [false, false, false, true, false, true, false, true, true] = message.flatMap (codeIn abcPairs) ∧
    (9 : Word32).toNat = [false, false, false, true, false, true, false, true, true].length ∧
    (6 : Word32).toNat = message.length ∧ 1 = ((running 0 [] 9 0).br.pos.val + 9 - 1) / 8 :=
  ⟨running_inv, runningSyms_inv, by decide⟩
theorem witness_DoneRunTookExactlyTheDeclaredCount : Inv (running 0 [] 9 0) ∧ (running 0 [] 9 0).dec.state = .run ∧
    exec .decRun (running 0 [] 9 0) = .next (after .decRun (running 0 [] 9 0)) ∧
    (after .decRun (running 0 [] 9 0)).dec.state = .done :=
  ⟨running_inv, by decide, exec_after _ _, by decide⟩
theorem witness_MalformedDecodeStopsInFault :
    exec .decRun (running 0 [] 8 0) = .next (after .decRun (running 0 [] 8 0)) ∧
    (after .decRun (running 0 [] 8 0)).rsps = [] ++ [0x4000000000] ∧
    exec .decStep (running 7 [] 1 5) = .next (after .decStep (running 7 [] 1 5)) ∧
    (after .decStep (running 7 [] 1 5)).rsps = [] ++ [0x4000000000] :=
  ⟨exec_after _ _, by decide, exec_after _ _, by decide⟩
theorem witness_DecStateMovesOnlyAsTheTableSays : (∀ i s, exec i s = .next (after i s)) ∧
    (after .decStart (running 0 [] 9 0)).rsps = [] ++ [0x0000000000] ∧
    (after .decStart State.reset).rsps ≠ [] ++ [0x0000000000] ∧ (running 4 [true] 5 3).dec.state = .run ∧
    State.reset.dec.state ≠ .run ∧ Instr.lutClr ≠ .sysReset ∧ Instr.lutClr ≠ .decStart ∧ Instr.lutClr ≠ .decStep ∧
    Instr.lutClr ≠ .decRun ∧ (withItem .reset).port = .reset :: [] :=
  ⟨exec_after, by decide⟩
/-- F_abc under `BITS`, and with PLEN = 6 under `SYMS` (T40, T42). -/
theorem witness_DecodeInvertsEncode : State.reset.dec.state ≠ .run ∧ State.reset.params.srcRd = true ∧
    (∀ p ∈ abcPairs, BitString.isCodeword p.2 = true) ∧ insertAll abcPairs Table.reset ≠ none ∧ message ≠ [] ∧
    (∀ x ∈ message, (x, codeIn abcPairs x) ∈ abcPairs) ∧
    (payloadLength .bits (codeIn abcPairs) message < 2 ^ 32 ∧ fileAbc = compressedFile
      (payloadLength .bits (codeIn abcPairs) message) abcPairs (packBits (payloadBits (codeIn abcPairs) message))) ∧
    (payloadLength .syms (codeIn abcPairs) message < 2 ^ 32 ∧ fileAbc.set 7 6 = compressedFile
      (payloadLength .syms (codeIn abcPairs) message) abcPairs (packBits (payloadBits (codeIn abcPairs) message))) := by
  decide
/-- F_abc without its last byte (T46), and T44's file without its last byte (T47). -/
theorem witness_TruncatedPayloadIsMalformed :
    (fileAbc.dropLast = compressedFile (payloadLength .bits (codeIn abcPairs) message) abcPairs
      (packBits (payloadBits (codeIn abcPairs) message)).dropLast ∧
      2 ≤ (packBits (payloadBits (codeIn abcPairs) message)).length) ∧
    (let pairs : List (Symbol × BitString) := [(0x61, [false])]
     let xs : List Symbol := [0x61, 0x61, 0x61, 0x61]
     insertAll pairs Table.reset ≠ none ∧ (∀ x ∈ xs, (x, codeIn pairs x) ∈ pairs) ∧
     [0x00, 0x00, 0x00, 0x03, 0x00, 0x00, 0x00, 0x04, 0x61, 0x01, 0x00] =
       compressedFile (payloadLength .bits (codeIn pairs) xs) pairs (packBits (payloadBits (codeIn pairs) xs)).dropLast ∧
     (packBits (payloadBits (codeIn pairs) xs)).length = 1) := by decide
theorem witness_SysRdReturnsTheRegister : 12 ≤ (12 : BitVec 8).toNat ∧ (11 : BitVec 8).toNat < 12 ∧
    (0 : BitVec 8).toNat < 12 := by decide
theorem witness_ResetGivesEveryElementItsResetValue : (withItem .reset).port = .reset :: [] := by decide
theorem witness_RegistersReadZeroAfterReset : (10 : BitVec 8).toNat < 11 ∧ (0 : BitVec 8).toNat < 11 := by decide
theorem witness_StreamsMoveOneWay : (∀ i s, exec i s = .next (after i s)) ∧
    (after .decRun (running 0 [] 9 0)).src ≠ (running 0 [] 9 0).src ∧
    (after .decRun (running 0 [] 9 0)).out ≠ (running 0 [] 9 0).out ∧
    (after .bwFlush { State.reset with bw := ⟨true, 0xA0, 3⟩ }).snk ≠ [] :=
  ⟨exec_after, by decide⟩
theorem witness_CommandsMoveBoundedlyManyBytes : (∀ i s, exec i s = .next (after i s)) ∧
    (after .brOpen { State.reset with src := [0x15] }).rsps = [] ++ [0x0000000000] ∧ Instr.bwFlush ≠ .decRun :=
  ⟨exec_after, by decide⟩
theorem witness_EveryStepKeepsTheInvariants : Inv (running 0 [] 9 0) ∧
    step (running 0 [] 9 0) = .next (afterStep (running 0 [] 9 0)) := ⟨running_inv, step_afterStep _⟩

/-- F_abc in the source, and the five commands that lead into `RUN` at the port (T40). -/
def session : State :=
  { State.reset with
    src := fileAbc,
    port := [.command 0x3000, .command 0x4000, .command 0x4100, .command 0x2000, .command 0x4200] }

theorem running_countInv : CountInv 9 (running 0 [] 9 0) :=
  ⟨running_inv, fun _ => ⟨by decide, by decide⟩, fun _ => rfl⟩

/-- `DEC.START` at the port of a running decode, and nothing at it. -/
theorem witness_EveryStepKeepsTheCountLaw : CountInv 9 (running 0 [] 9 0) ∧
    step (running 0 [] 9 0) = .next (afterStep (running 0 [] 9 0)) ∧ ¬ (running 0 [] 9 0).startsDecode ∧
    CountInv 9 { running 0 [] 9 0 with port := [.command 0x4200] } ∧
    State.startsDecode { running 0 [] 9 0 with port := [.command 0x4200] } ∧
    CountLawOutsideIdle (running 0 [] 9 0) ∧ (running 0 [] 9 0).port = [] :=
  ⟨running_countInv, step_afterStep _, fun ⟨⟨_, _, h, _⟩, _⟩ => (nomatch h),
    ⟨{ running_inv with }, running_countInv.counts, running_countInv.taken⟩,
    ⟨⟨0x4200, [], rfl, by decide⟩, rfl, rfl, by decide⟩, running_countInv.counts, rfl⟩

/-- The one step that does not keep item 9 as worded: R71 in `DONE` (the end of T40), admitted by R78, moving nothing by
R70. The declared count was 9; the new header says 5. -/
theorem witness_EveryStepKeepsTheCountLaw_header :
    (stepped 0x4000 { running 1 [] 0 6 with
      dec := ⟨.done, [], 0, 6⟩, src := [0x00, 0x00, 0x00, 0x00, 0x00, 0x00, 0x00, 0x05] }).map
    (fun t => (t.dec, t.hdr.plen, t.rsps)) = some (⟨.done, [], 0, 6⟩, 5, [0x0000000000]) := by decide

theorem not_startsDecode {s : State} (h : s.br.opened = false) : ¬ s.startsDecode := fun hs => by
  simp [hs.2.2.1] at h

/-- The session up to `DEC.START`, with the count 9 that it took. -/
theorem witness_CountLawHoldsOfTheCountTaken :
    ReachableWith 9 (afterStep (afterStep (afterStep (afterStep (afterStep session))))) ∧
    (afterStep (afterStep (afterStep (afterStep (afterStep session))))).dec.state = .run := by
  refine ⟨?_, by decide +kernel⟩
  have h0 : ReachableWith 0 session := .start _ (by rfl)
  have h1 := ReachableWith.other _ _ _ h0 (not_startsDecode (by decide)) (step_afterStep _)
  have h2 := ReachableWith.other _ _ _ h1 (not_startsDecode (by decide +kernel)) (step_afterStep _)
  have h3 := ReachableWith.other _ _ _ h2 (not_startsDecode (by decide +kernel)) (step_afterStep _)
  have h4 := ReachableWith.other _ _ _ h3 (not_startsDecode (by decide +kernel)) (step_afterStep _)
  have hp : (afterStep (afterStep (afterStep (afterStep session)))).hdr.plen = 9 := by decide +kernel
  rw [← hp]
  exact .decode _ _ _ h4 ⟨⟨0x4200, [], by decide +kernel, by decide⟩, by decide +kernel, by decide +kernel,
    by decide +kernel⟩ (step_afterStep _)

/-- Also the premise of `CountLawHoldsOutsideIdle`. -/
theorem witness_ReachableStatesMeetTheInvariants :
    Reachable (afterStep (afterStep (afterStep (afterStep (afterStep session))))) ∧
    (afterStep (afterStep (afterStep (afterStep (afterStep session))))).dec.state = .run ∧
    (afterStep (afterStep (afterStep (afterStep (afterStep session))))).tab.entry 0x61 = some [false] :=
  ⟨.next _ _ (.next _ _ (.next _ _ (.next _ _ (.next _ _ (.start _ (by rfl)) (step_afterStep _)) (step_afterStep _))
    (step_afterStep _)) (step_afterStep _)) (step_afterStep _), by decide +kernel⟩

end Sys2Proof.Tests
end

/-! Proofs of the statements of spec/00_scope.md: what each item at the port makes a step do, and that every command is
answered exactly once. The second rests on `exec_ends`, that every command completes or raises once. -/

namespace Sys2Proof.Machine

variable {s : State} {rest : List HostAct}

/-! The equations of `step`, one per kind of item at the port (R6, R43, R47, R94). -/

theorem step_idle (h : s.port = []) : step s = .next s := by
  simp [step, h]

theorem step_command {cw : CmdWord} {i : Instr} (h : s.port = .command cw :: rest) (hd : decode cw = .ok i) :
    step s = exec i (s.withPort rest) := by
  simp [step, h, hd]

theorem step_illegalWord {cw : CmdWord} {r : DecodeReject} (h : s.port = .command cw :: rest)
    (hd : decode cw = .error r) : step s = .next ((s.withPort rest).raise .illegalCommand) := by
  simp [step, h, hd, illegalWord]

theorem step_reset (h : s.port = .reset :: rest) : step s = .next (s.withPort rest).resetBlock := by
  simp [step, h]

theorem step_supply {bytes : List Byte} (h : s.port = .supply bytes :: rest) :
    step s = .next (hostSupply bytes (s.withPort rest)) := by
  simp [step, h]

theorem step_deposit {bytes : List Byte} (h : s.port = .deposit bytes :: rest) :
    step s = .next (hostDeposit bytes (s.withPort rest)) := by
  simp [step, h]

/-! The condition field of a response (R45, R82). -/

@[simp] theorem rspCond_rspWord (cond tag : BitVec 4) (data : Word32) : rspCond (rspWord cond tag data) = cond := by
  rw [rspCond, rspWord, BitVec.append_assoc]
  exact BitVec.extractLsb'_append_eq_left

@[simp] theorem rspCond_replyWord (r : Reply) : rspCond r.word = 0 := rspCond_rspWord 0 r.tag r.data

@[simp] theorem rspCond_conditionWord (c : Condition) : rspCond c.word = c.code := rspCond_rspWord c.code 0 0

theorem Condition.code_le_six (c : Condition) : c.code.toNat ≤ 6 := by
  cases c <;> decide

/-! One response per command. -/

/-- R7: a command that ends has answered one response word with a code of R82, and kept the parameters and the port. -/
theorem Ends.answersOnce {res : Result} (h : Ends s res) :
    ∃ t w, res = .next t ∧ t.rsps = s.rsps ++ [w] ∧ (rspCond w).toNat ≤ 6 ∧
      t.params = s.params ∧ t.port = s.port := by
  cases h with
  | completes t r hparams hport hrsps _ => exact ⟨_, r.word, rfl, by simp [hrsps], by simp, hparams, hport⟩
  | raises t c hparams hport hrsps _ =>
    exact ⟨_, c.word, rfl, by simp [hrsps], by simpa using c.code_le_six, hparams, hport⟩

/-- A command word, legal or not, ends as a command does (R47, R50). -/
theorem step_command_ends {cw : CmdWord} (h : s.port = .command cw :: rest) : Ends (s.withPort rest) (step s) := by
  cases hd : decode cw with
  | ok i =>
    rw [step_command h hd]
    exact exec_ends i _
  | error r =>
    rw [step_illegalWord h hd]
    exact .raised_self _ _

/-- Settles O7: one equation of `step` per item at the port. -/
theorem stepExecutesTheDecodedCommand : Obligations.StepExecutesTheDecodedCommand := fun _ _ =>
  ⟨fun _ _ => step_command, fun _ _ => step_illegalWord, step_reset, fun _ => step_supply, fun _ => step_deposit,
    step_idle⟩

/-- Settles O8: commands by `exec_ends`, steps by the item at the port; only a command word is answered. -/
theorem everyCommandIsAnsweredOnce : Obligations.EveryCommandIsAnsweredOnce := by
  refine ⟨fun i s => (exec_ends i s).answersOnce, fun s => ?_⟩
  rcases h : s.port with _ | ⟨cw | _ | bytes | bytes, rest⟩
  case nil => exact ⟨s, step_idle h, rfl, h, .inr ⟨by simp, rfl⟩⟩
  case cons.command =>
    obtain ⟨t, w, hstep, hrsps, -, hparams, hport⟩ := (step_command_ends h).answersOnce
    exact ⟨t, hstep, hparams, hport, .inl ⟨cw, rest, w, rfl, hrsps⟩⟩
  case cons.reset => exact ⟨_, step_reset h, rfl, rfl, .inr ⟨by simp, rfl⟩⟩
  case cons.supply => exact ⟨_, step_supply h, rfl, rfl, .inr ⟨by simp, rfl⟩⟩
  case cons.deposit => exact ⟨_, step_deposit h, rfl, rfl, .inr ⟨by simp, rfl⟩⟩

end Sys2Proof.Machine

/-! Proofs of the statements of spec/10_state.md: the registers after reset, `err`, and the invariants of R22. Each
command gets one rule that says in which state it ends; what all commands keep is proved from these 17 rules. -/

namespace Sys2Proof.Machine

variable {P Q : State → Prop} {s t u : State}

/-! ## The end of a command (R7) -/

/-- A command's answer: it completes or raises, once, over a state that meets P. -/
inductive EndsIn (P : State → Prop) : Result → Prop where
  | completes (u : State) (y : Reply) : P u → EndsIn P (.next (u.complete y))
  | raises (u : State) (c : Condition) : P u → EndsIn P (.next (u.raise c))

theorem EndsIn.raised (c : Condition) (h : P s) : EndsIn P (raised c s) := .raises s c h

theorem EndsIn.completed (y : Reply) (h : P s) : EndsIn P (completed y s) := .completes s y h

theorem EndsIn.imp {r : Result} (h : EndsIn P r) (hpq : ∀ u, P u → Q u) : EndsIn Q r := by
  cases h with
  | completes u y hu => exact .completes u y (hpq u hu)
  | raises u c hu => exact .raises u c (hpq u hu)

/-- A command behind the interlock (R78): refused in `RUN`, its own rule elsewhere. -/
theorem EndsIn.interlocked {rule : State → Result} (hs : P s) (h : s.dec.state ≠ .run → EndsIn P (rule s)) :
    EndsIn P (interlocked rule s) := by
  by_cases hr : s.dec.state = .run
  · rw [interlocked_run hr]
    exact .raised _ hs
  · rw [interlocked_free hr]
    exact h hr

/-! ## One rule per command: P holds where it ends, if P holds where it refuses and where its effect leads -/

theorem execBwOpen_endsIn (hs : P s) (h : s.params.snkWr = true → P { s with bw := ⟨true, 0, 0⟩ }) :
    EndsIn P (execBwOpen s) := by
  unfold execBwOpen
  split
  · exact .raised _ hs
  · rename_i hw
    exact .completed _ (h (by simpa using hw))

theorem execBwWrite_endsIn {v : BitVec 8} (hs : P s) (h : s.bw.opened = true → ∀ b, P (bitWrite b s)) :
    EndsIn P (execBwWrite v s) := by
  unfold execBwWrite
  split
  · exact .raised _ hs
  · split
    · exact .raised _ hs
    · rename_i ho _
      exact .completed _ (h (by simpa using ho) _)

theorem execBwFlush_endsIn (hs : P s)
    (h : s.bw.opened = true → ∀ snk, P { s with bw := { s.bw with buf := 0, cnt := 0 }, snk := snk }) :
    EndsIn P (execBwFlush s) := by
  unfold execBwFlush
  split
  · exact .raised _ hs
  · rename_i ho
    have ho : s.bw.opened = true := by simpa using ho
    split
    · exact .completed _ (h ho s.snk)
    · exact .completed _ (h ho (s.snk ++ [s.bw.buf]))

theorem execBrOpen_endsIn (hs : P s)
    (h : s.dec.state ≠ .run → s.params.srcRd = true → ∀ x rest, s.src = x :: rest →
      P { s with br := ⟨true, x, 0, false⟩, src := rest }) :
    EndsIn P (execBrOpen s) := by
  refine .interlocked hs fun hr => ?_
  split
  · exact .raised _ hs
  · rename_i hm
    rcases srcPull_cases s with ⟨-, hp⟩ | ⟨x, rest, hx, hp⟩ <;> rw [hp]
    · exact .raised _ hs
    · exact .completed _ (h hr (by simpa using hm) x rest hx)

theorem execBrRead_endsIn (hs : P s)
    (h : s.dec.state ≠ .run → s.br.opened = true → P (bitRead s).2) : EndsIn P (execBrRead s) := by
  refine .interlocked hs fun hr => ?_
  split
  · exact .raised _ hs
  · rename_i ho
    have h := h hr (by simpa using ho)
    rcases hb : bitRead s with ⟨_ | b, s1⟩ <;> rw [hb] at h <;> exact .completed _ h

theorem execLutClr_endsIn (hs : P s) (h : s.dec.state ≠ .run → P { s with tab := Table.reset }) :
    EndsIn P (execLutClr s) :=
  .interlocked hs fun hr => .completed _ (h hr)

theorem execLutBit_endsIn {b : BitVec 1} (hs : P s)
    (h : s.tab.stg.length ≠ maxLen → P { s with tab := { s.tab with stg := s.tab.stg ++ [bitOperand b] } }) :
    EndsIn P (execLutBit b s) := by
  unfold execLutBit
  split
  · exact .raised _ hs
  · rename_i hl
    exact .completed _ (h hl)

theorem execLutCommit_endsIn {sym : Symbol} (hs : P s)
    (hbad : s.dec.state ≠ .run → P { s with tab := { s.tab with bad := true, stg := [] } })
    (hpair : s.dec.state ≠ .run → ∀ t, lutInsert sym s.tab.stg { s.tab with stg := [] } = some t →
      P { s with tab := t }) :
    EndsIn P (execLutCommit sym s) := by
  refine .interlocked hs fun hr => ?_
  rcases hi : lutInsert sym s.tab.stg { s.tab with stg := [] } with _ | t
  · simp only [hi]
    exact .raised _ (hbad hr)
  · simp only [hi]
    exact .completed _ (hpair hr t hi)

theorem execLutQry_endsIn (hs : P s) : EndsIn P (execLutQry s) := by
  unfold execLutQry
  split
  · exact .completed _ hs
  · split <;> exact .completed _ hs

theorem execLutStgClr_endsIn (h : P { s with tab := { s.tab with stg := [] } }) : EndsIn P (execLutStgClr s) :=
  .completed _ h

theorem execDecHdr_endsIn (hs : P s)
    (h : s.dec.state ≠ .run → s.params.srcRd = true → ∀ hdr src, P { s with hdr := hdr, src := src }) :
    EndsIn P (execDecHdr s) := by
  refine .interlocked hs fun hr => ?_
  split
  · exact .raised _ hs
  · rename_i hm
    have h := h hr (by simpa using hm)
    rw [srcPullN_eq]
    split
    · rename_i hp
      split at hp <;> simp only [Prod.mk.injEq] at hp <;> rw [← hp.2] <;> exact .completed _ (h _ _)
    · rename_i hp
      split at hp <;> simp only [Prod.mk.injEq] at hp <;> rw [← hp.2] <;> exact .raised _ (h _ _)

theorem execDecLdTab_endsIn (hs : P s)
    (h : s.dec.state ≠ .run → P (ldTabLoop s.src.length s.hdr.l.toNat s).2) : EndsIn P (execDecLdTab s) := by
  refine .interlocked hs fun hr => ?_
  split
  · exact .raised _ hs
  · have h := h hr
    rcases hl : ldTabLoop s.src.length s.hdr.l.toNat s with ⟨_ | _, s1⟩ <;> rw [hl] at h
    · exact .completed _ h
    · exact .raised _ h

/-- `DEC.START` does not refuse (R73). -/
def State.canStart (s : State) : Prop := s.hdr.ok = true ∧ s.br.opened = true ∧ s.tab.bad = false

/-- The automaton that a completing `DEC.START` sets up (R73). -/
def Automaton.started (plen : Word32) : Automaton := ⟨if plen = 0 then .done else .run, [], plen, 0⟩

theorem execDecStart_of_canStart (h : s.canStart) :
    execDecStart s = .next (State.complete .none { s with dec := .started s.hdr.plen }) := by
  obtain ⟨hok, hopen, hbad⟩ := h
  simp [execDecStart, hok, hopen, hbad, Automaton.started]

theorem execDecStart_endsIn (hs : P s) (h : s.canStart → P { s with dec := .started s.hdr.plen }) :
    EndsIn P (execDecStart s) := by
  by_cases hc : s.canStart
  · rw [execDecStart_of_canStart hc]
    exact .completes _ _ (h hc)
  · unfold execDecStart
    split
    · exact .raised _ hs
    · split
      · exact .raised _ hs
      · rename_i ho hb
        exact absurd (by simpa [State.canStart, and_assoc] using And.intro ho hb) hc

theorem execDecStep_endsIn (hs : P s) (h : s.dec.state = .run → P (decStep s).2) : EndsIn P (execDecStep s) := by
  unfold execDecStep
  split
  · exact .raised _ hs
  · rename_i hr
    have h := h (by simpa using hr)
    rcases hd : decStep s with ⟨_ | _ | _, s1⟩ <;> rw [hd] at h
    · exact .completed _ h
    · exact .completed _ h
    · exact .raised _ h

theorem execDecRun_endsIn (hs : P s) (h : s.dec.state = .run → P (decLoop (bitsLeft s + 1) s).2) :
    EndsIn P (execDecRun s) := by
  unfold execDecRun
  split
  · exact .raised _ hs
  · rename_i hr
    have h := h (by simpa using hr)
    rcases hd : decLoop (bitsLeft s + 1) s with ⟨_ | _, s1⟩ <;> rw [hd] at h
    · exact .completed _ h
    · exact .raised _ h

theorem execSysRd_endsIn {r : BitVec 8} (hs : P s) : EndsIn P (execSysRd r s) := by
  unfold execSysRd
  split
  · exact .completed _ hs
  · exact .raised _ hs

theorem execSysReset_endsIn (h : P s.resetBlock) : EndsIn P (execSysReset s) := .completed _ h

/-! ## What a command does to `err`, the header and the automaton -/

/-- The automaton and the header that a command leaves (R70, R71, R73, R78): the five things that can happen to
them. `DEC.STEP` is one round of the loop of `DEC.RUN`. -/
inductive DecoderMove (s : State) : Instr → Automaton → Header → Prop where
  | untouched (i : Instr) : DecoderMove s i s.dec s.hdr
  | header (hdr : Header) : s.dec.state ≠ .run → DecoderMove s .decHdr s.dec hdr
  | started : s.canStart → DecoderMove s .decStart (.started s.hdr.plen) s.hdr
  | stepped (i : Instr) (n : Nat) : s.dec.state = .run → DecoderMove s i (decLoop n s).2.dec s.hdr
  | reset : DecoderMove s .sysReset .reset .reset

/-- What a command leaves before it is answered: the parameters, `err` but for `SYS.RESET`, and one decoder move. -/
structure Effect (s : State) (i : Instr) (u : State) : Prop where
  params : u.params = s.params
  err : i ≠ .sysReset → u.err = s.err
  move : DecoderMove s i u.dec u.hdr

theorem Effect.refl (s : State) (i : Instr) : Effect s i s := ⟨rfl, fun _ => rfl, .untouched i⟩

theorem Effect.stepped {i : Instr} (hr : s.dec.state = .run) (n : Nat) : Effect s i (decLoop n s).2 := by
  have hmove := DecoderMove.stepped i n hr
  rw [decLoop_frame n s] at hmove ⊢
  exact ⟨rfl, fun _ => rfl, hmove⟩

/-- One round of the loop is one step. -/
theorem decLoop_one (hr : s.dec.state = .run) : (decLoop 1 s).2 = (decStep s).2 := by
  rw [decLoop_succ, if_pos hr]
  split <;> rfl

theorem exec_effect (i : Instr) (s : State) : EndsIn (Effect s i) (exec i s) := by
  have hs := Effect.refl s i
  cases i with
  | bwOpen => exact execBwOpen_endsIn hs fun _ => ⟨rfl, fun _ => rfl, .untouched _⟩
  | bwWrite v =>
    refine execBwWrite_endsIn hs fun _ b => ?_
    rw [bitWrite_frame]
    exact ⟨rfl, fun _ => rfl, .untouched _⟩
  | bwFlush => exact execBwFlush_endsIn hs fun _ _ => ⟨rfl, fun _ => rfl, .untouched _⟩
  | brOpen => exact execBrOpen_endsIn hs fun _ _ _ _ _ => ⟨rfl, fun _ => rfl, .untouched _⟩
  | brRead =>
    refine execBrRead_endsIn hs fun _ _ => ?_
    rw [bitRead_frame]
    exact ⟨rfl, fun _ => rfl, .untouched _⟩
  | lutClr => exact execLutClr_endsIn hs fun _ => ⟨rfl, fun _ => rfl, .untouched _⟩
  | lutBit b => exact execLutBit_endsIn hs fun _ => ⟨rfl, fun _ => rfl, .untouched _⟩
  | lutCommit sym =>
    exact execLutCommit_endsIn hs (fun _ => ⟨rfl, fun _ => rfl, .untouched _⟩)
      fun _ _ _ => ⟨rfl, fun _ => rfl, .untouched _⟩
  | lutQry => exact execLutQry_endsIn hs
  | lutStgClr => exact execLutStgClr_endsIn ⟨rfl, fun _ => rfl, .untouched _⟩
  | decHdr => exact execDecHdr_endsIn hs fun hr _ _ _ => ⟨rfl, fun _ => rfl, .header _ hr⟩
  | decLdTab =>
    refine execDecLdTab_endsIn hs fun _ => ?_
    rw [ldTabLoop_frame]
    exact ⟨rfl, fun _ => rfl, .untouched _⟩
  | decStart => exact execDecStart_endsIn hs fun hc => ⟨rfl, fun _ => rfl, .started hc⟩
  | decStep =>
    refine execDecStep_endsIn hs fun hr => ?_
    rw [← decLoop_one hr]
    exact .stepped hr 1
  | decRun => exact execDecRun_endsIn hs fun hr => .stepped hr _
  | sysRd r => exact execSysRd_endsIn hs
  | sysReset => exact execSysReset_endsIn ⟨rfl, fun h => absurd rfl h, .reset⟩

/-! ## `err` (R20) -/

/-- A command word, legal or not, leaves `err` as its response says. -/
theorem EndsIn.err_eq {w : RspWord} (h : EndsIn (fun u => u.err = s.err) (.next t)) (hw : t.rsps = s.rsps ++ [w]) :
    (rspCond w = 0 → t.err = s.err) ∧ (rspCond w ≠ 0 → t.err = s.err ||| (1#7 <<< (rspCond w).toNat)) := by
  cases h with
  | completes u y hu =>
    obtain ⟨-, rfl⟩ := List.append_singleton_inj.mp hw
    exact ⟨fun _ => hu, fun hc => absurd (rspCond_replyWord y) hc⟩
  | raises u c hu =>
    obtain ⟨-, rfl⟩ := List.append_singleton_inj.mp hw
    rw [rspCond_conditionWord]
    exact ⟨fun hc => absurd hc (by cases c <;> decide), fun _ => by rw [State.raise_err, stickyErr, hu]⟩

/-- A command word that is not `SYS.RESET` (R47, R50). -/
theorem step_command_err {cw : CmdWord} {rest : List HostAct} (h : s.port = .command cw :: rest)
    (hd : decode cw ≠ .ok .sysReset) : EndsIn (fun u => u.err = s.err) (step s) := by
  cases hc : decode cw with
  | ok i =>
    rw [step_command h hc]
    exact (exec_effect i _).imp fun u hu => hu.err fun hi => hd (hi ▸ hc)
  | error r =>
    rw [step_illegalWord h hc]
    exact .raised _ rfl

/-- Settles O10: no command touches `err` before it is answered but `SYS.RESET`, and a raise sets its own bit. -/
theorem errIsStickyAndFollowsTheResponse : Obligations.ErrIsStickyAndFollowsTheResponse := by
  intro s t rest hstep
  refine ⟨fun cw w hport hrsps => ⟨fun hd => ?_, fun hd => ?_⟩, fun hport => ?_⟩
  · rw [step_command hport hd] at hstep
    cases hstep
    rfl
  · have hends := step_command_err hport hd
    rw [hstep] at hends
    obtain ⟨hzero, hset⟩ := hends.err_eq hrsps
    refine ⟨?_, hzero, hset⟩
    by_cases hc : rspCond w = 0
    · rw [hzero hc]
    · have hn : (rspCond w).toNat ≠ 0 := fun h0 => hc (BitVec.eq_of_toNat_eq h0)
      simp [hset hc, Nat.pos_of_ne_zero hn]
  · rw [step_reset hport] at hstep
    cases hstep
    rfl

/-! ## The invariants after one update of the state (R22) -/

theorem Inv.raise (h : Inv s) (c : Condition) : Inv (s.raise c) :=
  { h with errZero := by have := h.errZero; cases c <;> simpa [stickyErr, Condition.code] }

theorem Inv.complete (h : Inv s) (y : Reply) : Inv (s.complete y) := { h with }

theorem EndsIn.inv (h : EndsIn Inv (.next t)) : Inv t := by
  cases h with
  | completes u y hu => exact hu.complete y
  | raises u c hu => exact hu.raise c

theorem State.resetBlock_inv (s : State) : Inv s.resetBlock where
  writerPad := by simp [Writer.reset, byteBit]
  readerClosed := fun _ => rfl
  readerEnded := by simp [Reader.reset]
  tableFree := Table.prefixFree_reset
  stagedLength := by simp
  accLength := by simp [Automaton.reset]
  running := by simp [Automaton.reset]
  finished := by simp [Automaton.reset]
  writerStrap := by simp [Writer.reset]
  readerStrap := by simp [Reader.reset, Header.reset]
  errZero := by simp
  countBits := by simp [Automaton.reset]
  countSyms := by simp [Automaton.reset]

theorem Inv.setWriter (h : Inv s) (w : Writer) (snk : List Byte)
    (hpad : ∀ i, i < 8 - w.cnt.toNat → byteBit w.buf i = false) (hstrap : s.params.snkWr = true) :
    Inv { s with bw := w, snk := snk } :=
  { h with writerPad := hpad, writerStrap := fun _ => hstrap }

/-- A writer with an empty buffer. -/
theorem Inv.emptyWriter (h : Inv s) (opened : Bool) (snk : List Byte) (hstrap : s.params.snkWr = true) :
    Inv { s with bw := ⟨opened, 0, 0⟩, snk := snk } :=
  h.setWriter _ snk (fun i _ => by simp [byteBit]) hstrap

/-- The reader is free to change while it stays constructed and ends with its byte exhausted. -/
theorem Inv.setReader (h : Inv s) (r : Reader) (src : List Byte) (hopen : r.opened = true)
    (hended : r.eos = true → r.pos.val = 8) (hstrap : s.params.srcRd = true) :
    Inv { s with br := r, src := src } :=
  { h with
    readerClosed := fun hc => by simp [hopen] at hc
    readerEnded := hended
    running := fun hr => by
      obtain ⟨hrem, -, hrest⟩ := h.running hr
      exact ⟨hrem, hopen, hrest⟩
    readerStrap := fun _ => hstrap }

/-- The staging register is free to change in every automaton state (R65, R68). -/
theorem Inv.setStaged (h : Inv s) (c : BitString) (hc : c.length ≤ maxLen) :
    Inv { s with tab := { s.tab with stg := c } } :=
  { h with stagedLength := hc }

/-- Outside `RUN` the table is free to change. -/
theorem Inv.setTable (h : Inv s) (hr : s.dec.state ≠ .run) (tab : Table) (src : List Byte) (hf : tab.prefixFree)
    (hc : tab.stg.length ≤ maxLen) : Inv { s with tab := tab, src := src } :=
  { h with tableFree := hf, stagedLength := hc, running := fun h' => absurd h' hr }

/-- Outside `RUN` the header is free to change. -/
theorem Inv.setHeader (h : Inv s) (hr : s.dec.state ≠ .run) (hdr : Header) (src : List Byte)
    (hstrap : s.params.srcRd = true) : Inv { s with hdr := hdr, src := src } :=
  { h with
    running := fun h' => absurd h' hr
    readerStrap := fun _ => hstrap
    countBits := fun h' => absurd h' hr
    countSyms := fun h' => absurd h' hr }

/-! ## The bit writer and the bit reader keep the invariants -/

theorem byteBit_setByteBit_ne {v : Byte} {i j : Nat} (b : Bool) (h : i ≠ j) :
    byteBit (setByteBit v j b) i = byteBit v i := by
  have hone : (1#8 <<< j).getLsbD i = false := by
    rw [BitVec.getLsbD_shiftLeft, BitVec.getLsbD_one]
    by_cases hlt : i < j
    · simp [hlt]
    · have : i - j ≠ 0 := by omega
      simp [this]
  unfold byteBit setByteBit
  cases b
  · simp only [Bool.false_eq_true, if_false, BitVec.getLsbD_and, BitVec.getLsbD_not, hone]
    simpa using BitVec.lt_of_getLsbD
  · simp [hone]

theorem bitWrite_inv (h : Inv s) (ho : s.bw.opened = true) (b : Bool) : Inv (bitWrite b s) := by
  have hstrap := h.writerStrap ho
  unfold bitWrite
  split
  · exact h.emptyWriter _ _ hstrap
  · rename_i hcnt
    refine h.setWriter _ s.snk (fun i hi => ?_) hstrap
    have hlt : i < 7 - s.bw.cnt.toNat := by bv_omega
    rw [byteBit_setByteBit_ne b (by omega)]
    exact h.writerPad i (by omega)

theorem bitRead_inv (h : Inv s) (ho : s.br.opened = true) : Inv (bitRead s).2 := by
  have hstrap := h.readerStrap (.inl ho)
  rcases bitRead_cases s with ⟨-, hb⟩ | ⟨-, hpos, -, hb⟩ | ⟨x, rest, he, -, -, hb⟩ | ⟨hpos, he, hb⟩ <;> rw [hb]
  · exact h
  · exact h.setReader _ s.src ho (fun _ => hpos) hstrap
  · exact h.setReader _ rest ho (fun he' => by simp [he] at he') hstrap
  · exact h.setReader _ s.src ho (fun he' => by simp [he] at he') hstrap

/-! ## The count law (R22 item 9) and one step of the automaton -/

variable {p : Word32}

theorem State.countsUpTo_congr (hp : u.params = s.params) (hd : u.dec = s.dec) (h : s.countsUpTo p) :
    u.countsUpTo p := by
  unfold State.countsUpTo
  rwa [hp, hd]

theorem State.countsUpTo.le (h : s.countsUpTo p) : s.dec.emit.toNat + s.dec.rem.toNat ≤ p.toNat := by
  cases hf : s.params.framing with
  | bits => exact h.1 hf
  | syms => exact (h.2 hf).le

theorem Inv.countsUpTo (h : Inv s) (hr : s.dec.state = .run) : s.countsUpTo s.hdr.plen :=
  ⟨h.countBits hr, h.countSyms hr⟩

theorem toNat_sub_one {v : Word32} (h : v ≠ 0) : (v - 1).toNat = v.toNat - 1 := by
  bv_omega

@[simp] theorem decAccept_rem (b : Bool) (s : State) :
    (decAccept b s).dec.rem = if s.params.framing = .bits then s.dec.rem - 1 else s.dec.rem := rfl

@[simp] theorem decEmit_rem (x : Symbol) (s : State) :
    (decEmit x s).dec.rem = if s.params.framing = .syms then s.dec.rem - 1 else s.dec.rem := rfl

@[simp] theorem decEmit_state (x : Symbol) (s : State) :
    (decEmit x s).dec.state = if (decEmit x s).dec.rem = 0 then .done else s.dec.state := rfl

/-- The count after a bit taken (R74): under `BITS` it is lowered. -/
theorem decAccept_rem_bits (b : Bool) (hf : s.params.framing = .bits) : (decAccept b s).dec.rem = s.dec.rem - 1 :=
  if_pos hf

theorem decAccept_rem_syms (b : Bool) (hf : s.params.framing = .syms) : (decAccept b s).dec.rem = s.dec.rem := by
  simp [hf]

/-- The count after a symbol emitted with its last bit, the same under both framings (R74). -/
theorem decAccept_decEmit_rem (b : Bool) (x : Symbol) (s : State) :
    (decEmit x (decAccept b s)).dec.rem = s.dec.rem - 1 := by
  cases hf : s.params.framing <;> simp [hf]

theorem decAccept_countsUpTo (b : Bool) (hrem : s.dec.rem ≠ 0) (h : s.countsUpTo p) :
    (decAccept b s).countsUpTo p := by
  refine ⟨fun hf => ?_, fun hf => ?_⟩
  · rw [decAccept_params] at hf
    have hle := h.1 hf
    rw [decAccept_emit, decAccept_rem_bits b hf, toNat_sub_one hrem]
    omega
  · rw [decAccept_params] at hf
    rw [decAccept_emit, decAccept_rem_syms b hf]
    exact h.2 hf

/-- A symbol emitted is counted, and lowers the count by at least its last bit or by itself (R74). -/
theorem decAccept_decEmit_countsUpTo (b : Bool) (x : Symbol) (hrem : s.dec.rem ≠ 0) (h : s.countsUpTo p) :
    (decEmit x (decAccept b s)).countsUpTo p := by
  have hle := h.le
  have hpos : s.dec.rem.toNat ≠ 0 := fun h0 => hrem (BitVec.eq_of_toNat_eq h0)
  have hsum : (s.dec.emit + 1).toNat + (s.dec.rem - 1).toNat = s.dec.emit.toNat + s.dec.rem.toNat := by
    rw [toNat_sub_one hrem, BitVec.toNat_add_of_lt (by simp; omega)]
    simp
    omega
  unfold State.countsUpTo
  rw [decEmit_emit, decAccept_emit, decAccept_decEmit_rem, hsum]
  exact h

/-- A read does not touch what the count law speaks of. -/
theorem bitRead_dec_params {o : Option Bool} (h : bitRead s = (o, u)) : u.dec = s.dec ∧ u.params = s.params := by
  rw [bitRead_frame_of h]
  exact ⟨rfl, rfl⟩

theorem decStep_countsUpTo (hrem : s.dec.rem ≠ 0) (h : s.countsUpTo p) : (decStep s).2.countsUpTo p := by
  have hread : ∀ {o u}, bitRead s = (o, u) → u.dec.rem ≠ 0 ∧ u.countsUpTo p := fun hb => by
    obtain ⟨hd, hp⟩ := bitRead_dec_params hb
    exact ⟨hd ▸ hrem, State.countsUpTo_congr hp hd h⟩
  rcases decStep_cases s with ⟨s1, hb, hd⟩ | ⟨b, s1, sym, hb, -, hd⟩ | ⟨b, s1, hb, -, -, hd⟩ |
      ⟨b, s1, hb, -, -, -, hd⟩ <;> rw [hd] <;> obtain ⟨hrem, hc⟩ := hread hb
  · exact hc
  · exact decAccept_decEmit_countsUpTo b sym hrem hc
  · exact decAccept_countsUpTo b hrem hc
  · exact decAccept_countsUpTo b hrem hc

/-- In `RUN` the accumulator has room for one bit more: it is shorter than some codeword (R22). -/
theorem Inv.acc_lt_maxLen (h : Inv s) (hr : s.dec.state = .run) : s.dec.acc.length < maxLen := by
  obtain ⟨-, -, -, -, hnil | ⟨a, d, hd, hp⟩⟩ := h.running hr
  · simp [hnil]
  · have hlen := h.tableFree.1 a d hd
    obtain ⟨-, hlt⟩ := isProperPrefix_iff.mp hp
    simp only [BitString.isCodeword, decide_eq_true_eq] at hlen
    omega

/-- A next automaton has to meet items 4 to 6 and 9. -/
theorem Inv.setAutomaton (h : Inv s) (d : Automaton) (out : List Symbol) (hacc : d.acc.length ≤ maxLen)
    (hrun : d.state = .run → s.canStart ∧ d.rem ≠ 0 ∧ (d.acc = [] ∨ s.tab.hasProperPrefix d.acc))
    (hdone : d.state = .done → d.rem = 0 ∧ d.acc = [])
    (hcount : d.state = .run → State.countsUpTo s.hdr.plen { s with dec := d }) :
    Inv { s with dec := d, out := out } :=
  { h with
    accLength := hacc
    running := fun hr => by
      obtain ⟨⟨hok, hopen, hbad⟩, hrem, hpre⟩ := hrun hr
      exact ⟨hrem, hopen, hok, hbad, hpre⟩
    finished := hdone
    countBits := fun hr => (hcount hr).1
    countSyms := fun hr => (hcount hr).2 }

theorem Inv.canStart (h : Inv s) (hr : s.dec.state = .run) : s.canStart := by
  obtain ⟨-, hopen, hok, hbad, -⟩ := h.running hr
  exact ⟨hok, hopen, hbad⟩

/-- An emitted symbol ends the decode exactly when the count is 0 (R74). -/
theorem decEmit_state_eq_run {x : Symbol} (h : (decEmit x s).dec.state = .run) : (decEmit x s).dec.rem ≠ 0 :=
  fun h0 => by simp only [decEmit_state, h0, if_true, reduceCtorEq] at h

theorem decEmit_state_eq_done {x : Symbol} (hr : s.dec.state = .run) (h : (decEmit x s).dec.state = .done) :
    (decEmit x s).dec.rem = 0 := by
  by_contra h0
  simp only [decEmit_state, h0, if_false, hr, reduceCtorEq] at h

/-- A bit that is not the last one counted leaves a count (R74). -/
theorem decAccept_rem_ne_zero {b : Bool} (hrem : s.dec.rem ≠ 0)
    (h : ¬(s.params.framing = .bits ∧ (decAccept b s).dec.rem = 0)) : (decAccept b s).dec.rem ≠ 0 := by
  cases hf : s.params.framing with
  | bits => exact fun h0 => h ⟨hf, h0⟩
  | syms => rwa [decAccept_rem_syms b hf]

theorem decStep_inv (h : Inv s) (hr : s.dec.state = .run) : Inv (decStep s).2 := by
  have hread : ∀ {o u}, bitRead s = (o, u) → Inv u ∧ u.dec.state = .run := fun hb => by
    have hi := bitRead_inv h (h.canStart hr).2.1
    rw [hb] at hi
    exact ⟨hi, by rw [(bitRead_dec_params hb).1, hr]⟩
  rcases decStep_cases s with ⟨s1, hb, hd⟩ | ⟨b, s1, sym, hb, -, hd⟩ | ⟨b, s1, hb, -, -, hd⟩ |
      ⟨b, s1, hb, -, hp, hc, hd⟩ <;> rw [hd] <;> obtain ⟨h1, hr1⟩ := hread hb
  case inl => exact h1.setAutomaton _ s1.out h1.accLength nofun nofun nofun
  all_goals
    have hrem := (h1.running hr1).1
    have hroom : (s1.dec.acc ++ [b]).length ≤ maxLen := by simpa using h1.acc_lt_maxLen hr1
    have hcount := h1.countsUpTo hr1
  · exact h1.setAutomaton (decEmit sym (decAccept b s1)).dec _ (Nat.zero_le _)
      (fun hrun => ⟨h1.canStart hr1, decEmit_state_eq_run hrun, .inl rfl⟩)
      (fun hdone => ⟨decEmit_state_eq_done hr1 hdone, rfl⟩)
      (fun _ => decAccept_decEmit_countsUpTo b sym hrem hcount)
  · exact h1.setAutomaton _ s1.out hroom nofun nofun nofun
  · exact h1.setAutomaton (decAccept b s1).dec s1.out hroom
      (fun _ => ⟨h1.canStart hr1, decAccept_rem_ne_zero hrem hc, .inr (lutPrefix_iff.mp hp)⟩)
      (fun hdone => by simp [hr1] at hdone)
      (fun _ => decAccept_countsUpTo b hrem hcount)

/-! ## Every command and every step keeps the invariants -/

/-- An accepted insertion leaves the staging register alone (R63). -/
theorem lutInsert_stg {sym : Symbol} {c : BitString} {tab tab' : Table} (h : lutInsert sym c tab = some tab') :
    tab'.stg = tab.stg := by
  rcases lutInsert_cases sym c tab with ⟨-, hi⟩ | ⟨-, hi⟩ <;> rw [hi] at h <;> cases h
  rfl

theorem ldTabLoop_inv (h : Inv s) (hr : s.dec.state ≠ .run) (fuel rem : Nat) :
    Inv (ldTabLoop fuel rem s).2 := by
  refine (ldTabLoop_keeps (P := fun u => Inv u ∧ u.dec.state ≠ .run) (fun u src ⟨hu, hur⟩ => ?_)
    (fun u sym n code src t ⟨hu, hur⟩ _ _ hi => ?_) fuel rem ⟨h, hr⟩).1
  · exact ⟨hu.setTable hur { u.tab with bad := true } src hu.tableFree hu.stagedLength, hur⟩
  · have hlen : ((unpackBytes code).take n.toNat).length ≤ maxLen :=
      (List.length_take_le _ _).trans (Nat.le_of_lt_succ n.isLt)
    exact ⟨hu.setTable hur t src (lutInsert_prefixFree hu.tableFree hlen hi)
      ((lutInsert_stg hi).symm ▸ hu.stagedLength), hur⟩

theorem Automaton.started_state_eq_run (h : (Automaton.started p).state = .run) : p ≠ 0 := by
  rintro rfl
  cases h

theorem Automaton.started_state_eq_done (h : (Automaton.started p).state = .done) : p = 0 := by
  simpa [Automaton.started] using h

/-- `DEC.START` sets the count law up anew (R73). -/
theorem State.countsUpTo_started (s : State) (p : Word32) : State.countsUpTo p { s with dec := .started p } := by
  simp [State.countsUpTo, Automaton.started]

theorem Inv.start (h : Inv s) (hc : s.canStart) : Inv { s with dec := .started s.hdr.plen } :=
  h.setAutomaton _ s.out (Nat.zero_le _) (fun hr => ⟨hc, Automaton.started_state_eq_run hr, .inl rfl⟩)
    (fun hd => ⟨Automaton.started_state_eq_done hd, rfl⟩) (fun _ => s.countsUpTo_started s.hdr.plen)

theorem exec_inv (i : Instr) (h : Inv s) : EndsIn Inv (exec i s) := by
  cases i with
  | bwOpen => exact execBwOpen_endsIn h fun hm => h.emptyWriter true s.snk hm
  | bwWrite v => exact execBwWrite_endsIn h fun ho b => bitWrite_inv h ho b
  | bwFlush => exact execBwFlush_endsIn h fun ho snk => h.emptyWriter s.bw.opened snk (h.writerStrap ho)
  | brOpen => exact execBrOpen_endsIn h fun _ hm x rest _ => h.setReader ⟨true, x, 0, false⟩ rest rfl nofun hm
  | brRead => exact execBrRead_endsIn h fun _ ho => bitRead_inv h ho
  | lutClr => exact execLutClr_endsIn h fun hr => h.setTable hr _ s.src Table.prefixFree_reset (by simp)
  | lutBit b =>
    refine execLutBit_endsIn h fun hl => h.setStaged _ ?_
    have := h.stagedLength
    simp only [List.length_append, List.length_singleton]
    omega
  | lutCommit sym =>
    refine execLutCommit_endsIn h (fun hr => ?_) fun hr t hi => ?_
    · exact h.setTable hr { s.tab with bad := true, stg := [] } s.src h.tableFree (Nat.zero_le _)
    · have hf := lutInsert_prefixFree (t := { s.tab with stg := [] }) h.tableFree h.stagedLength hi
      exact h.setTable hr t s.src hf (by simp [lutInsert_stg hi])
  | lutQry => exact execLutQry_endsIn h
  | lutStgClr => exact execLutStgClr_endsIn (h.setStaged [] (Nat.zero_le _))
  | decHdr => exact execDecHdr_endsIn h fun hr hm hdr src => h.setHeader hr hdr src hm
  | decLdTab => exact execDecLdTab_endsIn h fun hr => ldTabLoop_inv h hr _ _
  | decStart => exact execDecStart_endsIn h h.start
  | decStep => exact execDecStep_endsIn h fun hr => decStep_inv h hr
  | decRun => exact execDecRun_endsIn h fun _ => decLoop_keeps (fun u hu hr => decStep_inv hu hr) _ h
  | sysRd r => exact execSysRd_endsIn h
  | sysReset => exact execSysReset_endsIn s.resetBlock_inv

/-- A step (R6, R43, R47, R50, R94): a command executed, a word refused, a reset, or nothing of the block touched. -/
theorem step_cases (h : step s = .next t) :
    (∃ cw i rest, s.port = .command cw :: rest ∧ decode cw = .ok i ∧ exec i (s.withPort rest) = .next t) ∨
    (∃ rest, t = (s.withPort rest).raise .illegalCommand) ∨
    (∃ rest, t = (s.withPort rest).resetBlock) ∨
    (∃ port src snk, t = { s with port := port, src := src, snk := snk }) := by
  rcases hp : s.port with _ | ⟨cw | _ | bytes | bytes, rest⟩
  case nil =>
    rw [step_idle hp] at h
    cases h
    exact .inr (.inr (.inr ⟨s.port, s.src, s.snk, rfl⟩))
  case cons.command =>
    cases hd : decode cw with
    | ok i => exact .inl ⟨cw, i, rest, rfl, hd, step_command hp hd ▸ h⟩
    | error r =>
      rw [step_illegalWord hp hd] at h
      cases h
      exact .inr (.inl ⟨rest, rfl⟩)
  case cons.reset =>
    rw [step_reset hp] at h
    cases h
    exact .inr (.inr (.inl ⟨rest, rfl⟩))
  case cons.supply =>
    rw [step_supply hp] at h
    cases h
    exact .inr (.inr (.inr ⟨rest, s.src ++ bytes, s.snk, rfl⟩))
  case cons.deposit =>
    rw [step_deposit hp] at h
    cases h
    exact .inr (.inr (.inr ⟨rest, s.src, s.snk ++ bytes, rfl⟩))

theorem Inv.withPort (h : Inv s) (rest : List HostAct) : Inv (s.withPort rest) := { h with }

/-- Settles O56: commands by their 17 rules, the reset input by R27; the host's items touch nothing that R22 names. -/
theorem everyStepKeepsTheInvariants : Obligations.EveryStepKeepsTheInvariants := by
  intro s t h hstep
  rcases step_cases hstep with ⟨cw, i, rest, -, -, he⟩ | ⟨rest, rfl⟩ | ⟨rest, rfl⟩ | ⟨port, src, snk, rfl⟩
  · have hends := exec_inv i (h.withPort rest)
    rw [he] at hends
    exact hends.inv
  · exact (h.withPort rest).raise _
  · exact State.resetBlock_inv _
  · exact { h with }

/-! ## Item 9 for the count that `DEC.START` took -/

theorem exec_decoderMove {i : Instr} (h : exec i s = .next t) :
    t.params = s.params ∧ DecoderMove s i t.dec t.hdr := by
  have hends := exec_effect i s
  rw [h] at hends
  cases hends with
  | completes u y hu => exact ⟨hu.params, hu.move⟩
  | raises u c hu => exact ⟨hu.params, hu.move⟩

variable {i : Instr} {d : Automaton} {hdr : Header}

theorem decLoop_countsUpTo (h : Inv s) (hc : s.countsUpTo p) (n : Nat) : (decLoop n s).2.countsUpTo p := by
  refine (decLoop_keeps (P := fun u => Inv u ∧ u.countsUpTo p) (fun u ⟨hu, huc⟩ hr => ?_) n ⟨h, hc⟩).2
  obtain ⟨hrem, -⟩ := hu.running hr
  exact ⟨decStep_inv hu hr, decStep_countsUpTo hrem huc⟩

/-- Only a completing `DEC.START` sets a new count. -/
theorem DecoderMove.countsUpTo (hm : DecoderMove s i d hdr) (h : Inv s) (hns : ¬(i = .decStart ∧ s.canStart))
    (hc : s.dec.state ≠ .idle → s.countsUpTo p) (hd : d.state ≠ .idle) :
    State.countsUpTo p { s with dec := d } := by
  cases hm with
  | untouched => exact hc hd
  | header => exact hc hd
  | started hcan => exact absurd ⟨rfl, hcan⟩ hns
  | stepped _ n hr =>
    have hparams : s.params = (decLoop n s).2.params := by rw [decLoop_frame]
    exact State.countsUpTo_congr (s := (decLoop n s).2) hparams rfl (decLoop_countsUpTo h (hc (by simp [hr])) n)
  | reset => exact absurd rfl hd

/-- No header is read in `RUN`, and only `DEC.START` leads into it (R70, R78). -/
theorem DecoderMove.run (hm : DecoderMove s i d hdr) (hns : ¬(i = .decStart ∧ s.canStart)) (hd : d.state = .run) :
    s.dec.state = .run ∧ hdr = s.hdr := by
  cases hm with
  | untouched => exact ⟨hd, rfl⟩
  | header _ hr => exact absurd hd hr
  | started hcan => exact absurd ⟨rfl, hcan⟩ hns
  | stepped _ _ hr => exact ⟨hr, rfl⟩
  | reset => cases hd

/-- The header changes by a `DEC.HDR` outside `RUN`, or at reset (R71, R78, R81). -/
theorem DecoderMove.hdr_eq (hm : DecoderMove s i d hdr)
    (hh : i = .decHdr → s.dec.state = .idle ∨ s.dec.state = .run) : hdr = s.hdr ∨ d.state = .idle := by
  cases hm with
  | header _ hr => exact .inr ((hh rfl).resolve_right hr)
  | reset => exact .inr rfl
  | _ => exact .inl rfl

/-- A completing `DEC.START` takes `hdr_plen` (R73). -/
theorem step_countInv_of_startsDecode (h : Inv s) (hs : s.startsDecode) (hstep : step s = .next t) :
    CountInv s.hdr.plen t := by
  have ht := everyStepKeepsTheInvariants s t h hstep
  obtain ⟨⟨cw, rest, hport, hd⟩, hcan⟩ := hs
  have hexec := execDecStart_of_canStart (s := s.withPort rest) hcan
  rw [step_command hport hd, exec, hexec] at hstep
  cases hstep
  exact ⟨ht, fun _ => State.countsUpTo_started s _, fun _ => rfl⟩

/-- Every other step keeps the count taken. -/
theorem step_countInv (h : CountInv p s) (hns : ¬ s.startsDecode) (hstep : step s = .next t) : CountInv p t := by
  have ht := everyStepKeepsTheInvariants s t h.inv hstep
  rcases step_cases hstep with ⟨cw, i, rest, hport, hd, he⟩ | ⟨rest, rfl⟩ | ⟨rest, rfl⟩ | ⟨port, src, snk, rfl⟩
  · obtain ⟨hparams, hmove⟩ := exec_decoderMove he
    have hns' : ¬(i = .decStart ∧ (s.withPort rest).canStart) := fun ⟨hi, hcan⟩ =>
      hns ⟨⟨cw, rest, hport, hi ▸ hd⟩, hcan⟩
    refine ⟨ht, fun hidle => ?_, fun hr => ?_⟩
    · exact State.countsUpTo_congr (s := { s.withPort rest with dec := t.dec }) hparams rfl
        (hmove.countsUpTo (h.inv.withPort rest) hns' h.counts hidle)
    · obtain ⟨hrs, hhdr⟩ := hmove.run hns' hr
      rw [hhdr]
      exact h.taken hrs
  · exact ⟨ht, h.counts, h.taken⟩
  · exact ⟨ht, fun hidle => absurd rfl hidle, nofun⟩
  · exact ⟨ht, h.counts, h.taken⟩

/-- A step leaves the header, or leads to `IDLE`, if it reads no header in `DONE` or `FAULT`. -/
theorem step_hdr_eq (hstep : step s = .next t)
    (hh : ∀ cw rest, s.port = .command cw :: rest → decode cw = .ok .decHdr →
      s.dec.state = .idle ∨ s.dec.state = .run) : t.hdr = s.hdr ∨ t.dec.state = .idle := by
  rcases step_cases hstep with ⟨cw, i, rest, hport, hd, he⟩ | ⟨rest, rfl⟩ | ⟨rest, rfl⟩ | ⟨port, src, snk, rfl⟩
  · exact (exec_decoderMove he).2.hdr_eq fun hi => hh cw rest hport (hi ▸ hd)
  · exact .inl rfl
  · exact .inr rfl
  · exact .inl rfl

/-- Settles O59: of the count taken by the moves of the decoder; as worded, because `hdr_plen` then is the count taken
and stays. -/
theorem everyStepKeepsTheCountLaw : Obligations.EveryStepKeepsTheCountLaw := by
  refine ⟨fun p s t h hstep => ⟨fun hs => step_countInv_of_startsDecode h.inv hs hstep,
    fun hns => step_countInv h hns hstep⟩, fun s t h hlaw hstep hh hidle => ?_⟩
  have ht : CountInv s.hdr.plen t := by
    by_cases hs : s.startsDecode
    · exact step_countInv_of_startsDecode h hs hstep
    · exact step_countInv ⟨h, hlaw, fun _ => rfl⟩ hs hstep
  rw [(step_hdr_eq hstep hh).resolve_right hidle]
  exact ht.counts hidle

/-! ## Reachable states -/

theorem State.blockAtReset.inv (h : s.blockAtReset) : Inv s := by
  rw [← show s.resetBlock = s from h]
  exact s.resetBlock_inv

/-- Settles O55: the state at reset is its own reset. -/
theorem invariantsHoldAtReset : Obligations.InvariantsHoldAtReset := fun p =>
  State.blockAtReset.inv (s := State.resetWith p) rfl

theorem Reachable.inv (h : Reachable s) : Inv s := by
  induction h with
  | start _ h0 => exact h0.inv
  | next s t _ hstep ih => exact everyStepKeepsTheInvariants s t ih hstep

/-- No two symbols have one codeword (R22 item 3). -/
theorem Table.prefixFree.entry_inj {tab : Table} (hf : tab.prefixFree) {a b : Symbol} {c : BitString}
    (ha : tab.entry a = some c) (hb : tab.entry b = some c) : a = b := by
  by_contra hab
  have hself : prefixRelated c c = true := prefixRelated_iff.mpr (.inl (List.prefix_refl c))
  simp [hf.2 a b c c hab ha hb] at hself

/-- Settles O57, by induction on the run. -/
theorem reachableStatesMeetTheInvariants : Obligations.ReachableStatesMeetTheInvariants := fun _ h =>
  ⟨h.inv, fun hr => Nat.le_of_lt_succ (h.inv.acc_lt_maxLen hr), fun _ _ _ => h.inv.tableFree.entry_inj⟩

theorem ReachableWith.countInv (h : ReachableWith p s) : CountInv p s := by
  induction h with
  | start s h0 =>
    have hidle : s.dec.state = .idle := by
      rw [← show s.resetBlock = s from h0]
      rfl
    exact ⟨h0.inv, fun hn => absurd hidle hn, fun hr => by simp [hidle] at hr⟩
  | decode p s t _ hs hstep ih => exact step_countInv_of_startsDecode ih.inv hs hstep
  | other p s t _ hns hstep ih => exact step_countInv ih hns hstep

/-- Settles O60: the law by induction on the run; no counter wraps because the sum of the two is at most the count. -/
theorem countLawHoldsOfTheCountTaken : Obligations.CountLawHoldsOfTheCountTaken := by
  intro p s h
  have hc := h.countInv
  refine ⟨hc.counts, fun hp hidle => hp ▸ hc.counts hidle, fun hr => ?_⟩
  have hle := (hc.counts (by simp [hr])).le
  have hrem : s.dec.rem.toNat ≠ 0 := fun h0 => (hc.inv.running hr).1 (BitVec.eq_of_toNat_eq h0)
  have hlt := p.isLt
  exact ⟨hc.taken hr, by omega, by omega⟩

/-- Under `SYMS`: the commands `DEC.HDR`, `BR.OPEN`, `DEC.START` and `DEC.HDR` at the port, and in the source a header
that declares no symbols, one payload byte, and a header that declares one symbol. -/
def secondHeader : State :=
  { State.resetWith ⟨.syms, true, true⟩ with
    src := List.replicate 16 0x00 ++ [0x01]
    port := [.command 0x4000, .command 0x2000, .command 0x4200, .command 0x4000] }

/-- The end of that run: the second header stands beside the counters of the first. -/
def secondHeaderRead : State :=
  { secondHeader with
    br := ⟨true, 0x00, 0, false⟩
    hdr := ⟨true, 0, 1⟩
    dec := ⟨.done, [], 0, 0⟩
    src := []
    port := []
    rsps := List.replicate 4 0x0000000000 }

theorem secondHeader_reachable : Reachable secondHeaderRead :=
  .next _ _ (.next _ _ (.next _ _ (.next _ _ (.start secondHeader rfl) rfl) rfl) rfl) rfl

/-- Refutes O58: `DEC.HDR` in `DONE` replaces `hdr_plen` = 0 by 1 while `dec_emit` and `dec_rem` stay 0. -/
theorem not_countLawHoldsOutsideIdle : ¬ Obligations.CountLawHoldsOutsideIdle := by
  intro h
  have hlaw := (h secondHeaderRead secondHeader_reachable nofun).2 rfl
  exact absurd hlaw (by decide)

/-! ## The registers after reset (R27) -/

theorem readReg_resetWith (params : Params) {r : Byte} (hr : r.toNat < 11) :
    readReg r (State.resetWith params) = some 0 := by
  have hstatus : statusReg (State.resetWith params) = 0 := by
    rw [show statusReg (State.resetWith params) = statusReg State.reset from rfl]
    decide
  have hcount : (State.resetWith params).tab.count = 0 := Table.count_reset
  unfold readReg
  rw [hstatus, hcount]
  interval_cases r.toNat <;> rfl

theorem configReg_eq (params : Params) : configReg params = BitVec.ofNat 32
    ((if params.framing = .syms then 1 else 0) + (if params.snkWr then 2 else 0) +
      (if params.srcRd then 4 else 0)) := by
  rcases params with ⟨_ | _, _ | _, _ | _⟩ <;> rfl

theorem Reply.val_word (v : Word32) : (Reply.val v).word = 0x06#8 ++ v :=
  congrArg (· ++ v) (show 0#4 ++ 6#4 = 0x06#8 by decide)

theorem execSysRd_of_readReg {r : Byte} {v : Word32} (h : readReg r s = some v) :
    execSysRd r s = .next { s with rsps := s.rsps ++ [0x06#8 ++ v] } := by
  simp only [execSysRd, h, completed_eq, State.complete, Reply.val_word]

/-- Settles O52: registers 0 to 10 show elements that reset sets to 0, register 11 shows the parameters. -/
theorem registersReadZeroAfterReset : Obligations.RegistersReadZeroAfterReset := by
  have hconfig : ∀ params, exec (.sysRd 11) (State.resetWith params) =
      .next { State.resetWith params with rsps := [0x06#8 ++ configReg params] } := fun params =>
    execSysRd_of_readReg (r := 11) (s := State.resetWith params) (v := configReg params) rfl
  have hdefault : 0x0600000006#40 = 0x06#8 ++ configReg Params.default := by decide
  refine ⟨fun params r hr => execSysRd_of_readReg (readReg_resetWith params hr), fun params => ?_, ?_⟩
  · rw [← configReg_eq]
    exact hconfig params
  · rw [hdefault]
    exact hconfig Params.default

end Sys2Proof.Machine

/-! Proofs of the statements of spec/20_memory.md: bits packed into bytes and back, header fields, table blocks, the
codeword just committed, and how the commands move the streams. One rule, `exec_moves`, bounds what each command
moves. -/

namespace Sys2Proof.Machine

variable {s t u : State}

/-! ## Packing: bits into bytes and back (R32) -/

theorem ceil8_eq (n : Nat) : ceil8 n = (n + 7) / 8 := Nat.shiftRight_eq_div_pow (n + 7) 3

@[simp] theorem packBits_length (c : BitString) : (packBits c).length = ceil8 c.length := by
  simp [packBits]

/-- The byte as a number, bit 0 (the last one packed) first. -/
theorem packByte_eq (c : BitString) :
    packByte c = BitVec.ofNat 8 (Nat.ofBits fun i : Fin 8 => c.getD (7 - i) false) := by
  refine congrArg (BitVec.ofNat 8) ?_
  simp [List.range_succ, Nat.ofBits, Fin.foldr_succ]
  omega

theorem packByte_getLsbD (c : BitString) {i : Nat} (hi : i < 8) :
    (packByte c).getLsbD (7 - i) = c.getD i false := by
  have hback : 7 - (7 - i) = i := by omega
  rw [packByte_eq, BitVec.getLsbD_ofNat, Nat.testBit_ofBits_lt _ _ (by omega), hback]
  simp
  omega

theorem packBits_getElem? {c : BitString} {j : Nat} (hj : j < ceil8 c.length) :
    (packBits c)[j]? = some (packByte ((c.drop (8 * j)).take 8)) := by
  simp [packBits, hj]

/-- The bits packed into byte j. -/
theorem getD_take_drop (c : BitString) (j : Nat) {i : Nat} (hi : i < 8) :
    ((c.drop (8 * j)).take 8).getD i false = c.getD (8 * j + i) false := by
  simp [List.getD_eq_getElem?_getD, hi]

/-- Settles O17, by the bits of one packed byte. -/
theorem packingIsMostSignificantBitFirst : Obligations.PackingIsMostSignificantBitFirst := by
  refine fun c => ⟨(packBits_length c).trans (ceil8_eq _), fun j i x hx hi => ?_⟩
  obtain ⟨hj, -⟩ := List.getElem?_eq_some_iff.mp hx
  rw [packBits_length] at hj
  rw [packBits_getElem? hj, Option.some_inj] at hx
  rw [← hx, packByte_getLsbD _ hi, getD_take_drop c j hi]

/-! ## Header fields (R33) -/

theorem toNat_append_eq_add {m n : Nat} (x : BitVec m) (y : BitVec n) :
    (x ++ y).toNat = x.toNat * 2 ^ n + y.toNat := by
  rw [BitVec.toNat_append, ← Nat.shiftLeft_add_eq_or_of_lt y.isLt, Nat.shiftLeft_eq]

theorem be32_toNat (b0 b1 b2 b3 : Byte) :
    (be32 b0 b1 b2 b3).toNat = b0.toNat * 2 ^ 24 + b1.toNat * 2 ^ 16 + b2.toNat * 2 ^ 8 + b3.toNat := by
  simp only [be32, toNat_append_eq_add]
  omega

/-- `BE32` of the four big-endian bytes of a value is the value. -/
theorem be32_beBytes (v : Word32) :
    be32 (v.extractLsb' 24 8) (v.extractLsb' 16 8) (v.extractLsb' 8 8) (v.extractLsb' 0 8) = v := by
  refine BitVec.eq_of_toNat_eq ?_
  have := v.isLt
  rw [be32_toNat]
  simp only [BitVec.extractLsb'_toNat]
  omega

/-- The 32 bits of a value, most significant first. -/
def fieldBits (v : Word32) : BitString := (List.range 32).map fun i => v.getLsbD (31 - i)

theorem fieldBits_getD (v : Word32) {i : Nat} (hi : i < 32) : (fieldBits v).getD i false = v.getLsbD (31 - i) := by
  simp [fieldBits, List.getD_eq_getElem?_getD, hi]

theorem packByte_fieldBits (v : Word32) {j : Nat} (hj : j < 4) :
    packByte (((fieldBits v).drop (8 * j)).take 8) = v.extractLsb' (24 - 8 * j) 8 := by
  refine BitVec.eq_of_getLsbD_eq fun k hk => ?_
  have hback : 7 - (7 - k) = k := by omega
  have hbit := packByte_getLsbD (((fieldBits v).drop (8 * j)).take 8) (i := 7 - k) (by omega)
  rw [hback, getD_take_drop _ j (by omega), fieldBits_getD v (by omega)] at hbit
  rw [hbit, BitVec.getLsbD_extractLsb', decide_eq_true hk, Bool.true_and]
  congr 1
  omega

/-- A field written bit by bit is its four big-endian bytes. -/
theorem packBits_fieldBits (v : Word32) : packBits (fieldBits v) = beBytes v := by
  have hlen : ceil8 (fieldBits v).length = 4 := by simp [fieldBits, ceil8]
  have hbytes : packBits (fieldBits v) = (List.range 4).map fun j => v.extractLsb' (24 - 8 * j) 8 := by
    rw [packBits, hlen]
    exact List.map_congr_left fun j hj => packByte_fieldBits v (List.mem_range.mp hj)
  exact hbytes

/-- Settles O36: the field's bits pack to its big-endian bytes. -/
theorem headerFieldsAreBigEndian : Obligations.HeaderFieldsAreBigEndian :=
  ⟨be32_toNat, fun v => ⟨_, _, _, _, packBits_fieldBits v, be32_beBytes v⟩⟩

/-! ## The table block (R37) -/

theorem byteBits_getElem? (x : Byte) {i : Nat} (hi : i < 8) : (byteBits x)[i]? = some (x.getLsbD (7 - i)) := by
  interval_cases i <;> rfl

@[simp] theorem byteBits_length (x : Byte) : (byteBits x).length = 8 := rfl

/-- Bit 8j+i of the stream is bit 7-i of byte j (R32). -/
theorem unpackBytes_getElem? (bs : List Byte) (j : Nat) {i : Nat} (hi : i < 8) :
    (unpackBytes bs)[8 * j + i]? = bs[j]?.map fun x => x.getLsbD (7 - i) := by
  induction bs generalizing j with
  | nil => rfl
  | cons x xs ih =>
    rw [show unpackBytes (x :: xs) = byteBits x ++ unpackBytes xs from rfl]
    cases j with
    | zero =>
      rw [List.getElem?_append_left (by simpa using hi)]
      simpa using byteBits_getElem? x hi
    | succ j =>
      have hsub : 8 * (j + 1) + i - (byteBits x).length = 8 * j + i := by
        rw [byteBits_length]
        omega
      rw [List.getElem?_append_right (by simp; omega), hsub]
      exact ih j

/-- Unpacking what was packed gives the bits back, with 0 in the pad positions. -/
theorem unpackBytes_packBits_getElem? (c : BitString) {k : Nat} (hk : k < 8 * ceil8 c.length) :
    (unpackBytes (packBits c))[k]? = some (c.getD k false) := by
  have hi : k % 8 < 8 := Nat.mod_lt k (by decide)
  have hbyte := packBits_getElem? (c := c) (j := k / 8) (by omega)
  have hbit := unpackBytes_getElem? (packBits c) (k / 8) hi
  rw [hbyte, Option.map_some, packByte_getLsbD _ hi, getD_take_drop c _ hi, Nat.div_add_mod] at hbit
  exact hbit

theorem take_unpackBytes_packBits (c : BitString) : (unpackBytes (packBits c)).take c.length = c := by
  refine List.ext_getElem? fun k => ?_
  by_cases hk : k < c.length
  · have hpad : k < 8 * ceil8 c.length := by
      rw [ceil8_eq]
      omega
    rw [List.getElem?_take_of_lt hk, unpackBytes_packBits_getElem? c hpad]
    simp [hk]
  · have hle : c.length ≤ k := Nat.le_of_not_lt hk
    rw [List.getElem?_take_eq_none hle, List.getElem?_eq_none hle]

theorem tableBlock_cons (p : Symbol × BitString) (ps : List (Symbol × BitString)) :
    tableBlock (p :: ps) = p.1 :: BitVec.ofNat 8 p.2.length :: (packBits p.2 ++ tableBlock ps) := rfl

/-- One entry more in front of a table block. -/
theorem IsTableBlock.tableEntry_append {block : List Byte} {ps : List (Symbol × BitString)}
    (h : IsTableBlock block ps) (sym : Symbol) {c : BitString} (hc : 1 ≤ c.length ∧ c.length ≤ 255) :
    IsTableBlock (sym :: BitVec.ofNat 8 c.length :: (packBits c ++ block)) ((sym, c) :: ps) := by
  have hn : (BitVec.ofNat 8 c.length).toNat = c.length := by
    rw [BitVec.toNat_ofNat, Nat.mod_eq_of_lt (by omega)]
  have hne : BitVec.ofNat 8 c.length ≠ 0 := by
    intro h0
    rw [h0] at hn
    simp at hn
    omega
  have hentry := IsTableBlock.cons sym _ (packBits c) block ps hne (by rw [packBits_length, hn]) h
  rwa [hn, take_unpackBytes_packBits] at hentry

/-- Settles O38, by induction on the pairs. -/
theorem writtenTableBlocksAreTableBlocks : Obligations.WrittenTableBlocksAreTableBlocks := by
  intro pairs hlen
  induction pairs with
  | nil => exact .nil
  | cons p ps ih =>
    rw [List.forall_mem_cons] at hlen
    exact (ih hlen.2).tableEntry_append p.1 hlen.1

/-! ## A command that completes (R7, R45) -/

/-- A command that raises has not completed: its response carries a code. -/
theorem State.raise_rsps_ne (c : Condition) (s : State) : (s.raise c).rsps ≠ s.rsps ++ [0x0000000000#40] := by
  rw [State.raise_rsps]
  intro h
  obtain ⟨-, hw⟩ := List.append_singleton_inj.mp h
  cases c <;> exact absurd hw (by decide)

theorem Reply.sym_word (sym : Symbol) : (Reply.sym sym).word = 0x03#8 ++ sym.setWidth 32 :=
  congrArg (· ++ sym.setWidth 32) (show 0#4 ++ 3#4 = 0x03#8 by decide)

/-! ## A committed codeword (R42, R66) -/

/-- A pair accepted is found: an entry equal to its codeword would have had it refused (R63). -/
theorem lutMatch_lutInsert {sym : Symbol} {c : BitString} {tab tab' : Table} (h : lutInsert sym c tab = some tab') :
    lutMatch c tab' = some sym := by
  rcases lutInsert_cases sym c tab with ⟨-, hi⟩ | ⟨hc, hi⟩ <;> rw [hi] at h <;> cases h
  cases hm : lutMatch c (tab.setEntry sym c) with
  | none => exact absurd (by simp) (lutMatch_none_iff.mp hm sym)
  | some a =>
    by_cases ha : a = sym
    · rw [ha]
    · have hentry := lutMatch_some hm
      rw [Table.entry_setEntry, if_neg ha] at hentry
      have hself : prefixRelated c c = true := prefixRelated_iff.mpr (.inl (List.prefix_refl c))
      simp [lutCorrupt_iff.mpr (.inr (.inr ⟨a, c, hentry, hself⟩))] at hc

/-- `LUT.COMMIT` that completes (R66) has entered the staged codeword. -/
theorem execLutCommit_completes {sym : Symbol} (h : execLutCommit sym s = .next t)
    (hrsps : t.rsps = s.rsps ++ [0x0000000000#40]) :
    lutInsert sym s.tab.stg { s.tab with stg := [] } = some t.tab := by
  by_cases hr : s.dec.state = .run
  · rw [execLutCommit, interlocked_run hr] at h
    cases h
    exact absurd hrsps (s.raise_rsps_ne _)
  · rw [execLutCommit, interlocked_free hr] at h
    cases hi : lutInsert sym s.tab.stg { s.tab with stg := [] } with
    | none =>
      simp only [hi, raised_eq] at h
      cases h
      exact absurd hrsps (State.raise_rsps_ne _ _)
    | some tab =>
      simp only [hi, completed_eq] at h
      cases h
      rfl

theorem execLutQry_of_lutMatch {sym : Symbol} (h : lutMatch s.tab.stg s.tab = some sym) :
    execLutQry s = .next { s with rsps := s.rsps ++ [0x03#8 ++ sym.setWidth 32] } := by
  simp only [execLutQry, h, completed_eq, State.complete, Reply.sym_word]

/-- Settles O32: a completing commit is an accepted insertion; a lookup depends on the entries alone. -/
theorem committedCodewordIsSeenAtOnce : Obligations.CommittedCodewordIsSeenAtOnce := by
  intro sym s t h hrsps
  have hm := lutMatch_lutInsert (execLutCommit_completes h hrsps)
  exact ⟨hm, execLutQry_of_lutMatch (s := { t with tab := { t.tab with stg := s.tab.stg } }) hm⟩

/-! ## How a part of a command moves the streams (R29 to R31, R35) -/

/-- From s to u bytes left the source at its head, at most `pull`, and at most `push` bytes and `emit` symbols were
appended to the sinks. -/
structure Moves (pull push emit : Nat) (s u : State) : Prop where
  src : u.src <:+ s.src
  snk : s.snk <+: u.snk
  out : s.out <+: u.out
  pulled : s.src.length ≤ u.src.length + pull
  pushed : u.snk.length ≤ s.snk.length + push
  emitted : u.out.length ≤ s.out.length + emit

section
variable {pull push emit pull' push' emit' : Nat}

theorem Moves.refl (s : State) : Moves pull push emit s s where
  src := List.suffix_rfl
  snk := List.prefix_rfl
  out := List.prefix_rfl
  pulled := Nat.le_add_right _ _
  pushed := Nat.le_add_right _ _
  emitted := Nat.le_add_right _ _

theorem Moves.trans (h : Moves pull push emit s t) (h' : Moves pull' push' emit' t u) :
    Moves (pull + pull') (push + push') (emit + emit') s u where
  src := h'.src.trans h.src
  snk := h.snk.trans h'.snk
  out := h.out.trans h'.out
  pulled := by have := h.pulled; have := h'.pulled; omega
  pushed := by have := h.pushed; have := h'.pushed; omega
  emitted := by have := h.emitted; have := h'.emitted; omega

theorem Moves.mono (h : Moves pull push emit s u) (hpull : pull ≤ pull') (hpush : push ≤ push')
    (hemit : emit ≤ emit') : Moves pull' push' emit' s u :=
  { h with
    pulled := h.pulled.trans (Nat.add_le_add_left hpull _)
    pushed := h.pushed.trans (Nat.add_le_add_left hpush _)
    emitted := h.emitted.trans (Nat.add_le_add_left hemit _) }

/-- Only the streams count. -/
theorem Moves.congr (h : Moves pull push emit s t) (hsrc : u.src = t.src) (hsnk : u.snk = t.snk)
    (hout : u.out = t.out) : Moves pull push emit s u := by
  obtain ⟨h1, h2, h3, h4, h5, h6⟩ := h
  rw [← hsrc] at h1 h4
  rw [← hsnk] at h2 h5
  rw [← hout] at h3 h6
  exact ⟨h1, h2, h3, h4, h5, h6⟩

/-- A change that touches no stream. -/
theorem Moves.still (hsrc : u.src = s.src) (hsnk : u.snk = s.snk) (hout : u.out = s.out) :
    Moves pull push emit s u :=
  (Moves.refl s).congr hsrc hsnk hout

theorem Moves.of_pull (n : Nat) (hn : n ≤ pull) (hsrc : u.src = s.src.drop n) (hsnk : u.snk = s.snk)
    (hout : u.out = s.out) : Moves pull push emit s u := by
  have h : Moves pull push emit s { s with src := s.src.drop n } :=
    { Moves.refl (pull := pull) s with
      src := List.drop_suffix n s.src
      pulled := by
        rw [List.length_drop]
        omega }
  exact h.congr hsrc hsnk hout

theorem snkPush_moves (x : Byte) (s : State) : Moves pull 1 emit s (snkPush x s) :=
  { Moves.refl (push := 1) s with
    snk := List.prefix_append s.snk [x]
    pushed := by simp }

theorem outPush_moves (x : Symbol) (s : State) : Moves pull push 1 s (outPush x s) :=
  { Moves.refl (emit := 1) s with
    out := List.prefix_append s.out [x]
    emitted := by simp }

/-! A limit of 0 leaves the stream as it was. -/

theorem Moves.src_eq (h : Moves 0 push emit s u) : u.src = s.src := h.src.eq_of_length_le h.pulled

theorem Moves.snk_eq (h : Moves pull 0 emit s u) : u.snk = s.snk := (h.snk.eq_of_length_le h.pushed).symm

theorem Moves.out_eq (h : Moves pull push 0 s u) : u.out = s.out := (h.out.eq_of_length_le h.emitted).symm

/-! ## The parts of the commands that move a stream -/

/-- n pulls in a row leave the source without its first n bytes, or empty (R35). -/
theorem srcPullN_snd (n : Nat) (s : State) : (srcPullN n s).2 = { s with src := s.src.drop n } := by
  rw [srcPullN_eq]
  split
  · rfl
  · rw [List.drop_eq_nil_of_le (by omega)]

theorem bitRead_moves (s : State) : Moves 1 push emit s (bitRead s).2 := by
  rcases bitRead_cases s with ⟨_, hb⟩ | ⟨_, _, _, hb⟩ | ⟨x, rest, _, _, hx, hb⟩ | ⟨_, _, hb⟩ <;> rw [hb]
  · exact .refl s
  · exact .still rfl rfl rfl
  · exact .of_pull 1 le_rfl (by simp [hx]) rfl rfl
  · exact .still rfl rfl rfl

theorem bitWrite_moves (b : Bool) (s : State) : Moves pull 1 emit s (bitWrite b s) := by
  unfold bitWrite
  split
  · exact (snkPush_moves _ s).congr rfl rfl rfl
  · exact .still rfl rfl rfl

/-- `DecStep()` makes one read, and emits one symbol where a codeword is complete (R74). -/
theorem decStep_moves (s : State) : Moves 1 push 1 s (decStep s).2 := by
  have hread : ∀ {o s1}, bitRead s = (o, s1) → Moves 1 push 0 s s1 := fun hb => by
    have hm := bitRead_moves (push := push) (emit := 0) s
    rwa [hb] at hm
  rcases decStep_cases s with ⟨s1, hb, hd⟩ | ⟨b, s1, sym, hb, -, hd⟩ | ⟨b, s1, hb, -, -, hd⟩ |
      ⟨b, s1, hb, -, -, -, hd⟩ <;> rw [hd]
  case inr.inl => exact ((hread hb).trans (outPush_moves (pull := 0) (push := 0) sym s1)).congr rfl rfl rfl
  all_goals exact ((hread hb).mono le_rfl le_rfl (Nat.zero_le 1)).congr rfl rfl rfl

/-- Each round of the loop of `DEC.RUN` is one step (R76). -/
theorem decLoop_moves (n : Nat) (s : State) : Moves n push n s (decLoop n s).2 := by
  induction n generalizing s with
  | zero => exact .refl s
  | succ n ih =>
    have hstep := decStep_moves (push := 0) s
    have hone : 1 ≤ n + 1 := Nat.le_add_left 1 n
    rw [decLoop_succ]
    split
    · split
      · exact hstep.mono hone (Nat.zero_le push) hone
      · exact (hstep.trans (ih _)).mono (by omega) (by omega) (by omega)
    · exact .refl s

/-- The loop of `DEC.LDTAB` pulls bytes of the block only: both bytes of an entry's head if 2 are left, and the code if
it fits (R72). -/
theorem ldTabLoop_moves (fuel rem : Nat) (s : State) : Moves rem push emit s (ldTabLoop fuel rem s).2 := by
  induction fuel generalizing rem s with
  | zero =>
    cases rem with
    | zero => exact .refl s
    | succ rem => exact .still rfl rfl rfl
  | succ fuel ih =>
    cases rem with
    | zero => exact .refl s
    | succ rem =>
      rw [ldTabLoop_succ]
      by_cases h0 : rem = 0
      · rw [if_pos h0]
        exact .still rfl rfl rfl
      rw [if_neg h0]
      have hhead : 2 ≤ rem + 1 := by omega
      rcases hsrc : s.src with _ | ⟨sym, _ | ⟨n, rest⟩⟩
      · exact .of_pull 2 hhead (by simp [hsrc]) rfl rfl
      · exact .of_pull 2 hhead (by simp [hsrc]) rfl rfl
      dsimp only
      by_cases hn : n = 0 ∨ rem - 1 < ceil8 n.toNat
      · rw [if_pos hn]
        exact .of_pull 2 hhead (by simp [hsrc]) rfl rfl
      rw [if_neg hn]
      have hcode : ceil8 n.toNat + 2 ≤ rem + 1 := by omega
      by_cases hl : rest.length < ceil8 n.toNat
      · rw [if_pos hl]
        exact .of_pull _ hcode (by simp [hsrc, hl.le]) rfl rfl
      rw [if_neg hl]
      have hentry : ∀ tab, Moves (ceil8 n.toNat + 2) 0 0 s
          { s with src := rest.drop (ceil8 n.toNat), tab := tab } := fun tab =>
        .of_pull _ le_rfl (by simp [hsrc]) rfl rfl
      rcases lutInsert sym ((unpackBytes (rest.take (ceil8 n.toNat))).take n.toNat) s.tab with _ | tab
      · exact (hentry { s.tab with bad := true }).mono hcode (Nat.zero_le push) (Nat.zero_le emit)
      · exact ((hentry tab).trans (ih _ _)).mono (by omega) (by omega) (by omega)

end

/-! ## How every command moves the streams -/

/-- The bytes a command may pull (R35). For `DEC.RUN` it is the rounds of its loop. -/
def pullLimit (s : State) : Instr → Nat
  | .brOpen | .brRead | .decStep => 1
  | .decHdr => 8
  | .decLdTab => s.hdr.l.toNat
  | .decRun => bitsLeft s + 1
  | _ => 0

/-- The bytes a command may push (R30). -/
def pushLimit : Instr → Nat
  | .bwWrite _ | .bwFlush => 1
  | _ => 0

/-- The symbols a command may emit (R31). -/
def emitLimit (s : State) : Instr → Nat
  | .decStep => 1
  | .decRun => bitsLeft s + 1
  | _ => 0

theorem mem_of_pullLimit_ne_zero {i : Instr} (h : pullLimit s i ≠ 0) :
    i ∈ [.brOpen, .brRead, .decHdr, .decLdTab, .decStep, .decRun] := by
  cases i <;> simp [pullLimit] at h ⊢

theorem eq_of_pushLimit_ne_zero {i : Instr} (h : pushLimit i ≠ 0) : i = .bwFlush ∨ ∃ v, i = .bwWrite v := by
  cases i <;> simp [pushLimit] at h ⊢

theorem eq_of_emitLimit_ne_zero {i : Instr} (h : emitLimit s i ≠ 0) : i = .decStep ∨ i = .decRun := by
  cases i <;> simp [emitLimit] at h ⊢

theorem pushLimit_le_one (i : Instr) : pushLimit i ≤ 1 := by
  cases i <;> simp [pushLimit]

theorem emitLimit_le_one {i : Instr} (h : i ≠ .decRun) : emitLimit s i ≤ 1 := by
  cases i <;> simp [emitLimit] at h ⊢

/-- `BW.FLUSH` pushes the partial byte, if there is one (R55). -/
theorem execBwFlush_moves (s : State) : EndsIn (Moves 0 1 0 s) (execBwFlush s) := by
  unfold execBwFlush
  split
  · exact .raised _ (.refl s)
  · split
    · exact .completed _ (.still rfl rfl rfl)
    · exact .completed _ ((snkPush_moves s.bw.buf s).congr rfl rfl rfl)

/-- `DEC.HDR` makes 8 pulls (R71). -/
theorem execDecHdr_moves (s : State) : EndsIn (Moves 8 0 0 s) (execDecHdr s) := by
  refine .interlocked (.refl s) fun _ => ?_
  split
  · exact .raised _ (.refl s)
  · have hsrc := srcPullN_snd 8 s
    have hdr : ∀ hdr, Moves 8 0 0 s { (srcPullN 8 s).2 with hdr := hdr } := fun hdr =>
      .of_pull 8 le_rfl (by rw [hsrc]) (by rw [hsrc]) (by rw [hsrc])
    split <;> rename_i hp <;> rw [hp] at hdr
    · exact .completed _ (hdr _)
    · exact .raised _ (hdr _)

theorem exec_moves (i : Instr) (s : State) :
    EndsIn (Moves (pullLimit s i) (pushLimit i) (emitLimit s i) s) (exec i s) := by
  have hs : Moves (pullLimit s i) (pushLimit i) (emitLimit s i) s s := .refl s
  cases i with
  | bwOpen => exact execBwOpen_endsIn hs fun _ => .still rfl rfl rfl
  | bwWrite v => exact execBwWrite_endsIn hs fun _ b => bitWrite_moves b s
  | bwFlush => exact execBwFlush_moves s
  | brOpen => exact execBrOpen_endsIn hs fun _ _ x rest hx => .of_pull 1 le_rfl (by simp [hx]) rfl rfl
  | brRead => exact execBrRead_endsIn hs fun _ _ => bitRead_moves s
  | lutClr => exact execLutClr_endsIn hs fun _ => .still rfl rfl rfl
  | lutBit b => exact execLutBit_endsIn hs fun _ => .still rfl rfl rfl
  | lutCommit sym => exact execLutCommit_endsIn hs (fun _ => .still rfl rfl rfl) fun _ _ _ => .still rfl rfl rfl
  | lutQry => exact execLutQry_endsIn hs
  | lutStgClr => exact execLutStgClr_endsIn (.still rfl rfl rfl)
  | decHdr => exact execDecHdr_moves s
  | decLdTab => exact execDecLdTab_endsIn hs fun _ => ldTabLoop_moves _ _ s
  | decStart => exact execDecStart_endsIn hs fun _ => .still rfl rfl rfl
  | decStep => exact execDecStep_endsIn hs fun _ => decStep_moves s
  | decRun => exact execDecRun_endsIn hs fun _ => decLoop_moves _ s
  | sysRd r => exact execSysRd_endsIn hs
  | sysReset => exact execSysReset_endsIn (.still rfl rfl rfl)

/-- The response moves no stream. -/
theorem moves_of_exec {i : Instr} (h : exec i s = .next t) :
    Moves (pullLimit s i) (pushLimit i) (emitLimit s i) s t := by
  have hends := exec_moves i s
  rw [h] at hends
  cases hends with
  | completes u y hu => exact hu.congr rfl rfl rfl
  | raises u c hu => exact hu.congr rfl rfl rfl

/-- Settles O53: a stream that changed has a limit other than 0. -/
theorem streamsMoveOneWay : Obligations.StreamsMoveOneWay := by
  intro i s t h
  have hm := moves_of_exec h
  refine ⟨hm.src, hm.snk, hm.out, fun hne => mem_of_pullLimit_ne_zero (s := s) fun h0 => hne ?_,
    fun hne => eq_of_pushLimit_ne_zero fun h0 => hne ?_,
    fun hne => eq_of_emitLimit_ne_zero (s := s) fun h0 => hne ?_⟩
  · rw [h0] at hm
    exact hm.src_eq
  · rw [h0] at hm
    exact hm.snk_eq
  · rw [h0] at hm
    exact hm.out_eq

/-- `BR.OPEN` that completes (R58) has pulled the first byte. -/
theorem execBrOpen_completes (h : execBrOpen s = .next t) (hrsps : t.rsps = s.rsps ++ [0x0000000000#40]) :
    ∃ x, s.src = x :: t.src := by
  by_cases hr : s.dec.state = .run
  · rw [execBrOpen, interlocked_run hr] at h
    cases h
    exact absurd hrsps (s.raise_rsps_ne _)
  · rw [execBrOpen, interlocked_free hr] at h
    split at h
    · cases h
      exact absurd hrsps (s.raise_rsps_ne _)
    · rcases srcPull_cases s with ⟨-, hp⟩ | ⟨x, rest, hx, hp⟩ <;> rw [hp] at h <;> cases h
      · exact absurd hrsps (s.raise_rsps_ne _)
      · exact ⟨x, hx⟩

/-- Settles O54: the limits are R35's. -/
theorem commandsMoveBoundedlyManyBytes : Obligations.CommandsMoveBoundedlyManyBytes := by
  intro i s t h
  have hm := moves_of_exec h
  refine ⟨?_, ?_, ?_, ?_, fun hi => ⟨?_, ?_⟩⟩
  · rintro rfl hrsps
    obtain ⟨x, hx⟩ := execBrOpen_completes h hrsps
    rw [hx, List.length_cons]
  · rintro (rfl | rfl) <;> exact hm.pulled
  · rintro rfl
    exact hm.pulled
  · rintro rfl
    exact hm.pulled
  · exact hm.pushed.trans (Nat.add_le_add_left (pushLimit_le_one i) _)
  · exact hm.emitted.trans (Nat.add_le_add_left (emitLimit_le_one hi) _)

end Sys2Proof.Machine

/-! Proofs of the statements of spec/30_encoding.md: the opcode map read by opcode and operand, the decoder and the
encoder as each other's inverse, the illegal words, and the pseudo-command `LUT.ADD`. A row selects a word exactly when
the word is the encoding of that row's command (`Row.selects_iff_encode`); the statements about the decoder rest on
it. -/

namespace Sys2Proof

variable {w : CmdWord} {r r' : Row} {i : Instr}

/-! A command word is its opcode and its operand (R43). -/

@[simp] theorem opOf_cmdWord (op arg : Byte) : opOf (cmdWord op arg) = op := BitVec.extractLsb'_append_eq_left

@[simp] theorem argOf_cmdWord (op arg : Byte) : argOf (cmdWord op arg) = arg := BitVec.extractLsb'_append_eq_right

@[simp] theorem cmdWord_opOf_argOf (w : CmdWord) : cmdWord (opOf w) (argOf w) = w :=
  (BitVec.extractLsb'_append_extractLsb'_eq_extractLsb' (start₂ := 8) (start₁ := 0) rfl).trans
    BitVec.extractLsb'_eq_self

theorem cmdWord_eq_iff {op arg : Byte} : cmdWord op arg = w ↔ opOf w = op ∧ argOf w = arg := by
  constructor
  · rintro rfl
    simp
  · rintro ⟨rfl, rfl⟩
    simp

theorem opOf_and (w m : CmdWord) : opOf (w &&& m) = opOf w &&& opOf m := BitVec.extractLsb'_and

theorem argOf_and (w m : CmdWord) : argOf (w &&& m) = argOf w &&& argOf m := BitVec.extractLsb'_and

theorem argOf_eq_setWidth (w : CmdWord) : argOf w = w.setWidth 8 := (BitVec.setWidth_eq_extractLsb' (by decide)).symm

theorem toNat_opOf (w : CmdWord) : (opOf w).toNat = w.toNat / 256 := by
  have := w.isLt
  simp only [opOf, BitVec.extractLsb'_toNat, Nat.shiftRight_eq_div_pow]
  omega

theorem toNat_argOf (w : CmdWord) : (argOf w).toNat = w.toNat % 256 := by
  simp [argOf]

theorem extractLsb'_setWidth_bit (w : CmdWord) : (w.setWidth 8).extractLsb' 0 1 = w.setWidth 1 :=
  (BitVec.extractLsb'_setWidth_of_le (by decide)).trans (BitVec.setWidth_eq_extractLsb' (by decide)).symm

theorem argOf_eq_zero_iff : argOf w = 0 ↔ w.toNat % 256 = 0 := by
  rw [← BitVec.toNat_inj, toNat_argOf, BitVec.ofNat_eq_ofNat, BitVec.toNat_zero]

/-! The opcode map (R44): every row fixes the whole opcode, and no two rows the same one. -/

theorem opOf_mask_of_mem (hr : r ∈ rows) : opOf r.mask = 0xFF := by
  revert r
  decide

theorem argOf_pattern_of_mem (hr : r ∈ rows) : argOf r.pattern = 0 := by
  revert r
  decide

theorem rows_opcodes_nodup : (rows.map fun r => opOf r.pattern).Nodup := by decide

/-- A row selects by its opcode, whole, and by the operand bits that must be zero. -/
theorem Row.selects_iff (hr : r ∈ rows) :
    r.selects w = true ↔ opOf w = opOf r.pattern ∧ argOf w &&& argOf r.mask = 0 := by
  have hop : opOf (w &&& r.mask) = opOf w := by
    rw [opOf_and, opOf_mask_of_mem hr]
    exact BitVec.and_allOnes
  rw [Row.selects, beq_iff_eq, eq_comm, ← cmdWord_opOf_argOf r.pattern, cmdWord_eq_iff, hop, argOf_and,
    argOf_pattern_of_mem hr]
  simp

theorem Row.selects_iff_toNat (hr : r ∈ rows) :
    r.selects w = true ↔ w.toNat / 256 = r.pattern.toNat / 256 ∧ argOf w &&& argOf r.mask = 0 := by
  rw [Row.selects_iff hr, ← BitVec.toNat_inj, toNat_opOf, toNat_opOf]

/-- "The rows are disjoint" (R44). -/
theorem Row.eq_of_selects (hr : r ∈ rows) (hr' : r' ∈ rows) (h : r.selects w = true) (h' : r'.selects w = true) :
    r = r' :=
  List.inj_on_of_nodup_map rows_opcodes_nodup hr hr'
    (((Row.selects_iff hr).mp h).1.symm.trans ((Row.selects_iff hr').mp h').1)

theorem find?_rows_eq_some_iff : rows.find? (Row.selects · w) = some r ↔ r ∈ rows ∧ r.selects w = true := by
  constructor
  · intro hf
    exact ⟨List.mem_of_find?_eq_some hf, List.find?_some (p := (Row.selects · w)) hf⟩
  · rintro ⟨hr, hs⟩
    cases hf : rows.find? (Row.selects · w) with
    | none => exact absurd hs (List.find?_eq_none.mp hf r hr)
    | some r' =>
      have hs' : r'.selects w = true := List.find?_some (p := (Row.selects · w)) hf
      rw [Row.eq_of_selects (List.mem_of_find?_eq_some hf) hr hs' hs]

theorem decode_eq_ok_iff : decode w = .ok i ↔ ∃ r ∈ rows, r.selects w = true ∧ r.make (argOf w) = i := by
  simp only [← and_assoc, ← find?_rows_eq_some_iff, decode]
  cases rows.find? (Row.selects · w) <;> simp

theorem decode_eq_error_iff : (∃ e, decode w = .error e) ↔ ∀ r ∈ rows, ¬ r.selects w = true := by
  rw [← List.find?_eq_none, decode]
  cases rows.find? (Row.selects · w) <;> simp

/-! What the three masks of R44 leave of the operand (R46): nothing, all of it, bit 0. -/

theorem and_argOf_0xFFFF_eq_zero_iff (a : Byte) : a &&& argOf 0xFFFF = 0 ↔ a = 0 := by
  rw [show argOf 0xFFFF = BitVec.allOnes 8 by decide, BitVec.and_allOnes]

theorem and_argOf_0xFF00_eq_zero (a : Byte) : a &&& argOf 0xFF00 = 0 := BitVec.and_zero

theorem and_argOf_0xFFFE_eq_zero_iff (a : Byte) : a &&& argOf 0xFFFE = 0 ↔ a.toNat < 2 := by
  revert a
  decide +kernel

theorem setWidth_extractLsb'_bit_eq_iff (a : Byte) : (a.extractLsb' 0 1).setWidth 8 = a ↔ a.toNat < 2 := by
  rw [BitVec.toNat_eq, BitVec.toNat_setWidth, BitVec.extractLsb'_toNat, Nat.shiftRight_zero]
  omega

/-! The encoder against the rows. -/

theorem opOf_encode_make (hr : r ∈ rows) (a : Byte) : opOf (encode (r.make a)) = opOf r.pattern := by
  revert r
  simp only [rows, List.cons_append, List.nil_append, List.forall_mem_cons, List.not_mem_nil, false_imp_iff,
    implies_true, and_true, encode, opOf_cmdWord]
  decide

/-- The encoding keeps the operand exactly when the row admits it. -/
theorem argOf_encode_make_eq_iff (hr : r ∈ rows) (a : Byte) :
    argOf (encode (r.make a)) = a ↔ a &&& argOf r.mask = 0 := by
  revert r
  simp only [rows, List.cons_append, List.nil_append, List.forall_mem_cons, encode, argOf_cmdWord,
    and_argOf_0xFFFF_eq_zero_iff, and_argOf_0xFF00_eq_zero, and_argOf_0xFFFE_eq_zero_iff,
    setWidth_extractLsb'_bit_eq_iff]
  simp [eq_comm (a := a)]

/-- The key fact: a row selects exactly the words that are the encoding of the command it makes of them. -/
theorem Row.selects_iff_encode (hr : r ∈ rows) : r.selects w = true ↔ encode (r.make (argOf w)) = w := by
  calc
    r.selects w = true ↔
        opOf w = opOf (encode (r.make (argOf w))) ∧ argOf (encode (r.make (argOf w))) = argOf w := by
      rw [Row.selects_iff hr, opOf_encode_make hr, argOf_encode_make_eq_iff hr]
    _ ↔ cmdWord (opOf (encode (r.make (argOf w)))) (argOf (encode (r.make (argOf w)))) = w := by
      rw [cmdWord_eq_iff, eq_comm (a := argOf w)]
    _ ↔ encode (r.make (argOf w)) = w := by rw [cmdWord_opOf_argOf]

theorem exists_row_of_instr (i : Instr) : ∃ r ∈ rows, r.make (argOf (encode i)) = i := by
  have hbit (b : BitVec 1) : (b.setWidth 8).extractLsb' 0 1 = b :=
    (BitVec.extractLsb'_setWidth_of_le (by decide)).trans BitVec.extractLsb'_eq_self
  cases i <;> simp [rows, encode, hbit]

theorem Instr.wellFormed_eq_true (i : Instr) : i.wellFormed = true := by
  cases i <;> rfl

/-- Settles O1: a row that selects the word makes a command with that encoding; an instruction is made by a row, and
that row selects its encoding. -/
theorem decodeReadsExactlyTheEncodings : Obligations.DecodeReadsExactlyTheEncodings := by
  intro w i
  rw [decode_eq_ok_iff, and_iff_right i.wellFormed_eq_true]
  constructor
  · rintro ⟨r, hr, hs, rfl⟩
    exact (Row.selects_iff_encode hr).mp hs
  · rintro rfl
    obtain ⟨r, hr, hi⟩ := exists_row_of_instr i
    exact ⟨r, hr, (Row.selects_iff_encode hr).mpr (congrArg encode hi), hi⟩

theorem Row.and_mask_eq_pattern_iff_decode (hr : r ∈ rows) :
    w &&& r.mask = r.pattern ↔ decode w = .ok (r.make (argOf w)) := by
  rw [decodeReadsExactlyTheEncodings, and_iff_right (Instr.wellFormed_eq_true _), ← Row.selects_iff_encode hr,
    Row.selects, beq_iff_eq]

/-- Settles O2: the rows written out, with their operands. -/
theorem eachOpcodeRowSelectsItsCommand : Obligations.EachOpcodeRowSelectsItsCommand := by
  intro w
  have h : ∀ r ∈ rows, (w &&& r.mask = r.pattern ↔ decode w = .ok (r.make (argOf w))) := fun _ =>
    Row.and_mask_eq_pattern_iff_decode
  simpa only [rows, List.cons_append, List.nil_append, List.forall_mem_cons, List.not_mem_nil, false_imp_iff,
    implies_true, and_true, argOf_eq_setWidth, extractLsb'_setWidth_bit] using h

/-! The illegal words (R47). -/

theorem decode_eq_error_iff_toNat : (∃ e, decode w = .error e) ↔
    ∀ r ∈ rows, ¬ (w.toNat / 256 = r.pattern.toNat / 256 ∧ argOf w &&& argOf r.mask = 0) := by
  rw [decode_eq_error_iff]
  exact forall₂_congr fun r hr => not_congr (Row.selects_iff_toNat hr)

/-- Settles O3: an opcode that no row has is refused by every row, a listed one by its row alone, for its operand; the
step is `step_illegalWord`. -/
theorem illegalWordsRaiseIllegalCommand : Obligations.IllegalWordsRaiseIllegalCommand := by
  refine ⟨fun w => ?_, fun _ _ _ _ hport hdec => Machine.step_illegalWord hport hdec⟩
  rw [decode_eq_error_iff_toNat]
  simp only [rows, List.cons_append, List.nil_append, List.forall_mem_cons, and_argOf_0xFFFF_eq_zero_iff,
    and_argOf_0xFF00_eq_zero, and_argOf_0xFFFE_eq_zero_iff, argOf_eq_zero_iff, toNat_argOf]
  generalize w.toNat / 256 = op, w.toNat % 256 = arg
  by_cases hop : op ∈ [0x10, 0x11, 0x12, 0x20, 0x21, 0x30, 0x31, 0x32, 0x33, 0x34, 0x40, 0x41, 0x42, 0x43, 0x44,
      0xF0, 0xFF]
  · fin_cases hop <;> simp [Nat.succ_le_iff]
  · simp_all

end Sys2Proof

namespace Sys2Proof.Machine

variable {s t : State} {i : Instr}

/-! Commands one after the other (R6), and the staging of a bit string (R65, R68). -/

theorem execAll_cons (h : exec i s = .next t) (is : List Instr) : execAll (i :: is) s = execAll is t := by
  rw [execAll, h]

theorem execAll_singleton (i : Instr) (s : State) : execAll [i] s = exec i s := by
  rw [execAll]
  cases exec i s <;> rfl

theorem exec_lutStgClr (s : State) : exec .lutStgClr s =
    .next { s with tab := { s.tab with stg := [] }, rsps := s.rsps ++ [0x0000000000#40] } := rfl

theorem exec_lutBit_of_length_lt (b : Bool) (h : s.tab.stg.length < maxLen) :
    exec (.lutBit (if b then 1 else 0)) s =
      .next { s with tab := { s.tab with stg := s.tab.stg ++ [b] }, rsps := s.rsps ++ [0x0000000000#40] } := by
  have hb : bitOperand (if b then 1 else 0) = b := by cases b <;> rfl
  rw [exec, execLutBit, if_neg h.ne, hb]
  rfl

/-- `LUT.BIT`s append their bits to the staging register while it has room, one empty response each (R65). -/
theorem execAll_lutBits (bits : BitString) (is : List Instr) (h : s.tab.stg.length + bits.length ≤ maxLen) :
    execAll ((bits.map fun b => .lutBit (if b then 1 else 0)) ++ is) s =
      execAll is { s with
        tab := { s.tab with stg := s.tab.stg ++ bits }
        rsps := s.rsps ++ List.replicate bits.length 0x0000000000#40 } := by
  induction bits generalizing s with
  | nil => simp
  | cons b bits ih =>
    rw [List.length_cons] at h
    rw [List.map_cons, List.cons_append, execAll_cons (exec_lutBit_of_length_lt b (by omega)), ih]
    · simp [List.replicate_succ]
    · rw [List.length_append, List.length_singleton]
      omega

/-- Settles O6: `LUT.STGCLR` empties the staging register, the bits fit into it, `LUT.COMMIT` comes last. -/
theorem lutAddStagesItsBitsAndCommits : Obligations.LutAddStagesItsBitsAndCommits := by
  intro sym bits s hlen
  rw [Pseudo.expand, List.cons_append, execAll_cons (exec_lutStgClr s), execAll_lutBits _ _ (by simpa using hlen),
    execAll_singleton]
  simp [List.replicate_succ]

/-! The examples written out in R44, R47, R51 and R52. -/

/-- Settles O4: closed words, evaluated. -/
theorem sampleWordsDecodeAsTheTableSays : Obligations.SampleWordsDecodeAsTheTableSays := by
  unfold Obligations.SampleWordsDecodeAsTheTableSays
  decide

/-- Settles O5: closed lines, evaluated. -/
theorem assemblerExamples : Obligations.AssemblerExamples := by
  unfold Obligations.AssemblerExamples
  decide

end Sys2Proof.Machine

/-! Proofs of the statements of spec/40_bit_writer.md: what `BW.OPEN`, `BW.WRITE` and `BW.FLUSH` do in every state, and
the packing law. The state after the writes is `State.written`; one more write appends one bit to it
(`exec_bwWrite_written`), and the law is an induction on the bits, the last one first. -/

namespace Sys2Proof.Machine

variable {s t : State}

/-! ## One bit of a byte -/

theorem byteBit_setByteBit_self (v : Byte) {i : Nat} (b : Bool) (hi : i < 8) : byteBit (setByteBit v i b) i = b := by
  cases b <;> simp [byteBit, setByteBit, hi]

theorem setByteBit_getLsbD (v : Byte) {i : Nat} (j : Nat) (b : Bool) (hi : i < 8) :
    (setByteBit v i b).getLsbD j = if j = i then b else v.getLsbD j := by
  by_cases h : j = i
  · rw [if_pos h, h]
    exact byteBit_setByteBit_self v b hi
  · rw [if_neg h]
    exact byteBit_setByteBit_ne b h

/-! ## The three commands (R53 to R55) -/

/-- R44: `BW.WRITE v` is 0x1100 + v. -/
theorem encode_bwWrite (v : Byte) : encode (.bwWrite v) = 0x1100 + v.setWidth 16 := by
  have hv := v.isLt
  apply BitVec.eq_of_toNat_eq
  rw [encode, cmdWord, toNat_append_eq_add]
  bv_omega

theorem exec_bwOpen_of_snkWr (h : s.params.snkWr = true) :
    exec .bwOpen s = .next { s with bw := ⟨true, 0x00, 0⟩, rsps := s.rsps ++ [0x0000000000#40] } := by
  rw [exec, execBwOpen, if_neg (by simp [h])]
  rfl

/-- Settles O14, by the strap `snk_wr`. -/
theorem bwOpenConstructsAnEmptyWriter : Obligations.BwOpenConstructsAnEmptyWriter := by
  refine ⟨by decide, fun s => ⟨exec_bwOpen_of_snkWr, fun h => ?_⟩⟩
  rw [exec, execBwOpen, if_pos h, raised_eq]

theorem bitWrite_eq (b : Bool) (s : State) :
    bitWrite b s =
      if s.bw.cnt = 7 then
        { s with
          bw := ⟨s.bw.opened, 0x00, 0⟩
          snk := s.snk ++ [setByteBit s.bw.buf (7 - s.bw.cnt.toNat) b] }
      else { s with bw := ⟨s.bw.opened, setByteBit s.bw.buf (7 - s.bw.cnt.toNat) b, s.bw.cnt + 1⟩ } := rfl

theorem exec_bwWrite_of_opened (b : Bool) (ho : s.bw.opened = true) :
    exec (.bwWrite (if b then 1 else 0)) s =
      if s.bw.cnt = 7 then
        .next { s with
          bw := ⟨true, 0x00, 0⟩
          snk := s.snk ++ [setByteBit s.bw.buf (7 - s.bw.cnt.toNat) b]
          rsps := s.rsps ++ [0x0000000000#40] }
      else
        .next { s with
          bw := ⟨true, setByteBit s.bw.buf (7 - s.bw.cnt.toNat) b, s.bw.cnt + 1⟩
          rsps := s.rsps ++ [0x0000000000#40] } := by
  have hexec : exec (.bwWrite (if b then 1 else 0)) s = completed .none (bitWrite b s) := by
    cases b <;> rw [exec, execBwWrite, if_neg (by simp [ho])] <;> rfl
  rw [hexec, bitWrite_eq, ho]
  split <;> rfl

/-- Settles O15: the byte is `bw_buf` with bit `7 - bw_cnt` set to the bit written. -/
theorem bwWriteSetsTheNextBitAndPushesTheEighth : Obligations.BwWriteSetsTheNextBitAndPushesTheEighth := by
  refine fun v s => ⟨(decodeReadsExactlyTheEncodings _ _).mpr ⟨rfl, encode_bwWrite v⟩, fun hc => ?_,
    fun ho h0 h1 => ?_, fun ho hv => ⟨setByteBit s.bw.buf (7 - s.bw.cnt.toNat) (decide (v = 1)), fun j _ => ?_, ?_⟩⟩
  · rw [exec, execBwWrite, if_pos hc, raised_eq]
  · have hbit : isBitValue v = false := by
      rw [isBitValue, beq_false_of_ne h0, beq_false_of_ne h1, Bool.or_false]
    rw [exec, execBwWrite, if_neg (by simp [ho]), if_pos hbit, raised_eq]
  · exact setByteBit_getLsbD _ j _ (by omega)
  · rcases hv with rfl | rfl
    · exact exec_bwWrite_of_opened false ho
    · exact exec_bwWrite_of_opened true ho

theorem exec_bwFlush_of_opened (ho : s.bw.opened = true) :
    exec .bwFlush s = .next { s with
      bw := ⟨true, 0x00, 0⟩
      snk := if 0 < s.bw.cnt.toNat then s.snk ++ [s.bw.buf] else s.snk
      rsps := s.rsps ++ [0x0000000000#40] } := by
  have hbw : ({ s.bw with buf := 0, cnt := 0 } : Writer) = ⟨true, 0x00, 0⟩ :=
    congrArg (Writer.mk · 0x00 0) ho
  rw [exec, execBwFlush, if_neg (by simp [ho]), hbw]
  by_cases h : s.bw.cnt = 0
  · rw [if_pos h, if_neg (by simp [h])]
    rfl
  · rw [if_neg h, if_pos (by bv_omega)]
    rfl

/-- Settles O16: an open writer by `exec_bwFlush_of_opened`, a closed one refuses. -/
theorem bwFlushPushesThePartialByte : Obligations.BwFlushPushesThePartialByte := by
  refine ⟨by decide, fun s => ⟨fun hc => ?_, exec_bwFlush_of_opened⟩⟩
  rw [exec, execBwFlush, if_pos hc, raised_eq]

/-! ## Packing, bit by bit (R32, R56) -/

theorem packByte_nil : packByte [] = 0 := by decide

/-- Writing a bit after the bits of a byte. -/
theorem setByteBit_packByte (b : Bool) {c : BitString} (hc : c.length < 8) :
    setByteBit (packByte c) (7 - c.length) b = packByte (c ++ [b]) := by
  refine BitVec.eq_of_getLsbD_eq fun j hj => ?_
  obtain ⟨i, hi, rfl⟩ : ∃ i < 8, j = 7 - i := ⟨7 - j, by omega, by omega⟩
  rw [setByteBit_getLsbD _ _ _ (by omega), packByte_getLsbD _ hi, packByte_getLsbD _ hi]
  rcases Nat.lt_trichotomy i c.length with h | rfl | h
  · rw [if_neg (by omega), List.getD_append _ _ _ _ h]
  · simp
  · rw [if_neg (by omega), List.getD_eq_default _ _ h.le, List.getD_eq_default _ _ (by simpa using h)]

/-- The bytes that are full stay as they are when more bits follow. -/
theorem take_packBits_append (c d : BitString) {m : Nat} (hm : 8 * m ≤ c.length) :
    (packBits (c ++ d)).take m = (packBits c).take m := by
  refine List.ext_getElem? fun j => ?_
  by_cases hj : j < m
  · have hbyte : ((c ++ d).drop (8 * j)).take 8 = (c.drop (8 * j)).take 8 := by
      rw [List.drop_append_of_le_length (by omega), List.take_append_of_le_length (by simp; omega)]
    rw [List.getElem?_take_of_lt hj, List.getElem?_take_of_lt hj, packBits_getElem? (by rw [ceil8_eq]; simp; omega),
      packBits_getElem? (by rw [ceil8_eq]; omega), hbyte]
  · rw [List.getElem?_take_eq_none (Nat.le_of_not_lt hj), List.getElem?_take_eq_none (Nat.le_of_not_lt hj)]

/-- The last byte, full or not, behind the full ones before it. -/
theorem take_succ_packBits {c : BitString} {m : Nat} (hm : 8 * m < c.length) (hc : c.length ≤ 8 * m + 8) :
    (packBits c).take (m + 1) = (packBits c).take m ++ [packByte (c.drop (8 * m))] := by
  have hlast : (packBits c)[m]? = some (packByte (c.drop (8 * m))) := by
    rw [packBits_getElem? (by rw [ceil8_eq]; omega), List.take_of_length_le (by simp; omega)]
  rw [List.take_add_one, hlast, Option.toList_some]

/-! ## The packing law (R56) -/

theorem execAll_append {is : List Instr} (h : execAll is s = .next t) (js : List Instr) :
    execAll (is ++ js) s = execAll js t := by
  induction is generalizing s with
  | nil =>
    cases h
    rfl
  | cons i is ih =>
    rw [execAll] at h
    rw [List.cons_append, execAll]
    cases hi : exec i s with
    | next u =>
      rw [hi] at h
      exact ih h
    | fault r => cases r
    | refused r => simp [hi] at h

/-- The state after `BW.OPEN` and one `BW.WRITE` per bit, as R56 gives it. -/
def State.written (bits : BitString) (s : State) : State :=
  { s with
    bw := ⟨true, packByte (bits.drop (8 * (bits.length / 8))), BitVec.ofNat 3 (bits.length % 8)⟩
    snk := s.snk ++ (packBits bits).take (bits.length / 8)
    rsps := s.rsps ++ List.replicate (bits.length + 1) 0x0000000000#40 }

theorem State.written_cnt_toNat (bits : BitString) (s : State) : (s.written bits).bw.cnt.toNat = bits.length % 8 := by
  rw [State.written, BitVec.toNat_ofNat]
  omega

/-- The byte that the next write makes of the buffer (R54) holds the rest of the bits with the new one. -/
theorem State.written_setByteBit (bits : BitString) (b : Bool) (s : State) :
    setByteBit (s.written bits).bw.buf (7 - (s.written bits).bw.cnt.toNat) b =
      packByte ((bits ++ [b]).drop (8 * (bits.length / 8))) := by
  have hlen : (bits.drop (8 * (bits.length / 8))).length = bits.length % 8 := by
    rw [List.length_drop]
    omega
  rw [State.written_cnt_toNat, ← hlen, List.drop_append_of_le_length (by omega)]
  exact setByteBit_packByte b (by omega)

/-- One more bit: the eighth bit of a byte completes it, any other one joins the buffer. -/
theorem exec_bwWrite_written (bits : BitString) (b : Bool) (s : State) :
    exec (.bwWrite (if b then 1 else 0)) (s.written bits) = .next (s.written (bits ++ [b])) := by
  have hcnt := s.written_cnt_toNat bits
  have hlen : (bits ++ [b]).length = bits.length + 1 := List.length_append
  have hfull := take_packBits_append bits [b] (m := bits.length / 8) (by omega)
  rw [exec_bwWrite_of_opened b rfl, State.written_setByteBit]
  by_cases h : bits.length % 8 = 7
  · have hdiv : (bits.length + 1) / 8 = bits.length / 8 + 1 := by omega
    have hmod : (bits.length + 1) % 8 = 0 := by omega
    have hpack : (packBits (bits ++ [b])).take (bits.length / 8 + 1) =
        (packBits bits).take (bits.length / 8) ++ [packByte ((bits ++ [b]).drop (8 * (bits.length / 8)))] := by
      rw [take_succ_packBits (by omega) (by omega), hfull]
    have hempty : (bits ++ [b]).drop (8 * (bits.length / 8 + 1)) = [] := List.drop_eq_nil_of_le (by omega)
    rw [if_pos (BitVec.eq_of_toNat_eq (by rw [hcnt, h]; rfl))]
    simp only [State.written, hlen, hdiv, hmod, hpack, hempty, packByte_nil, List.append_assoc, ← List.replicate_succ']
    rfl
  · have hdiv : (bits.length + 1) / 8 = bits.length / 8 := by omega
    have hmod : (bits.length + 1) % 8 = bits.length % 8 + 1 := by omega
    rw [if_neg fun h7 => h (hcnt.symm.trans (congrArg BitVec.toNat h7))]
    simp only [State.written, hlen, hdiv, hmod, hfull, BitVec.ofNat_add, List.append_assoc, ← List.replicate_succ']
    rfl

/-- The first half of R56. -/
theorem execAll_bwWrites (bits : BitString) (h : s.params.snkWr = true) :
    execAll (.bwOpen :: bits.map fun b => .bwWrite (if b then 1 else 0)) s = .next (s.written bits) := by
  induction bits using List.reverseRecOn with
  | nil =>
    rw [List.map_nil, execAll_singleton, exec_bwOpen_of_snkWr h]
    simp [State.written, packByte_nil]
  | append_singleton bits b ih =>
    rw [List.map_append, ← List.cons_append, execAll_append ih, List.map_singleton, execAll_singleton,
      exec_bwWrite_written]

/-- What is left over of the last byte, if anything, completes the packing. -/
theorem State.written_snk_flushed (bits : BitString) (s : State) :
    (if 0 < bits.length % 8 then (s.written bits).snk ++ [(s.written bits).bw.buf] else (s.written bits).snk) =
      s.snk ++ packBits bits := by
  have hlen : (packBits bits).length = (bits.length + 7) / 8 := by rw [packBits_length, ceil8_eq]
  split
  · rw [State.written, List.append_assoc, ← take_succ_packBits (by omega) (by omega),
      List.take_of_length_le (by omega)]
  · rw [State.written, List.take_of_length_le (by omega)]

/-- Settles O18, by induction on the bits written, the last one first (`execAll_bwWrites`). -/
theorem writerPacksWhatIsWritten : Obligations.WriterPacksWhatIsWritten := by
  refine fun bits s h => ⟨execAll_bwWrites bits h, ?_⟩
  rw [execAll_append (execAll_bwWrites bits h), execAll_singleton, exec_bwFlush_of_opened rfl,
    State.written_cnt_toNat, State.written_snk_flushed]
  simp only [State.written, List.append_assoc, ← List.replicate_succ']

end Sys2Proof.Machine

/-! Proofs of the statements of spec/41_bit_reader.md: what `BR.OPEN` and `BR.READ` do in every state, and the laws of
many reads. `BitRead()` delivers the head of `State.bitsAhead` and leaves its tail (`bitRead_fst`,
`bitRead_snd_bitsAhead`); the state after n reads is `State.read` iterated, and each law reads off its bits ahead. -/

namespace Sys2Proof.Machine

variable {s t : State} {b : Bool} {x : Byte} {rest : List Byte}

/-! ## `BitRead()`, case by case (R57) -/

theorem bitRead_of_eos (he : s.br.eos = true) : bitRead s = (none, s) := by
  rw [bitRead, if_pos he]

theorem bitRead_of_src_nil (he : s.br.eos = false) (hp : s.br.pos.val = 8) (hs : s.src = []) :
    bitRead s = (none, { s with br := { s.br with eos := true } }) := by
  rw [bitRead, if_neg (by simp [he]), if_pos hp, srcPull_nil hs]

theorem bitRead_of_src_cons (he : s.br.eos = false) (hp : s.br.pos.val = 8) (hs : s.src = x :: rest) :
    bitRead s = (some (byteBit x 7), { s with src := rest, br := { s.br with cur := x, pos := 1 } }) := by
  rw [bitRead, if_neg (by simp [he]), if_pos hp, srcPull_cons hs]
  rfl

theorem bitRead_of_pos_lt (he : s.br.eos = false) (hlt : s.br.pos.val < 8) :
    bitRead s = (some (byteBit s.br.cur (7 - s.br.pos.val)),
      { s with br := { s.br with pos := ⟨s.br.pos.val + 1, by omega⟩ } }) := by
  rw [bitRead, if_neg (by simp [he]), if_neg hlt.ne, deliverBit, dif_pos hlt]

/-! ## The two commands (R58, R59) -/

/-- The state after `BR.OPEN` on a source that begins with x (R58). -/
def State.openedOn (x : Byte) (rest : List Byte) (s : State) : State :=
  { s with br := ⟨true, x, 0, false⟩, src := rest, rsps := s.rsps ++ [0x0000000000#40] }

theorem exec_brOpen_of_src_nil (hr : s.dec.state ≠ .run) (hrd : s.params.srcRd = true) (hs : s.src = []) :
    exec .brOpen s = .next (s.raise .emptySource) := by
  rw [exec, execBrOpen, interlocked_free hr, if_neg (by simp [hrd]), srcPull_nil hs]
  rfl

theorem exec_brOpen_of_src_cons (hr : s.dec.state ≠ .run) (hrd : s.params.srcRd = true) (hs : s.src = x :: rest) :
    exec .brOpen s = .next (s.openedOn x rest) := by
  rw [exec, execBrOpen, interlocked_free hr, if_neg (by simp [hrd]), srcPull_cons hs]
  rfl

/-- Settles O20, by the interlock, the strap `src_rd` and the first pull. -/
theorem brOpenPullsTheFirstByteEagerly : Obligations.BrOpenPullsTheFirstByteEagerly := by
  refine ⟨by decide, fun s => ⟨fun hr => ?_, fun hr hrd => ?_, exec_brOpen_of_src_nil,
    fun x rest => exec_brOpen_of_src_cons⟩⟩
  · rw [exec, execBrOpen, interlocked_run hr]
  · rw [exec, execBrOpen, interlocked_free hr, if_pos hrd, raised_eq]

/-- What `BR.READ` answers to the outcome of `BitRead()` (R59): a bit, or `EOS`. -/
def readReply : Option Bool → Reply
  | none => .eos
  | some b => .bit b

@[simp] theorem readReply_none_word : (readReply none).word = 0x0200000000#40 := rfl

@[simp] theorem readReply_some_word (b : Bool) :
    (readReply (some b)).word = if b then 0x0100000001#40 else 0x0100000000#40 := by
  cases b <;> rfl

/-- The state after a `BR.READ` that runs (R59). -/
def State.read (s : State) : State := (bitRead s).2.complete (readReply (bitRead s).1)

theorem exec_brRead_of_opened (hr : s.dec.state ≠ .run) (ho : s.br.opened = true) :
    exec .brRead s = .next s.read := by
  rw [exec, execBrRead, interlocked_free hr, if_neg (by simp [ho]), State.read]
  rcases bitRead s with ⟨_ | b, u⟩ <;> rfl

/-- `exec_brRead_of_opened` with the outcome of `BitRead()` given. -/
theorem exec_brRead_of_bitRead {o : Option Bool} (hr : s.dec.state ≠ .run) (ho : s.br.opened = true)
    (h : bitRead s = (o, t)) : exec .brRead s = .next (t.complete (readReply o)) := by
  rw [exec_brRead_of_opened hr ho, State.read, h]

/-- Settles O21, by the cases of `BitRead()`. -/
theorem brReadDeliversTheNextBit : Obligations.BrReadDeliversTheNextBit := by
  refine ⟨by decide, fun s => ⟨fun h => ?_, fun hr ho he => ?_, fun hr ho he hp hs => ?_,
    fun x rest hr ho he hp hs => ?_, fun hr ho he hlt => ⟨⟨s.br.pos.val + 1, by omega⟩, rfl, ?_⟩⟩⟩
  · rw [exec, execBrRead]
    by_cases hr : s.dec.state = .run
    · exact interlocked_run hr
    · rw [interlocked_free hr, if_pos (h.resolve_left hr), raised_eq]
  · exact exec_brRead_of_bitRead hr ho (bitRead_of_eos he)
  · exact exec_brRead_of_bitRead hr ho (bitRead_of_src_nil he hp hs)
  · rw [exec_brRead_of_bitRead hr ho (bitRead_of_src_cons he hp hs), State.complete, readReply_some_word]
    have hbr : ({ s.br with cur := x, pos := 1 } : Reader) = ⟨true, x, 1, false⟩ :=
      congrArg₂ (Reader.mk · x 1 ·) ho he
    rw [hbr]
    rfl
  · rw [exec_brRead_of_bitRead hr ho (bitRead_of_pos_lt he hlt), State.complete, readReply_some_word]
    rfl

/-! ## The bits ahead of the reader (R57) -/

theorem unpackBytes_length (bs : List Byte) : (unpackBytes bs).length = 8 * bs.length := by
  simp [unpackBytes, Nat.mul_comm]

theorem byteBits_drop (x : Byte) {i : Nat} (hi : i < 8) :
    (byteBits x).drop i = byteBit x (7 - i) :: (byteBits x).drop (i + 1) := by
  interval_cases i <;> rfl

theorem State.bitsAhead_of_eos (he : s.br.eos = true) : s.bitsAhead = [] := by
  rw [State.bitsAhead, if_pos he]

theorem State.bitsAhead_of_not_eos (he : s.br.eos = false) :
    s.bitsAhead = (byteBits s.br.cur).drop s.br.pos.val ++ unpackBytes s.src := by
  rw [State.bitsAhead, if_neg (by simp [he])]

theorem State.bitsAhead_length (he : s.br.eos = false) : s.bitsAhead.length = bitsLeft s := by
  rw [State.bitsAhead_of_not_eos he, List.length_append, List.length_drop, byteBits_length, unpackBytes_length,
    bitsLeft]

/-- With the current byte exhausted only the source is ahead. -/
theorem State.bitsAhead_of_pos_eq (he : s.br.eos = false) (hp : s.br.pos.val = 8) :
    s.bitsAhead = unpackBytes s.src := by
  rw [State.bitsAhead_of_not_eos he, hp, List.drop_of_length_le (byteBits_length _).le, List.nil_append]

/-- `BitRead()` takes the first of the bits ahead, if there is one, and leaves the others. -/
theorem bitRead_bitsAhead (s : State) :
    (bitRead s).1 = s.bitsAhead.head? ∧ (bitRead s).2.bitsAhead = s.bitsAhead.tail := by
  rcases bitRead_cases s with ⟨he, hb⟩ | ⟨he, hp, hs, hb⟩ | ⟨x, rest, he, hp, hs, hb⟩ | ⟨hlt, he, hb⟩ <;> rw [hb]
  · rw [State.bitsAhead_of_eos he]
    exact ⟨rfl, rfl⟩
  · rw [State.bitsAhead_of_pos_eq he hp, hs, State.bitsAhead_of_eos rfl]
    exact ⟨rfl, rfl⟩
  · rw [State.bitsAhead_of_pos_eq he hp, hs]
    exact ⟨rfl, State.bitsAhead_of_not_eos he⟩
  · rw [State.bitsAhead_of_not_eos he, byteBits_drop _ hlt]
    exact ⟨rfl, State.bitsAhead_of_not_eos he⟩

theorem bitRead_fst (s : State) : (bitRead s).1 = s.bitsAhead.head? := (bitRead_bitsAhead s).1

theorem bitRead_snd_bitsAhead (s : State) : (bitRead s).2.bitsAhead = s.bitsAhead.tail := (bitRead_bitsAhead s).2

theorem bitRead_opened (s : State) : (bitRead s).2.br.opened = s.br.opened := by
  rcases bitRead_cases s with ⟨_, hb⟩ | ⟨_, _, _, hb⟩ | ⟨x, rest, _, _, _, hb⟩ | ⟨_, _, hb⟩ <;> rw [hb]

/-- A delivered bit was taken from a byte that the reader holds. -/
theorem bitTaken_of_bitRead (h : bitRead s = (some b, t)) : BitTaken s b t := by
  rcases bitRead_cases s with ⟨_, hb⟩ | ⟨_, _, _, hb⟩ | ⟨x, rest, he, hp, hs, hb⟩ | ⟨hlt, he, hb⟩ <;> rw [hb] at h <;>
    cases h
  · exact .pulled x rest he hp hs
  · exact .current _ he hlt rfl

theorem BitTaken.eos_eq_false (h : BitTaken s b t) : t.br.eos = false := by
  cases h with
  | current p he _ _ => exact he
  | pulled x rest he _ _ => exact he

theorem BitTaken.pos_pos (h : BitTaken s b t) : 0 < t.br.pos.val := by
  cases h with
  | current p _ _ hp => exact hp ▸ Nat.succ_pos _
  | pulled x rest _ _ _ => exact Nat.one_pos

/-! ## One read after the other -/

theorem State.read_opened (s : State) : s.read.br.opened = s.br.opened := bitRead_opened s

theorem State.read_dec (s : State) : s.read.dec = s.dec := (bitRead_dec_params (u := (bitRead s).2) rfl).1

theorem State.read_bitsAhead (s : State) : s.read.bitsAhead = s.bitsAhead.tail := bitRead_snd_bitsAhead s

theorem State.read_src_suffix (s : State) : s.read.src <:+ s.src := (bitRead_moves (push := 0) (emit := 0) s).src

theorem State.read_rsps (s : State) : s.read.rsps = s.rsps ++ [(readReply s.bitsAhead.head?).word] := by
  rw [State.read, State.complete_rsps, bitRead_fst, bitRead_frame]

/-- A read with a bit ahead leaves a reader that has delivered a bit of its byte. -/
theorem State.read_eos_pos (h : s.bitsAhead ≠ []) : s.read.br.eos = false ∧ 0 < s.read.br.pos.val := by
  obtain ⟨b, w, hw⟩ := List.exists_cons_of_ne_nil h
  have hb : bitRead s = (some b, (bitRead s).2) := Prod.ext (by rw [bitRead_fst, hw, List.head?_cons]) rfl
  exact ⟨(bitTaken_of_bitRead hb).eos_eq_false, (bitTaken_of_bitRead hb).pos_pos⟩

theorem execAll_brReads (n : Nat) (hr : s.dec.state ≠ .run) (ho : s.br.opened = true) :
    execAll (List.replicate n .brRead) s = .next (State.read^[n] s) := by
  induction n generalizing s with
  | zero => rfl
  | succ n ih =>
    rw [List.replicate_succ, execAll_cons (exec_brRead_of_opened hr ho), Function.iterate_succ_apply]
    exact ih (by rwa [State.read_dec]) (by rwa [State.read_opened])

theorem State.reads_bitsAhead (n : Nat) (s : State) : (State.read^[n] s).bitsAhead = s.bitsAhead.drop n := by
  induction n with
  | zero => rfl
  | succ n ih => rw [Function.iterate_succ_apply', State.read_bitsAhead, ih, List.tail_drop]

theorem State.reads_src_suffix (n : Nat) (s : State) : (State.read^[n] s).src <:+ s.src := by
  induction n with
  | zero => exact List.suffix_rfl
  | succ n ih =>
    rw [Function.iterate_succ_apply']
    exact (State.read_src_suffix _).trans ih

/-- Read i is answered by bit i of the bits ahead, or by `EOS` where there is none. -/
theorem State.reads_rsps (n : Nat) (s : State) : (State.read^[n] s).rsps =
    s.rsps ++ (List.range n).map fun i => (readReply s.bitsAhead[i]?).word := by
  induction n with
  | zero => exact (List.append_nil _).symm
  | succ n ih =>
    rw [Function.iterate_succ_apply', State.read_rsps, ih, State.reads_bitsAhead, List.head?_drop, List.range_succ,
      List.map_append, List.append_assoc, List.map_singleton]

/-- After n + 1 reads that all found a bit, the last one has delivered a bit of its byte. -/
theorem State.reads_eos_pos {n : Nat} (h : n < s.bitsAhead.length) :
    (State.read^[n + 1] s).br.eos = false ∧ 0 < (State.read^[n + 1] s).br.pos.val := by
  rw [Function.iterate_succ_apply']
  refine State.read_eos_pos (List.ne_nil_of_length_pos ?_)
  rw [State.reads_bitsAhead, List.length_drop]
  omega

/-- No byte is pulled early (R57): fewer than 8 of the bits ahead are in the current byte. -/
theorem State.reads_src_length {n : Nat} (h : n < s.bitsAhead.length) :
    (State.read^[n + 1] s).src.length = (s.bitsAhead.length - (n + 1)) / 8 := by
  obtain ⟨heos, hpos⟩ := State.reads_eos_pos h
  have hleft := State.bitsAhead_length heos
  rw [State.reads_bitsAhead, List.length_drop, bitsLeft] at hleft
  omega

/-! ## A reader from its construction on (R58, R60) -/

theorem State.openedOn_bitsAhead (x : Byte) (rest : List Byte) (s : State) :
    (s.openedOn x rest).bitsAhead = unpackBytes (x :: rest) := rfl

theorem execAll_brOpen_brReads (n : Nat) (hr : s.dec.state ≠ .run) (hrd : s.params.srcRd = true)
    (hs : s.src = x :: rest) :
    execAll (.brOpen :: List.replicate n .brRead) s = .next (State.read^[n] (s.openedOn x rest)) := by
  rw [execAll_cons (exec_brOpen_of_src_cons hr hrd hs)]
  exact execAll_brReads n hr rfl

/-- Settles O22: the bits ahead after `BR.OPEN` are the unpacked bytes, and `unpackBytes_packBits_getElem?` gives
them. -/
theorem readerDeliversWhatWasPacked : Obligations.ReaderDeliversWhatWasPacked := by
  refine fun bits s hr hrd hs => ⟨fun hb => exec_brOpen_of_src_nil hr hrd (by rw [hs, hb]; rfl), fun hb n => ?_⟩
  have hlen : s.src.length = (bits.length + 7) / 8 := by rw [hs, packBits_length, ceil8_eq]
  have hpos : 0 < bits.length := List.length_pos_iff.mpr hb
  obtain ⟨x, rest, hx⟩ := List.exists_cons_of_length_pos (l := s.src) (by omega)
  refine ⟨_, execAll_brOpen_brReads n hr hrd hx, ?_⟩
  rw [State.reads_rsps, State.openedOn_bitsAhead, ← hx, State.openedOn, List.append_assoc, List.singleton_append]
  congr 3
  funext i
  split
  · rw [hs, unpackBytes_packBits_getElem? bits (by rwa [ceil8_eq]), readReply_some_word]
  · rw [List.getElem?_eq_none (by rw [unpackBytes_length]; omega), readReply_none_word]

/-- Settles O23: the reads leave a suffix of the source, and its length is known (`State.reads_src_length`). -/
theorem readerPullsNoByteEarly : Obligations.ReaderPullsNoByteEarly := by
  intro s n hr hrd hn hle
  obtain ⟨m, rfl⟩ : ∃ m, n = m + 1 := Nat.exists_eq_add_of_le' hn
  obtain ⟨x, rest, hx⟩ := List.exists_cons_of_length_pos (l := s.src) (by omega)
  have hall : (s.openedOn x rest).bitsAhead.length = 8 * s.src.length := by
    rw [State.openedOn_bitsAhead, ← hx, unpackBytes_length]
  have hbit : m < (s.openedOn x rest).bitsAhead.length := by omega
  have hsuf : (State.read^[m + 1] (s.openedOn x rest)).src <:+ s.src :=
    (State.reads_src_suffix _ _).trans (hx ▸ List.suffix_cons x rest)
  refine ⟨_, execAll_brOpen_brReads _ hr hrd hx, ?_, (State.reads_eos_pos hbit).1⟩
  rw [List.suffix_iff_eq_drop.mp hsuf, State.reads_src_length hbit, hall]
  congr 1
  omega

end Sys2Proof.Machine

/-! Proofs of the statements of spec/42_lookup_table.md: the commands of the lookup table, `LutMatch` and `LutPrefix` on
a table that meets R22 item 3, and the laws of R63 and R69. `LutInsert` accepts a pair exactly when the table admits it
(`Table.Admits`); a list of pairs is accepted exactly when each is admitted and any two are apart
(`insertAll_ne_none_iff`), and then enters exactly its pairs (`insertAll_eq_some`). -/

namespace Sys2Proof.Machine

variable {s : State} {tab tab' : Table} {sym a b : Symbol} {c d : BitString}
  {p q : Symbol × BitString} {ps qs : List (Symbol × BitString)}

/-! ## Tables by their entries -/

theorem Table.ext_entry (hentry : ∀ a, tab.entry a = tab'.entry a) (hbad : tab.bad = tab'.bad)
    (hstg : tab.stg = tab'.stg) : tab = tab' := by
  have hlut : tab.lut = tab'.lut := Vector.ext fun i hi => hentry (.ofFin ⟨i, hi⟩)
  cases tab
  cases tab'
  rw [Table.mk.injEq]
  exact ⟨hlut, hbad, hstg⟩

/-- No codeword starts another symbol's codeword (R22 item 3). -/
theorem Table.prefixFree.symbol_eq (hf : tab.prefixFree) (ha : tab.entry a = some c) (hb : tab.entry b = some d)
    (hcd : c <+: d) : a = b := by
  by_contra hab
  have hrel : prefixRelated c d = true := prefixRelated_iff.mpr (.inl hcd)
  exact absurd hrel (by simp [hf.2 a b c d hab ha hb])

/-- No codeword is empty (R18). -/
theorem Table.prefixFree.entry_ne_nil (hf : tab.prefixFree) (a : Symbol) : tab.entry a ≠ some [] :=
  fun ha => absurd (hf.1 a [] ha) (by decide)

/-! ## The lookup functions (R61, R62) -/

theorem isProperPrefix_iff_ne : isProperPrefix c d = true ↔ c <+: d ∧ c ≠ d := by
  rw [isProperPrefix_iff]
  refine and_congr_right fun hcd => ⟨fun hlt heq => absurd hlt (by simp [heq]), fun hne => ?_⟩
  exact lt_of_le_of_ne hcd.length_le fun hlen => hne (hcd.eq_of_length hlen)

theorem lutPrefix_iff_ne : lutPrefix c tab = true ↔ ∃ a d, tab.entry a = some d ∧ c <+: d ∧ c ≠ d := by
  simp only [lutPrefix_iff, isProperPrefix_iff_ne]

theorem lutMatch_eq_some_iff (hf : tab.prefixFree) : lutMatch c tab = some a ↔ tab.entry a = some c := by
  refine ⟨lutMatch_some, fun ha => ?_⟩
  cases hm : lutMatch c tab with
  | none => exact absurd ha (lutMatch_none_iff.mp hm a)
  | some b => rw [hf.symbol_eq (lutMatch_some hm) ha (List.prefix_refl c)]

/-- Settles O29: a codeword that starts a codeword is that codeword, so no match is a proper start. -/
theorem lookupFunctionsOnAPrefixFreeTable : Obligations.LookupFunctionsOnAPrefixFreeTable := by
  refine fun tab c hf => ⟨fun a => lutMatch_eq_some_iff hf, lutPrefix_iff_ne, fun ⟨hm, hp⟩ => ?_,
    lutMatch_none_iff.mpr hf.entry_ne_nil,
    lutPrefix_iff_ne.trans ⟨fun ⟨a, d, hd, _⟩ => ⟨a, by simp [hd]⟩, fun ⟨a, ha⟩ => ?_⟩⟩
  · obtain ⟨a, ha⟩ := Option.ne_none_iff_exists'.mp hm
    obtain ⟨b, d, hb, hcd, hne⟩ := lutPrefix_iff_ne.mp hp
    have hac := lutMatch_some ha
    obtain rfl := hf.symbol_eq hac hb hcd
    exact hne (Option.some.inj (hac.symm.trans hb))
  · obtain ⟨d, hd⟩ := Option.ne_none_iff_exists'.mp ha
    exact ⟨a, d, hd, List.nil_prefix, fun h => hf.entry_ne_nil a (h ▸ hd)⟩

/-! ## `LutInsert` (R63) -/

/-- The pair meets none of the conditions under which `LutInsert` raises (R63). -/
def Table.Admits (tab : Table) (p : Symbol × BitString) : Prop :=
  p.2 ≠ [] ∧ tab.entry p.1 = none ∧ ∀ a d, tab.entry a = some d → ¬ d <+: p.2 ∧ ¬ p.2 <+: d

theorem Table.Admits.entry_eq_none : tab.Admits p → tab.entry p.1 = none := fun ⟨_, hfree, _⟩ => hfree

/-- Two pairs that may stand in one table (R22 item 3). -/
def Apart (p q : Symbol × BitString) : Prop := p.1 ≠ q.1 ∧ ¬ p.2 <+: q.2 ∧ ¬ q.2 <+: p.2

theorem Apart.symm : Apart p q → Apart q p := fun ⟨hne, hpq, hqp⟩ => ⟨hne.symm, hqp, hpq⟩

theorem lutCorrupt_eq_false_iff : lutCorrupt p.1 p.2 tab = false ↔ tab.Admits p := by
  rw [← Bool.not_eq_true, lutCorrupt_iff, Table.Admits]
  simp only [prefixRelated_iff, not_or, not_exists, not_and, not_not, ne_eq]

theorem lutInsert_of_admits (h : tab.Admits p) : lutInsert p.1 p.2 tab = some (tab.setEntry p.1 p.2) := by
  simp [lutInsert, lutCorrupt_eq_false_iff.mpr h]

theorem lutInsert_of_not_admits (h : ¬ tab.Admits p) : lutInsert p.1 p.2 tab = none := by
  simpa [lutInsert] using mt lutCorrupt_eq_false_iff.mp h

theorem lutInsert_eq_some_iff :
    lutInsert p.1 p.2 tab = some tab' ↔ tab.Admits p ∧ tab.setEntry p.1 p.2 = tab' := by
  by_cases h : tab.Admits p
  · simp [lutInsert_of_admits h, h]
  · simp [lutInsert_of_not_admits h, h]

theorem Table.admits_reset_iff : Table.reset.Admits p ↔ p.2 ≠ [] := by
  simp [Table.Admits]

/-- Entering a pair in a free place adds it to the entries. -/
theorem Table.entry_setEntry_eq_some_iff (h : tab.entry p.1 = none) :
    (tab.setEntry p.1 p.2).entry a = some c ↔ (a, c) = p ∨ tab.entry a = some c := by
  rw [Table.entry_setEntry]
  by_cases ha : a = p.1
  · simp [ha, h, Prod.ext_iff, eq_comm]
  · simp [ha, Prod.ext_iff]

/-- After p is entered, what the table admits is what it admitted before and is apart from p. -/
theorem Table.admits_setEntry_iff (h : tab.entry p.1 = none) :
    (tab.setEntry p.1 p.2).Admits q ↔ tab.Admits q ∧ Apart p q := by
  have hentry : (tab.setEntry p.1 p.2).entry q.1 = none ↔ tab.entry q.1 = none ∧ p.1 ≠ q.1 := by
    rw [Table.entry_setEntry]
    by_cases hq : q.1 = p.1
    · simp [hq]
    · simp [hq, Ne.symm hq]
  have hrelated : (∀ a d, (tab.setEntry p.1 p.2).entry a = some d → ¬ d <+: q.2 ∧ ¬ q.2 <+: d) ↔
      (¬ p.2 <+: q.2 ∧ ¬ q.2 <+: p.2) ∧ ∀ a d, tab.entry a = some d → ¬ d <+: q.2 ∧ ¬ q.2 <+: d := by
    simp only [Table.entry_setEntry_eq_some_iff h]
    refine ⟨fun hs => ⟨hs _ _ (.inl rfl), fun a d hd => hs a d (.inr hd)⟩, ?_⟩
    rintro ⟨hp, htab⟩ a d (rfl | hd)
    exacts [hp, htab a d hd]
  rw [Table.Admits, Table.Admits, Apart, hentry, hrelated]
  tauto

/-! ## Lists of pairs (R63) -/

theorem insertAll_cons_of_admits (h : tab.Admits p) (ps : List (Symbol × BitString)) :
    insertAll (p :: ps) tab = insertAll ps (tab.setEntry p.1 p.2) := by
  rw [insertAll, lutInsert_of_admits h, Option.bind_some]

theorem insertAll_cons_of_not_admits (h : ¬ tab.Admits p) (ps : List (Symbol × BitString)) :
    insertAll (p :: ps) tab = none := by
  rw [insertAll, lutInsert_of_not_admits h, Option.bind_none]

theorem insertAll_ne_none_iff :
    insertAll ps tab ≠ none ↔ (∀ p ∈ ps, tab.Admits p) ∧ ps.Pairwise Apart := by
  induction ps generalizing tab with
  | nil => simp [insertAll]
  | cons p ps ih =>
    rw [List.forall_mem_cons, List.pairwise_cons]
    by_cases hp : tab.Admits p
    · rw [insertAll_cons_of_admits hp, ih]
      simp only [Table.admits_setEntry_iff hp.entry_eq_none, hp, true_and, forall_and]
      tauto
    · simp [insertAll_cons_of_not_admits hp, hp]

/-- A list that is accepted enters its pairs, keeps the entries it found, and touches neither `lut_bad` nor `stg`. -/
theorem insertAll_eq_some (h : insertAll ps tab = some tab') :
    (∀ a c, tab'.entry a = some c ↔ (a, c) ∈ ps ∨ tab.entry a = some c) ∧
      tab'.bad = tab.bad ∧ tab'.stg = tab.stg := by
  induction ps generalizing tab with
  | nil => cases h; simp
  | cons p ps ih =>
    by_cases hp : tab.Admits p
    · rw [insertAll_cons_of_admits hp] at h
      obtain ⟨hentry, hbad, hstg⟩ := ih h
      refine ⟨fun a c => ?_, hbad, hstg⟩
      rw [hentry, Table.entry_setEntry_eq_some_iff hp.entry_eq_none, List.mem_cons, or_left_comm, or_assoc]
    · simp [insertAll_cons_of_not_admits hp] at h

/-- Settles O30: the list law from the empty table, which admits every pair with a codeword. -/
theorem insertionsPassExactlyForPrefixFreePairs : Obligations.InsertionsPassExactlyForPrefixFreePairs := by
  refine fun pairs => ⟨insertAll_ne_none_iff.trans (and_congr_left' ?_), fun tab h a c => ?_⟩
  · exact forall₂_congr fun p _ => Table.admits_reset_iff
  · obtain ⟨hentry, -, -⟩ := insertAll_eq_some h
    simpa using hentry a c

theorem insertAll_ne_none_perm (h : ps.Perm qs) : insertAll ps tab ≠ none ↔ insertAll qs tab ≠ none := by
  rw [insertAll_ne_none_iff, insertAll_ne_none_iff, h.pairwise_iff Apart.symm]
  simp only [h.mem_iff]

/-- Settles O31: both orders are refused, or both give the table with the same entries. -/
theorem insertionOrderDoesNotMatter : Obligations.InsertionOrderDoesNotMatter := by
  intro ps qs tab hperm
  have hnone := insertAll_ne_none_perm (tab := tab) hperm
  cases hp : insertAll ps tab with
  | none => simpa [hp, eq_comm] using hnone
  | some u =>
    obtain ⟨v, hq⟩ := Option.ne_none_iff_exists'.mp (hnone.mp (by simp [hp]))
    obtain ⟨hu, hubad, hustg⟩ := insertAll_eq_some hp
    obtain ⟨hv, hvbad, hvstg⟩ := insertAll_eq_some hq
    rw [hq, Table.ext_entry (tab := u) (tab' := v) _ (hubad.trans hvbad.symm) (hustg.trans hvstg.symm)]
    exact fun a => Option.ext fun c => by simp only [hu, hv, hperm.mem_iff]

/-! ## How many codewords there are (R18, R69 item 3) -/

theorem countEntries_eq_countP (es : List (Option BitString)) : countEntries es = es.countP Option.isSome := by
  induction es with
  | nil => rfl
  | cons e es ih => cases e <;> simp [countEntries, ih]

theorem Table.count_le (tab : Table) : tab.count ≤ nEnt := by
  rw [Table.count, countEntries_eq_countP]
  simpa using List.countP_le_length (p := Option.isSome) (l := tab.lut.toList)

theorem Table.count_setEntry (h : tab.entry a = none) (c : BitString) :
    (tab.setEntry a c).count = tab.count + 1 := by
  have hnone : tab.lut[a.toNat]'a.isLt = none := h
  have hlt : a.toNat < tab.lut.toList.length := by simpa using a.isLt
  rw [Table.count, Table.count, countEntries_eq_countP, countEntries_eq_countP, Table.setEntry, Vector.toList_set,
    List.countP_set hlt, Vector.getElem_toList, hnone]
  rfl

/-- Settles O33: a commit that completes has entered a pair at an entry that was `none`. -/
theorem tableNeverOverflows : Obligations.TableNeverOverflows := by
  refine ⟨Table.count_le, fun sym s t h hrsps => ?_⟩
  have hi := execLutCommit_completes h hrsps
  obtain ⟨⟨-, hfree, -⟩, htab⟩ := lutInsert_eq_some_iff (p := (sym, s.tab.stg)).mp hi
  rw [← htab, Table.count_setEntry hfree]
  rfl

/-! ## Codes (R69 items 1 and 4) -/

/-- Settles O34, by induction on the first sequence: two codewords that start the same string are the same. -/
theorem codewordsDecodeUniquely : Obligations.CodewordsDecodeUniquely := by
  intro tab code xs ys w hf hcode hx hy
  obtain ⟨hxs, hys⟩ := List.forall_mem_append.mp hcode
  clear hcode
  induction xs generalizing ys w with
  | nil => exact .inl List.nil_prefix
  | cons a xs ih =>
    cases ys with
    | nil => exact .inr List.nil_prefix
    | cons b ys =>
      rw [List.flatMap_cons] at hx hy
      rw [List.forall_mem_cons] at hxs hys
      obtain ⟨ha, hxs⟩ := hxs
      obtain ⟨hb, hys⟩ := hys
      have hawx := (List.prefix_append _ _).trans hx
      have hbwx := (List.prefix_append _ _).trans hy
      have hab : a = b := (List.prefix_or_prefix_of_prefix hawx hbwx).elim (hf.symbol_eq ha hb)
        fun h => (hf.symbol_eq hb ha h).symm
      subst hab
      obtain ⟨w', rfl⟩ := hawx
      rw [List.prefix_append_right_inj] at hx hy
      simpa [List.cons_prefix_cons] using ih ys w' hx hy hxs hys

theorem CodeTree.cons_mem_codes {l r : CodeTree} (bit : Bool) (h : p ∈ (bif bit then r else l).codes) :
    (p.1, bit :: p.2) ∈ (CodeTree.node l r).codes := by
  cases bit <;> simpa [CodeTree.codes] using h

/-- Descending a strict binary tree along c, one ends at a leaf or inside the tree, above some leaf. -/
theorem CodeTree.exists_code_related (tree : CodeTree) (c : BitString) :
    ∃ p ∈ tree.codes, p.2 <+: c ∨ c <+: p.2 := by
  induction tree generalizing c with
  | leaf sym => exact ⟨(sym, []), by simp [CodeTree.codes], .inl List.nil_prefix⟩
  | node l r ihl ihr =>
    cases c with
    | nil =>
      obtain ⟨p, hp, -⟩ := ihl []
      exact ⟨_, CodeTree.cons_mem_codes false hp, .inr List.nil_prefix⟩
    | cons bit c =>
      obtain ⟨p, hp, hrel⟩ : ∃ p ∈ (bif bit then r else l).codes, p.2 <+: c ∨ c <+: p.2 := by
        cases bit
        exacts [ihl c, ihr c]
      exact ⟨_, CodeTree.cons_mem_codes bit hp, by simpa [List.cons_prefix_cons] using hrel⟩

/-- Settles O35: the entries are the tree's codes, and one of them is related to c. -/
theorem completeCodesHaveNoDeadEnd : Obligations.CompleteCodesHaveNoDeadEnd := by
  intro tree tab c h
  obtain ⟨p, hp, hrel⟩ := tree.exists_code_related c
  obtain ⟨hentries, -, -⟩ := insertAll_eq_some h
  have hentry : tab.entry p.1 = some p.2 := (hentries p.1 p.2).mpr (.inl hp)
  by_cases hpre : p.2 <+: c
  · exact .inl ⟨p.1, p.2, hentry, hpre⟩
  · exact .inr (lutPrefix_iff_ne.mpr
      ⟨p.1, p.2, hentry, hrel.resolve_left hpre, fun heq => hpre (heq ▸ List.prefix_refl c)⟩)

/-! ## The commands (R64 to R68) -/

theorem cmdWord_eq_add (op arg : Byte) : cmdWord op arg = cmdWord op 0 + arg.setWidth 16 := by
  have harg := arg.isLt
  apply BitVec.eq_of_toNat_eq
  rw [cmdWord, cmdWord, BitVec.toNat_add, toNat_append_eq_add, toNat_append_eq_add]
  bv_omega

/-- Settles O24: the table is as at reset. -/
theorem lutClrEmptiesTheTable : Obligations.LutClrEmptiesTheTable :=
  ⟨by decide, fun _ => ⟨fun hr => by rw [exec, execLutClr, interlocked_run hr],
    fun hr => ⟨Table.reset, Table.entry_reset, rfl, rfl, by rw [exec, execLutClr, interlocked_free hr]; rfl⟩⟩⟩

theorem exec_lutBit_of_length_eq (bit : BitVec 1) (h : s.tab.stg.length = maxLen) :
    exec (.lutBit bit) s = .next (s.raise .illegalCommand) := by
  rw [exec, execLutBit, if_pos h, raised_eq]

/-- Settles O25, for each of the two bits. -/
theorem lutBitAppendsUpTo255Bits : Obligations.LutBitAppendsUpTo255Bits := by
  intro b s
  obtain rfl | rfl := BitVec.eq_zero_or_eq_one b
  · exact ⟨by decide, exec_lutBit_of_length_eq 0, exec_lutBit_of_length_lt false⟩
  · exact ⟨by decide, exec_lutBit_of_length_eq 1, exec_lutBit_of_length_lt true⟩

theorem exec_lutCommit_of_admits (hr : s.dec.state ≠ .run) (h : s.tab.Admits (sym, s.tab.stg)) :
    exec (.lutCommit sym) s = .next { s with
      tab := { s.tab.setEntry sym s.tab.stg with stg := [] }, rsps := s.rsps ++ [0x0000000000#40] } := by
  have hi := lutInsert_of_admits (tab := { s.tab with stg := [] }) h
  rw [exec, execLutCommit, interlocked_free hr]
  simp only [hi]
  rfl

theorem exec_lutCommit_of_not_admits (hr : s.dec.state ≠ .run) (h : ¬ s.tab.Admits (sym, s.tab.stg)) :
    exec (.lutCommit sym) s =
      .next (State.raise .codeTableCorrupt { s with tab := { s.tab with bad := true, stg := [] } }) := by
  have hi := lutInsert_of_not_admits (tab := { s.tab with stg := [] }) h
  rw [exec, execLutCommit, interlocked_free hr]
  simp only [hi]
  rfl

/-- Settles O26: the staged pair is entered when the table admits it, refused when not. -/
theorem lutCommitEntersOrRefusesThePair : Obligations.LutCommitEntersOrRefusesThePair := by
  refine fun sym s => ⟨(decodeReadsExactlyTheEncodings _ _).mpr ⟨rfl, cmdWord_eq_add 0x32 sym⟩,
    fun hr => by rw [exec, execLutCommit, interlocked_run hr],
    fun hr hbad => exec_lutCommit_of_not_admits hr fun ⟨hstg, hfree, hapart⟩ => ?_,
    fun hr hstg hfree hapart => ⟨{ s.tab.setEntry sym s.tab.stg with stg := [] },
      fun a => Table.entry_setEntry s.tab sym a s.tab.stg, rfl, rfl,
      exec_lutCommit_of_admits hr ⟨hstg, hfree, hapart⟩⟩⟩
  rcases hbad with hnil | hcoded | ⟨a, d, hd, hrel⟩
  · exact hstg hnil
  · exact hcoded hfree
  · exact hrel.elim (hapart a d hd).1 (hapart a d hd).2

/-- Settles O27, by what `LutMatch` and `LutPrefix` find. -/
theorem lutQryAnswersCodewordPrefixOrDeadEnd : Obligations.LutQryAnswersCodewordPrefixOrDeadEnd := by
  refine ⟨by decide, fun s => ⟨fun ⟨a, ha⟩ => ?_, fun hnone hpre => ?_, fun hnone hdead => ?_⟩⟩
  · cases hm : lutMatch s.tab.stg s.tab with
    | none => exact absurd ha (lutMatch_none_iff.mp hm a)
    | some b => exact ⟨b, lutMatch_some hm, execLutQry_of_lutMatch hm⟩
  · rw [exec, execLutQry, lutMatch_none_iff.mpr hnone]
    simp only [lutPrefix_iff.mpr hpre]
    rfl
  · rw [exec, execLutQry, lutMatch_none_iff.mpr hnone]
    simp only [mt lutPrefix_iff.mp hdead]
    rfl

/-- Settles O28: the rule of the command, evaluated. -/
theorem lutStgClrEmptiesTheStagingRegister : Obligations.LutStgClrEmptiesTheStagingRegister :=
  ⟨by decide, exec_lutStgClr⟩

end Sys2Proof.Machine

/-! Proofs of the statements of spec/43_decoder_fsm.md, first part: the interlock, what the decoder shares with the
writer, and the commands that read the header and the table block and start a decode. -/

namespace Sys2Proof.Machine

variable {s t u v : State} {i : Instr} {c : Condition} {y : Reply}

/-! ## Where a command raises (R7, R83) -/

/-- A command's answer is not `IllegalCommand`. -/
inductive Granted (s : State) : Result → Prop where
  | answers (u : State) (y : Reply) : u.rsps = s.rsps → Granted s (.next (u.complete y))
  | refuses (u : State) (c : Condition) : u.rsps = s.rsps → c ≠ .illegalCommand → Granted s (.next (u.raise c))

theorem Granted.completed_self (s : State) (y : Reply) : Granted s (completed y s) := .answers s y rfl

theorem Reply.word_ne_condition_word (y : Reply) (c : Condition) : y.word ≠ c.word := by
  intro h
  have hcode := congrArg rspCond h
  rw [rspCond_replyWord, rspCond_conditionWord] at hcode
  cases c <;> exact absurd hcode (by decide)

theorem Condition.word_eq_illegalCommand_iff : c.word = Condition.illegalCommand.word ↔ c = .illegalCommand := by
  cases c <;> decide

theorem Granted.not_raises (h : Granted s (exec i s)) : ¬ raises i s .illegalCommand := by
  rintro ⟨t, ht, hw⟩
  rw [ht] at h
  cases h with
  | answers u y hu =>
    rw [State.complete_rsps, hu] at hw
    exact y.word_ne_condition_word _ (List.append_singleton_inj.mp hw).2
  | refuses u c hu hc =>
    rw [State.raise_rsps, hu] at hw
    exact hc (Condition.word_eq_illegalCommand_iff.mp (List.append_singleton_inj.mp hw).2)

/-- A command that raises `IllegalCommand` where P holds and is granted elsewhere. -/
theorem raises_illegalCommand_iff_of {P : Prop} (hyes : P → exec i s = .next (s.raise .illegalCommand))
    (hno : ¬ P → Granted s (exec i s)) : raises i s .illegalCommand ↔ P :=
  ⟨fun h => by_contra fun hP => (hno hP).not_raises h, fun hP => ⟨_, hyes hP, rfl⟩⟩

/-- Registers 0 to 11 exist (R24). -/
theorem readReg_eq_none_iff {r : Byte} : readReg r s = none ↔ 12 ≤ r.toNat := by
  unfold readReg
  split <;> simp_all
  omega

/-- The commands that the interlock leaves alone and that are no step of the automaton (R78). -/
def admittedInRun : Instr → Prop
  | .bwOpen | .bwWrite _ | .bwFlush | .lutBit _ | .lutQry | .lutStgClr | .decStart | .sysRd _ | .sysReset => True
  | _ => False

/-- Where one of them raises `IllegalCommand` (R83): nothing here speaks of `dec_state`. -/
def State.refusesAdmitted (s : State) : Instr → Prop
  | .bwWrite _ | .bwFlush => s.bw.opened = false
  | .lutBit _ => s.tab.stg.length = maxLen
  | .decStart => s.hdr.ok = false ∨ s.br.opened = false
  | .sysRd r => 12 ≤ r.toNat
  | _ => False

theorem raises_illegalCommand_iff (hi : admittedInRun i) :
    raises i s .illegalCommand ↔ s.refusesAdmitted i := by
  refine raises_illegalCommand_iff_of (fun h => ?_) fun h => ?_
  · cases i <;> simp only [admittedInRun, State.refusesAdmitted] at hi h
    case bwWrite => rw [exec, execBwWrite, if_pos h, raised_eq]
    case bwFlush => rw [exec, execBwFlush, if_pos h, raised_eq]
    case lutBit => exact exec_lutBit_of_length_eq _ h
    case decStart => rw [exec, execDecStart, if_pos h, raised_eq]
    case sysRd => rw [exec, execSysRd, readReg_eq_none_iff.mpr h]; rfl
  · cases i <;> simp only [admittedInRun, State.refusesAdmitted] at hi h
    case bwOpen =>
      rw [exec, execBwOpen]
      split
      · exact .refuses s _ rfl nofun
      · exact .answers _ _ rfl
    case bwWrite =>
      rw [exec, execBwWrite, if_neg h, bitWrite_frame]
      split
      · exact .refuses s _ rfl nofun
      · exact .answers _ _ rfl
    case bwFlush =>
      rw [exec, execBwFlush, if_neg h]
      split <;> exact .answers _ _ rfl
    case lutBit =>
      rw [exec, execLutBit, if_neg h]
      exact .answers _ _ rfl
    case lutQry =>
      rw [exec, execLutQry]
      split
      · exact .completed_self s _
      · split <;> exact .completed_self s _
    case lutStgClr => exact .answers _ _ rfl
    case decStart =>
      rw [exec, execDecStart, if_neg h]
      split
      · exact .refuses s _ rfl nofun
      · exact .answers _ _ rfl
    case sysRd =>
      obtain ⟨v, hv⟩ := Option.ne_none_iff_exists'.mp (mt readReg_eq_none_iff.mp h)
      rw [exec, execSysRd, hv]
      exact .completed_self s _
    case sysReset => exact .answers _ _ rfl

/-! ## `DEC.STEP` and `DEC.RUN` by the outcome of what they call (R75, R76) -/

theorem exec_decStep_of_emitted {x : Symbol} (hr : s.dec.state = .run) (h : decStep s = (.emitted x, u)) :
    exec .decStep s = .next (u.complete (.sym x)) := by
  rw [exec, execDecStep, if_neg (by simp [hr]), h]
  rfl

theorem exec_decStep_of_quiet (hr : s.dec.state = .run) (h : decStep s = (.quiet, u)) :
    exec .decStep s = .next (u.complete .none) := by
  rw [exec, execDecStep, if_neg (by simp [hr]), h]
  rfl

theorem exec_decStep_of_malformed (hr : s.dec.state = .run) (h : decStep s = (.malformed, u)) :
    exec .decStep s = .next (u.raise .malformedStream) := by
  rw [exec, execDecStep, if_neg (by simp [hr]), h]
  rfl

theorem exec_decRun_of_raise (hr : s.dec.state = .run) (h : decLoop (bitsLeft s + 1) s = (true, u)) :
    exec .decRun s = .next (u.raise .malformedStream) := by
  rw [exec, execDecRun, if_neg (by simp [hr]), h]
  rfl

theorem exec_decRun_of_end (hr : s.dec.state = .run) (h : decLoop (bitsLeft s + 1) s = (false, u)) :
    exec .decRun s = .next (u.complete (.val u.dec.emit)) := by
  rw [exec, execDecRun, if_neg (by simp [hr]), h]
  rfl

theorem exec_decStep_of_not_run (hr : s.dec.state ≠ .run) :
    exec .decStep s = .next (s.raise .illegalCommand) := by
  rw [exec, execDecStep, if_pos hr, raised_eq]

theorem exec_decRun_of_not_run (hr : s.dec.state ≠ .run) :
    exec .decRun s = .next (s.raise .illegalCommand) := by
  rw [exec, execDecRun, if_pos hr, raised_eq]

theorem decStep_rsps (h : (decStep s).2 = u) : u.rsps = s.rsps := by
  rw [← h, decStep_frame]

theorem decLoop_rsps {n : Nat} (h : (decLoop n s).2 = u) : u.rsps = s.rsps := by
  rw [← h, decLoop_frame]

theorem exec_decStep_granted (hr : s.dec.state = .run) : Granted s (exec .decStep s) := by
  rcases h : decStep s with ⟨_ | _ | _, u⟩
  · rw [exec_decStep_of_emitted hr h]
    exact .answers _ _ (decStep_rsps (by rw [h]))
  · rw [exec_decStep_of_quiet hr h]
    exact .answers _ _ (decStep_rsps (by rw [h]))
  · rw [exec_decStep_of_malformed hr h]
    exact .refuses _ _ (decStep_rsps (by rw [h])) nofun

theorem exec_decRun_granted (hr : s.dec.state = .run) : Granted s (exec .decRun s) := by
  rcases h : decLoop (bitsLeft s + 1) s with ⟨_ | _, u⟩
  · rw [exec_decRun_of_end hr h]
    exact .answers _ _ (decLoop_rsps (by rw [h]))
  · rw [exec_decRun_of_raise hr h]
    exact .refuses _ _ (decLoop_rsps (by rw [h])) nofun

/-! ## The refusal in `RUN` (R78) -/

/-- The six commands behind the interlock. -/
theorem exec_of_run (hr : s.dec.state = .run)
    (hi : i = .brOpen ∨ i = .brRead ∨ i = .lutClr ∨ (∃ x, i = .lutCommit x) ∨ i = .decHdr ∨ i = .decLdTab) :
    exec i s = .next (s.raise .illegalCommand) := by
  rcases hi with rfl | rfl | rfl | ⟨x, rfl⟩ | rfl | rfl <;> exact if_pos hr

/-! ## `DEC.HDR` (R71) -/

theorem exec_decHdr_of_not_srcRd (hr : s.dec.state ≠ .run) (hrd : s.params.srcRd = false) :
    exec .decHdr s = .next (s.raise .invalidStreamMode) := by
  rw [exec, execDecHdr, interlocked_free hr, if_pos hrd, raised_eq]

theorem exec_decHdr_of_length_lt (hr : s.dec.state ≠ .run) (hrd : s.params.srcRd = true) (h : s.src.length < 8) :
    exec .decHdr s =
      .next (State.raise .malformedStream { s with hdr := { s.hdr with ok := false }, src := [] }) := by
  rw [exec, execDecHdr, interlocked_free hr, if_neg (by simp [hrd]), srcPullN_eq, if_neg (by omega)]
  rfl

theorem exec_decHdr_of_src {x0 x1 x2 x3 x4 x5 x6 x7 : Byte} {rest : List Byte} (hr : s.dec.state ≠ .run)
    (hrd : s.params.srcRd = true) (h : s.src = [x0, x1, x2, x3, x4, x5, x6, x7] ++ rest) :
    exec .decHdr s = .next { s with
      hdr := ⟨true, be32 x0 x1 x2 x3, be32 x4 x5 x6 x7⟩, src := rest, rsps := s.rsps ++ [0x0000000000#40] } := by
  rw [exec, execDecHdr, interlocked_free hr, if_neg (by simp [hrd]), srcPullN_eq, if_pos (by simp [h]), h]
  rfl

/-- Settles O37: one equation per branch, the fields by `be32_toNat`. -/
theorem decHdrReadsEightBytes : Obligations.DecHdrReadsEightBytes :=
  ⟨by decide, fun _ => ⟨fun hr => exec_of_run hr (by simp), exec_decHdr_of_not_srcRd,
    exec_decHdr_of_length_lt, fun _ _ _ _ _ _ _ _ _ hr hrd h =>
      ⟨_, _, be32_toNat _ _ _ _, be32_toNat _ _ _ _, exec_decHdr_of_src hr hrd h⟩⟩⟩

/-! ## `DEC.START` (R73) -/

theorem exec_decStart_of_canStart (h : s.canStart) : exec .decStart s =
    .next { s with dec := .started s.hdr.plen, rsps := s.rsps ++ [0x0000000000#40] } :=
  execDecStart_of_canStart h

/-- Settles O41: the two refusals, else `execDecStart_of_canStart`. -/
theorem decStartBeginsADecode : Obligations.DecStartBeginsADecode := by
  refine ⟨by decide, fun s => ⟨fun h => ?_, fun hok hopen hbad => ?_,
    fun hok hopen hbad => exec_decStart_of_canStart ⟨hok, hopen, hbad⟩⟩⟩
  · rw [exec, execDecStart, if_pos h, raised_eq]
  · rw [exec, execDecStart, if_neg (by simp [hok, hopen]), if_pos hbad, raised_eq]

/-! ## The interlock (R78) -/

/-- What the run reads stands still (R78): the entries, `lut_bad`, the header. -/
def SameCode (s u : State) : Prop := u.tab.lut = s.tab.lut ∧ u.tab.bad = s.tab.bad ∧ u.hdr = s.hdr

theorem exec_sameCode (hr : s.dec.state = .run) (hi : i ≠ .sysReset) : EndsIn (SameCode s) (exec i s) := by
  have hs : SameCode s s := ⟨rfl, rfl, rfl⟩
  cases i with
  | bwOpen => exact execBwOpen_endsIn hs fun _ => hs
  | bwWrite v =>
    refine execBwWrite_endsIn hs fun _ b => ?_
    rw [bitWrite_frame]
    exact hs
  | bwFlush => exact execBwFlush_endsIn hs fun _ _ => hs
  | brOpen => exact execBrOpen_endsIn hs fun h => absurd hr h
  | brRead => exact execBrRead_endsIn hs fun h => absurd hr h
  | lutClr => exact execLutClr_endsIn hs fun h => absurd hr h
  | lutBit b => exact execLutBit_endsIn hs fun _ => ⟨rfl, rfl, rfl⟩
  | lutCommit sym => exact execLutCommit_endsIn hs (fun h => absurd hr h) fun h => absurd hr h
  | lutQry => exact execLutQry_endsIn hs
  | lutStgClr => exact execLutStgClr_endsIn ⟨rfl, rfl, rfl⟩
  | decHdr => exact execDecHdr_endsIn hs fun h => absurd hr h
  | decLdTab => exact execDecLdTab_endsIn hs fun h => absurd hr h
  | decStart => exact execDecStart_endsIn hs fun _ => hs
  | decStep =>
    refine execDecStep_endsIn hs fun _ => ?_
    rw [decStep_frame]
    exact hs
  | decRun =>
    refine execDecRun_endsIn hs fun _ => ?_
    rw [decLoop_frame]
    exact hs
  | sysRd r => exact execSysRd_endsIn hs
  | sysReset => exact absurd rfl hi

/-- Settles O13: the six by `exec_of_run`; the nine others raise `IllegalCommand` in terms that `dec_state` does not
enter; and what the run reads changes only behind the interlock. -/
theorem runInterlock : Obligations.RunInterlock := by
  refine fun s hr => ⟨fun i hi => exec_of_run hr hi, fun i other hi => ?_, ?_, fun i t hi h => ?_⟩
  · have hadm : admittedInRun i := by
      rcases hi with rfl | ⟨v, rfl⟩ | rfl | ⟨b, rfl⟩ | rfl | rfl | rfl | ⟨r, rfl⟩ | rfl <;> trivial
    rw [raises_illegalCommand_iff hadm, raises_illegalCommand_iff hadm]
    cases i <;> exact Iff.rfl
  · rintro i (rfl | rfl)
    exacts [(exec_decStep_granted hr).not_raises, (exec_decRun_granted hr).not_raises]
  · have hends := exec_sameCode hr hi
    rw [h] at hends
    cases hends with
    | completes u y hu => exact hu
    | raises u c hu => exact hu

/-! ## The writer and the byte sink (R78) -/

/-- The same machine with another writer and another byte sink. -/
def State.withWriter (w : Writer) (k : List Byte) (s : State) : State := { s with bw := w, snk := k }

/-- A command's answer, with another writer and another byte sink in the state it leaves. -/
def answerWithWriter (w : Writer) (k : List Byte) : Result → Result
  | .next t => .next (t.withWriter w k)
  | .fault r => .fault r
  | .refused r => .refused r

variable {w : Writer} {k : List Byte}

theorem interlocked_withWriter {rule : State → Result}
    (h : rule (s.withWriter w k) = answerWithWriter w k (rule s)) :
    interlocked rule (s.withWriter w k) = answerWithWriter w k (interlocked rule s) := by
  by_cases hr : s.dec.state = .run
  · rw [interlocked_run hr, interlocked_run (s := s.withWriter w k) hr]
    rfl
  · rwa [interlocked_free hr, interlocked_free (s := s.withWriter w k) hr]

/-- `BitRead()` sees the reader and the source only (R57). -/
theorem bitRead_setReader (u v : State) :
    bitRead { u with br := v.br, src := v.src } =
      ((bitRead v).1, { u with br := (bitRead v).2.br, src := (bitRead v).2.src }) := by
  rcases bitRead_cases v with ⟨he, hb⟩ | ⟨he, hp, hs, hb⟩ | ⟨x, rest, he, hp, hs, hb⟩ | ⟨hlt, he, hb⟩ <;> rw [hb]
  · exact bitRead_of_eos he
  · exact bitRead_of_src_nil he hp hs
  · exact bitRead_of_src_cons he hp hs
  · exact bitRead_of_pos_lt (s := { u with br := v.br, src := v.src }) he hlt

/-! `DecStep()`, one equation per outcome of `BitRead()` and of the table (R74). -/

variable {b : Bool} {x : Symbol}

theorem decStep_of_none (hb : bitRead s = (none, u)) : decStep s = decFault u := by
  rw [decStep, hb]

theorem decStep_of_match (hb : bitRead s = (some b, u)) (hm : lutMatch (u.dec.acc ++ [b]) u.tab = some x) :
    decStep s = (.emitted x, decEmit x (decAccept b u)) := by
  simp [decStep, hb, hm]

theorem decStep_of_dead (hb : bitRead s = (some b, u)) (hm : lutMatch (u.dec.acc ++ [b]) u.tab = none)
    (hd : lutPrefix (u.dec.acc ++ [b]) u.tab = false ∨ (u.params.framing = .bits ∧ (decAccept b u).dec.rem = 0)) :
    decStep s = decFault (decAccept b u) := by
  rcases hp : lutPrefix (u.dec.acc ++ [b]) u.tab with _ | _
  · simp [decStep, hb, hm, hp]
  · have hc := hd.resolve_left (by simp [hp])
    simp only [decStep, hb, decAccept_acc, decAccept_tab, hm, hp]
    exact if_pos hc

theorem decStep_of_prefix (hb : bitRead s = (some b, u)) (hm : lutMatch (u.dec.acc ++ [b]) u.tab = none)
    (hp : lutPrefix (u.dec.acc ++ [b]) u.tab = true)
    (hc : ¬ (u.params.framing = .bits ∧ (decAccept b u).dec.rem = 0)) : decStep s = (.quiet, decAccept b u) := by
  simp only [decStep, hb, decAccept_acc, decAccept_tab, hm, hp]
  exact if_neg hc

/-- The same decoder in the surroundings of v: what `DecStep()` neither sees nor touches. -/
def State.within (v u : State) : State :=
  { u with bw := v.bw, hdr := v.hdr, err := v.err, snk := v.snk, port := v.port, rsps := v.rsps }

theorem bitRead_within (v s : State) : bitRead (v.within s) = ((bitRead s).1, v.within (bitRead s).2) := by
  rw [bitRead_frame s]
  exact bitRead_setReader (v.within s) s

theorem decStep_within (v s : State) : decStep (v.within s) = ((decStep s).1, v.within (decStep s).2) := by
  have hread := bitRead_within v s
  rcases decStep_cases s with ⟨u, hb, hd⟩ | ⟨b, u, x, hb, hm, hd⟩ | ⟨b, u, hb, hm, hdead, hd⟩ |
      ⟨b, u, hb, hm, hp, hc, hd⟩ <;> rw [hd] <;> rw [hb] at hread
  · exact decStep_of_none hread
  · exact decStep_of_match hread hm
  · exact decStep_of_dead hread hm hdead
  · exact decStep_of_prefix hread hm hp hc

theorem decLoop_within (n : Nat) (v s : State) :
    decLoop n (v.within s) = ((decLoop n s).1, v.within (decLoop n s).2) := by
  induction n generalizing s with
  | zero => rfl
  | succ n ih =>
    rw [decLoop_succ, decLoop_succ, decStep_within, show (v.within s).dec = s.dec from rfl, ih]
    split
    · split <;> rfl
    · rfl

theorem bitRead_withWriter (s : State) :
    bitRead (s.withWriter w k) = ((bitRead s).1, (bitRead s).2.withWriter w k) := by
  have h := bitRead_within (s.withWriter w k) s
  rw [bitRead_frame s] at h ⊢
  exact h

theorem decStep_withWriter (s : State) :
    decStep (s.withWriter w k) = ((decStep s).1, (decStep s).2.withWriter w k) := by
  have h := decStep_within (s.withWriter w k) s
  rw [decStep_frame s] at h ⊢
  exact h

theorem decStep_frame_of {o : StepYield} (h : decStep s = (o, u)) :
    u = { s with br := u.br, src := u.src, dec := u.dec, out := u.out } := by
  have hframe := decStep_frame s
  rwa [h] at hframe

theorem decStep_setRsps {o : StepYield} (h : decStep s = (o, u)) (rsps : List RspWord) :
    decStep { s with rsps := rsps } = (o, { u with rsps := rsps }) := by
  have hset := decStep_within { s with rsps := rsps } s
  rw [h] at hset
  rw [decStep_frame_of h] at hset ⊢
  exact hset

theorem decLoop_withWriter (n : Nat) (s : State) :
    decLoop n (s.withWriter w k) = ((decLoop n s).1, (decLoop n s).2.withWriter w k) := by
  have h := decLoop_within n (s.withWriter w k) s
  rw [decLoop_frame n s] at h ⊢
  exact h

theorem ldTabLoop_withWriter (fuel rem : Nat) (s : State) :
    ldTabLoop fuel rem (s.withWriter w k) =
      ((ldTabLoop fuel rem s).1, (ldTabLoop fuel rem s).2.withWriter w k) := by
  induction fuel generalizing rem s with
  | zero => cases rem <;> rfl
  | succ fuel ih =>
    cases rem with
    | zero => rfl
    | succ rem =>
      rw [ldTabLoop_succ, ldTabLoop_succ]
      rw [show (s.withWriter w k).src = s.src from rfl, show (s.withWriter w k).tab = s.tab from rfl]
      by_cases h0 : rem = 0
      · rw [if_pos h0, if_pos h0]
        rfl
      rw [if_neg h0, if_neg h0]
      rcases s.src with _ | ⟨sym, _ | ⟨n, rest⟩⟩
      · rfl
      · rfl
      dsimp only
      split
      · rfl
      split
      · rfl
      rcases lutInsert sym _ s.tab with _ | tab
      · rfl
      · exact ih (rem - 1 - ceil8 n.toNat) { s with src := rest.drop (ceil8 n.toNat), tab := tab }

/-- A source with the 8 bytes of a header, or without (R36). -/
theorem length_lt_eight_or_cons (src : List Byte) : src.length < 8 ∨
    ∃ x0 x1 x2 x3 x4 x5 x6 x7 rest, src = [x0, x1, x2, x3, x4, x5, x6, x7] ++ rest := by
  rcases src with _ | ⟨x0, _ | ⟨x1, _ | ⟨x2, _ | ⟨x3, _ | ⟨x4, _ | ⟨x5, _ | ⟨x6, _ | ⟨x7, rest⟩⟩⟩⟩⟩⟩⟩⟩
  case cons.cons.cons.cons.cons.cons.cons.cons => exact .inr ⟨x0, x1, x2, x3, x4, x5, x6, x7, rest, rfl⟩
  all_goals exact .inl (by simp)

/-- R78, R14: a command of another unit sees neither the writer nor the byte sink. -/
theorem exec_withWriter (s : State) (hopen : i ≠ .bwOpen) (hwrite : ∀ x, i ≠ .bwWrite x) (hflush : i ≠ .bwFlush)
    (hrd : ∀ r, i ≠ .sysRd r) (hreset : i ≠ .sysReset) :
    exec i (s.withWriter w k) = answerWithWriter w k (exec i s) := by
  cases i with
  | bwOpen => exact absurd rfl hopen
  | bwWrite x => exact absurd rfl (hwrite x)
  | bwFlush => exact absurd rfl hflush
  | brOpen =>
    rw [exec, exec, execBrOpen, execBrOpen]
    refine interlocked_withWriter ?_
    rw [show (s.withWriter w k).params = s.params from rfl]
    split
    · rfl
    · rcases hs : s.src with _ | ⟨x, rest⟩
      · rw [srcPull_nil hs, srcPull_nil (s := s.withWriter w k) hs]
        rfl
      · rw [srcPull_cons hs, srcPull_cons (s := s.withWriter w k) hs]
        rfl
  | brRead =>
    rw [exec, exec, execBrRead, execBrRead]
    refine interlocked_withWriter ?_
    rw [bitRead_withWriter, show (s.withWriter w k).br = s.br from rfl]
    split
    · rfl
    · rcases bitRead s with ⟨_ | b, u⟩ <;> rfl
  | lutClr =>
    rw [exec, exec, execLutClr, execLutClr]
    exact interlocked_withWriter rfl
  | lutBit b =>
    rw [exec, exec, execLutBit, execLutBit, show (s.withWriter w k).tab = s.tab from rfl]
    split <;> rfl
  | lutCommit sym =>
    rw [exec, exec, execLutCommit, execLutCommit]
    refine interlocked_withWriter ?_
    dsimp only [State.withWriter]
    split <;> rfl
  | lutQry =>
    rw [exec, exec, execLutQry, execLutQry, show (s.withWriter w k).tab = s.tab from rfl]
    split
    · rfl
    · split <;> rfl
  | lutStgClr => rfl
  | decHdr =>
    by_cases hr : s.dec.state = .run
    · rw [exec_of_run hr (by simp), exec_of_run (s := s.withWriter w k) hr (by simp)]
      rfl
    rcases hrd : s.params.srcRd with _ | _
    · rw [exec_decHdr_of_not_srcRd hr hrd, exec_decHdr_of_not_srcRd (s := s.withWriter w k) hr hrd]
      rfl
    rcases length_lt_eight_or_cons s.src with hlt | ⟨x0, x1, x2, x3, x4, x5, x6, x7, rest, hs⟩
    · rw [exec_decHdr_of_length_lt hr hrd hlt, exec_decHdr_of_length_lt (s := s.withWriter w k) hr hrd hlt]
      rfl
    · rw [exec_decHdr_of_src hr hrd hs, exec_decHdr_of_src (s := s.withWriter w k) hr hrd hs]
      rfl
  | decLdTab =>
    rw [exec, exec, execDecLdTab, execDecLdTab]
    refine interlocked_withWriter ?_
    rw [show (s.withWriter w k).hdr = s.hdr from rfl, show (s.withWriter w k).src = s.src from rfl,
      ldTabLoop_withWriter]
    split
    · rfl
    · rcases ldTabLoop s.src.length s.hdr.l.toNat s with ⟨_ | _, u⟩ <;> rfl
  | decStart =>
    rw [exec, exec, execDecStart, execDecStart]
    rw [show (s.withWriter w k).hdr = s.hdr from rfl, show (s.withWriter w k).br = s.br from rfl,
      show (s.withWriter w k).tab = s.tab from rfl]
    split
    · rfl
    · split <;> rfl
  | decStep =>
    rw [exec, exec, execDecStep, execDecStep, decStep_withWriter, show (s.withWriter w k).dec = s.dec from rfl]
    split
    · rfl
    · rcases decStep s with ⟨_ | _ | _, u⟩ <;> rfl
  | decRun =>
    rw [exec, exec, execDecRun, execDecRun, show bitsLeft (s.withWriter w k) = bitsLeft s from rfl,
      decLoop_withWriter, show (s.withWriter w k).dec = s.dec from rfl]
    split
    · rfl
    · rcases decLoop (bitsLeft s + 1) s with ⟨_ | _, u⟩ <;> rfl
  | sysRd r => exact absurd rfl (hrd r)
  | sysReset => exact absurd rfl hreset

/-- Settles O19: such a command commutes with a change of writer and sink; with the state's own two the change is none,
so the command left them as they were. -/
theorem writerSharesNothingWithTheDecoder : Obligations.WriterSharesNothingWithTheDecoder := by
  intro i s t w k hopen hwrite hflush hrd hreset h
  have hcomm := fun w k => exec_withWriter (w := w) (k := k) s hopen hwrite hflush hrd hreset
  simp only [h, answerWithWriter] at hcomm
  have hsame : t = t.withWriter s.bw s.snk := by
    have hown := hcomm s.bw s.snk
    rw [show s.withWriter s.bw s.snk = s from rfl, h] at hown
    injection hown
  have hbw := congrArg State.bw hsame
  have hsnk := congrArg State.snk hsame
  exact ⟨hbw, hsnk, hcomm w k⟩

/-! ## `DEC.LDTAB` (R72) -/

variable {fuel rem left : Nat} {tab : Table} {pairs : List (Symbol × BitString)} {block part rest : List Byte}

theorem exec_decLdTab_of_end (hr : s.dec.state ≠ .run) (hok : s.hdr.ok = true)
    (h : ldTabLoop (s.src.length + 1) s.hdr.l.toNat s = (false, u)) :
    exec .decLdTab s = .next (u.complete .none) := by
  rw [ldTabLoop_fuel (Nat.le_succ _) le_rfl] at h
  rw [exec, execDecLdTab, interlocked_free hr, if_neg (by simp [hok]), h]
  rfl

theorem exec_decLdTab_of_corrupt (hr : s.dec.state ≠ .run) (hok : s.hdr.ok = true)
    (h : ldTabLoop (s.src.length + 1) s.hdr.l.toNat s = (true, u)) :
    exec .decLdTab s = .next (u.raise .codeTableCorrupt) := by
  rw [ldTabLoop_fuel (Nat.le_succ _) le_rfl] at h
  rw [exec, execDecLdTab, interlocked_free hr, if_neg (by simp [hok]), h]
  rfl

theorem ldTabLoop_zero (fuel : Nat) (s : State) : ldTabLoop fuel 0 s = (false, s) := by
  cases fuel <;> rfl

section
variable {sym : Symbol} {n : Byte} {code : List Byte}

/-- One entry of the block that is whole: it is pulled, and what happens next is up to `LutInsert`. -/
theorem ldTabLoop_entry (hs : s.src = sym :: n :: (code ++ rest)) (hn : n ≠ 0) (hcode : code.length = ceil8 n.toNat)
    (hfit : 2 + code.length ≤ rem) :
    (∀ tab, lutInsert sym ((unpackBytes code).take n.toNat) s.tab = some tab →
      ldTabLoop (fuel + 1) rem s = ldTabLoop fuel (rem - (2 + code.length)) { s with src := rest, tab := tab }) ∧
    (lutInsert sym ((unpackBytes code).take n.toNat) s.tab = none →
      ldTabLoop (fuel + 1) rem s = (true, markBad { s with src := rest })) := by
  obtain ⟨rem, rfl⟩ : ∃ m, rem = m + 1 := Nat.exists_eq_add_of_le' (by omega)
  have hhead : ¬ (n = 0 ∨ rem - 1 < ceil8 n.toNat) := by
    rintro (h | h)
    · exact hn h
    · omega
  have hleft : rem - 1 - ceil8 n.toNat = rem + 1 - (2 + code.length) := by omega
  rw [ldTabLoop_succ, if_neg (by omega), hs]
  dsimp only
  rw [if_neg hhead, if_neg (by simp [hcode]), hleft, ← hcode, List.take_left, List.drop_left]
  exact ⟨fun tab h => by rw [h], fun h => by rw [h]⟩

/-- The loop enters the pairs of a table block and pulls the block. -/
theorem ldTabLoop_of_isTableBlock (h : IsTableBlock block pairs) (hs : s.src = block ++ rest)
    (hi : insertAll pairs s.tab = some tab) (hf : s.src.length < fuel) :
    ldTabLoop fuel block.length s = (false, { s with tab := tab, src := rest }) := by
  induction h generalizing s fuel with
  | nil =>
    cases hi
    rw [List.nil_append] at hs
    rw [List.length_nil, ldTabLoop_zero, ← hs]
  | cons sym n code block pairs hn hcode _ ih =>
    obtain ⟨tab1, htab1, hi⟩ := Option.bind_eq_some_iff.mp hi
    obtain ⟨fuel, rfl⟩ : ∃ m, fuel = m + 1 := Nat.exists_eq_add_of_le' (Nat.zero_lt_of_lt hf)
    have hs' : s.src = sym :: n :: (code ++ (block ++ rest)) := by simp [hs]
    have hlen : (sym :: n :: (code ++ block)).length - (2 + code.length) = block.length := by
      simp
      omega
    rw [(ldTabLoop_entry hs' hn hcode (by simp; omega)).1 tab1 htab1, hlen]
    refine ih rfl hi ?_
    simp [hs] at hf ⊢
    omega

/-- The bytes pulled of an entry that fails are block bytes, and at most an entry's 34. -/
theorem CorruptEntry.length_le (h : CorruptEntry left tab part rest) : part.length ≤ left ∧ part.length ≤ 34 := by
  have hbyte : ∀ n : Byte, (n.toNat + 7) / 8 ≤ 32 := fun n => by have := n.isLt; omega
  cases h with
  | short => simp
  | ended _ h2 hlt => omega
  | noLength sym _ h2 => exact ⟨h2, by simp⟩
  | pastEnd sym n _ h2 => exact ⟨h2, by simp⟩
  | endedInCode sym n code _ hfit hlt =>
    have := hbyte n
    simp only [List.length_cons]
    omega
  | refused sym n code _ _ hfit hlen _ =>
    have := hbyte n
    simp only [List.length_cons]
    omega

/-- The source begins with a table block of `rem` bytes whose pairs the table accepts (R37). -/
def BlockLoads (rem : Nat) (s : State) : Prop :=
  ∃ block rest pairs, s.src = block ++ rest ∧ block.length = rem ∧ IsTableBlock block pairs ∧
    insertAll pairs s.tab ≠ none

/-- The source begins with whole entries whose pairs lead to `tab`, then an entry of the `rem` block bytes fails and
`rest` is left (R72). -/
def BlockFails (rem : Nat) (s : State) (tab : Table) (rest : List Byte) : Prop :=
  ∃ whole part pairs, s.src = whole ++ part ++ rest ∧ IsTableBlock whole pairs ∧ insertAll pairs s.tab = some tab ∧
    whole.length ≤ rem ∧ CorruptEntry (rem - whole.length) tab part rest

/-- The first entry fails. -/
theorem CorruptEntry.blockFails (h : CorruptEntry rem s.tab part rest) (hs : s.src = part ++ rest) :
    BlockFails rem s s.tab rest :=
  ⟨[], part, [], hs, .nil, rfl, Nat.zero_le _, h⟩

section
variable (hs : s.src = sym :: n :: (code ++ rest)) (hn : n ≠ 0) (hcode : code.length = ceil8 n.toNat)
  (hfit : 2 + code.length ≤ rem) {tab1 : Table}
  (hi : lutInsert sym ((unpackBytes code).take n.toNat) s.tab = some tab1)
include hs hn hcode hfit hi

/-- An accepted entry in front of a block that loads. -/
theorem BlockLoads.entry (h : BlockLoads (rem - (2 + code.length)) { s with src := rest, tab := tab1 }) :
    BlockLoads rem s := by
  obtain ⟨block, rest', pairs, hsrc, hlen, hblock, hins⟩ := h
  refine ⟨_, rest', _, ?_, ?_, hblock.cons sym n code block pairs hn hcode, ?_⟩
  · simpa [hs] using hsrc
  · simp
    omega
  · rwa [insertAll, hi]

/-- An accepted entry in front of a block that fails. -/
theorem BlockFails.entry {rest' : List Byte}
    (h : BlockFails (rem - (2 + code.length)) { s with src := rest, tab := tab1 } tab rest') :
    BlockFails rem s tab rest' := by
  obtain ⟨whole, part, pairs, hsrc, hblock, hins, hlen, hpart⟩ := h
  refine ⟨_, part, _, ?_, hblock.cons sym n code whole pairs hn hcode, ?_, ?_, ?_⟩
  · simpa [hs] using hsrc
  · rwa [insertAll, hi]
  · simp
    omega
  · convert hpart using 1
    simp
    omega

end

/-- What `LutInsert` refuses of an entry with a codeword (R63). -/
theorem lutInsert_eq_none {c : BitString} (hc : c ≠ []) (h : lutInsert sym c tab = none) :
    tab.entry sym ≠ none ∨ ∃ a d, tab.entry a = some d ∧ (d <+: c ∨ c <+: d) := by
  rcases lutInsert_cases sym c tab with ⟨hbad, -⟩ | ⟨-, hi⟩
  · simpa only [hc, false_or, prefixRelated_iff] using lutCorrupt_iff.mp hbad
  · simp [hi] at h

/-- `DEC.LDTAB` (R72): the block loads, or the loop stops at the entry that fails. -/
theorem ldTabLoop_cases (rem : Nat) (hf : s.src.length < fuel) : BlockLoads rem s ∨
    ∃ tab rest, BlockFails rem s tab rest ∧
      ldTabLoop fuel rem s = (true, { s with tab := { tab with bad := true }, src := rest }) := by
  induction fuel generalizing rem s with
  | zero => omega
  | succ fuel ih =>
    cases rem with
    | zero => exact .inl ⟨[], s.src, [], rfl, rfl, .nil, nofun⟩
    | succ rem =>
      have hloop := ldTabLoop_succ fuel rem s
      by_cases h0 : rem = 0
      · subst h0
        exact .inr ⟨s.tab, s.src, (CorruptEntry.short s.src rfl).blockFails rfl, hloop⟩
      have h2 : 2 ≤ rem + 1 := by omega
      rw [if_neg h0] at hloop
      rcases hs : s.src with _ | ⟨sym, _ | ⟨n, src⟩⟩ <;> simp only [hs] at hloop
      · exact .inr ⟨s.tab, [], (CorruptEntry.ended [] h2 (by simp)).blockFails hs, hloop⟩
      · exact .inr ⟨s.tab, [], (CorruptEntry.ended [sym] h2 (by simp)).blockFails hs, hloop⟩
      by_cases hn : n = 0
      · subst hn
        exact .inr ⟨s.tab, src, (CorruptEntry.noLength sym src h2).blockFails hs, hloop⟩
      by_cases hpast : rem - 1 < ceil8 n.toNat
      · rw [if_pos (.inr hpast)] at hloop
        refine .inr ⟨s.tab, src, (CorruptEntry.pastEnd sym n src h2 hn ?_).blockFails hs, hloop⟩
        rw [← ceil8_eq]
        omega
      have hfit : 2 + ceil8 n.toNat ≤ rem + 1 := by omega
      by_cases hshort : src.length < ceil8 n.toNat
      · rw [if_neg (not_or.mpr ⟨hn, hpast⟩), if_pos hshort] at hloop
        refine .inr ⟨s.tab, [], (CorruptEntry.endedInCode sym n src hn ?_ ?_).blockFails (by simp [hs]), hloop⟩
        all_goals rwa [← ceil8_eq]
      clear hloop
      obtain ⟨code, rest, rfl, hcode⟩ : ∃ code rest, src = code ++ rest ∧ code.length = ceil8 n.toNat :=
        ⟨src.take (ceil8 n.toNat), src.drop _, (List.take_append_drop _ _).symm, by simp; omega⟩
      rw [← hcode] at hfit
      obtain ⟨haccept, hrefuse⟩ := ldTabLoop_entry (fuel := fuel) hs hn hcode hfit
      cases hi : lutInsert sym ((unpackBytes code).take n.toNat) s.tab with
      | none =>
        have hpos : 0 < n.toNat := by bv_omega
        have hne : (unpackBytes code).take n.toNat ≠ [] := by
          refine List.ne_nil_of_length_pos ?_
          rw [List.length_take, unpackBytes_length, hcode, ceil8_eq]
          omega
        rw [ceil8_eq] at hcode
        exact .inr ⟨s.tab, rest, (CorruptEntry.refused sym n code rest hn (hcode ▸ hfit) hcode
          (lutInsert_eq_none hne hi)).blockFails (by simp [hs]), hrefuse hi⟩
      | some tab1 =>
        have hshorter : ({ s with src := rest, tab := tab1 } : State).src.length < fuel := by
          simp [hs] at hf ⊢
          omega
        rw [haccept tab1 hi]
        rcases ih (rem + 1 - (2 + code.length)) hshorter with hloads | ⟨tab, rest', hfails, hloop⟩
        · exact .inl (hloads.entry hs hn hcode hfit hi)
        · exact .inr ⟨tab, rest', hfails.entry hs hn hcode hfit hi, hloop⟩

end

theorem exec_decLdTab_of_isTableBlock (hr : s.dec.state ≠ .run) (hok : s.hdr.ok = true) (hs : s.src = block ++ rest)
    (hlen : block.length = s.hdr.l.toNat) (hblock : IsTableBlock block pairs)
    (hi : insertAll pairs s.tab = some tab) :
    exec .decLdTab s = .next { s with tab := tab, src := rest, rsps := s.rsps ++ [0x0000000000#40] } := by
  have hloop := ldTabLoop_of_isTableBlock hblock hs hi (Nat.lt_succ_self _)
  rw [hlen] at hloop
  exact exec_decLdTab_of_end hr hok hloop

/-- Settles O39: the block loads by induction on it (`ldTabLoop_of_isTableBlock`). -/
theorem decLdTabLoadsAWellFormedBlock : Obligations.DecLdTabLoadsAWellFormedBlock := by
  refine ⟨by decide, fun s => ⟨fun h => ?_, fun _ _ _ _ => exec_decLdTab_of_isTableBlock⟩⟩
  by_cases hr : s.dec.state = .run
  · exact exec_of_run hr (by simp)
  · rw [exec, execDecLdTab, interlocked_free hr, if_pos (h.resolve_left hr), raised_eq]

/-- Settles O40: the block does not load, so it fails at some entry (`ldTabLoop_cases`). -/
theorem decLdTabRefusesAnIllFormedBlock : Obligations.DecLdTabRefusesAnIllFormedBlock := by
  intro s hr hok hno
  obtain ⟨tab, rest, ⟨whole, part, pairs, hs, hblock, hi, hlen, hpart⟩, hloop⟩ :=
    (ldTabLoop_cases s.hdr.l.toNat (Nat.lt_succ_self _)).resolve_left hno
  obtain ⟨hleft, h34⟩ := hpart.length_le
  refine ⟨whole, part, rest, pairs, tab, hs, hblock, hi, ?_, h34, hpart, exec_decLdTab_of_corrupt hr hok hloop⟩
  rw [List.length_append]
  omega

end Sys2Proof.Machine

/-! Proofs of the statements of spec/43_decoder_fsm.md, second part: one step of the automaton, `DEC.RUN` as steps
repeated, and how `dec_state` moves. What a run keeps and where it stops is said once, in `exec_decRun_cases`. -/

namespace Sys2Proof.Machine

variable {s t u v : State} {i : Instr} {b : Bool} {x : Symbol} {n : Nat}

/-! ## One step (R74, R75) -/

theorem bitRead_of_bitsAhead_nil (h : s.bitsAhead = []) :
    bitRead s = (none, { s with br := { s.br with eos := true } }) := by
  have hnone : (bitRead s).1 = none := by rw [bitRead_fst, h, List.head?_nil]
  rcases bitRead_cases s with ⟨he, hb⟩ | ⟨-, -, -, hb⟩ | ⟨_, _, -, -, -, hb⟩ | ⟨_, -, hb⟩ <;>
    rw [hb] at hnone ⊢
  · rw [← he]
  · cases hnone
  · cases hnone

/-- With a bit ahead the read delivers it, and touches the reader and the source. -/
theorem bitRead_of_bitsAhead_cons {w : BitString} (h : s.bitsAhead = b :: w) : ∃ br src,
    bitRead s = (some b, { s with br := br, src := src }) ∧
      State.bitsAhead { s with br := br, src := src } = w := by
  have hread : bitRead s = (some b, (bitRead s).2) := Prod.ext (by rw [bitRead_fst, h, List.head?_cons]) rfl
  refine ⟨(bitRead s).2.br, (bitRead s).2.src, ?_, ?_⟩ <;> rw [← bitRead_frame s]
  · exact hread
  · rw [bitRead_snd_bitsAhead, h, List.tail_cons]

/-- A bit taken and a symbol emitted (R74): the count is lowered by one under both framings. -/
theorem decEmit_decAccept (b : Bool) (x : Symbol) (s : State) : decEmit x (decAccept b s) = { s with
    dec := ⟨if s.dec.rem - 1 = 0 then .done else s.dec.state, [], s.dec.rem - 1, s.dec.emit + 1⟩
    out := s.out ++ [x] } := by
  rw [← decAccept_decEmit_rem b x s]
  rfl

/-- Settles O42: the read by what is ahead, then the branch by the table. -/
theorem decStepTakesOneBranchOfTheAutomaton : Obligations.DecStepTakesOneBranchOfTheAutomaton := by
  refine ⟨by decide, fun s => ⟨exec_decStep_of_not_run, fun hr h => ?_, fun b w hr h => ?_⟩⟩
  · exact exec_decStep_of_malformed hr (decStep_of_none (bitRead_of_bitsAhead_nil h))
  · obtain ⟨br, src, hb, hw⟩ := bitRead_of_bitsAhead_cons h
    refine ⟨{ s with br := br, src := src }, bitTaken_of_bitRead hb, hw, ?_⟩
    rintro counted left rfl rfl
    refine ⟨fun x hm => ?_, fun hm hd => ?_, fun hm hp hc => ?_⟩
    · rw [exec_decStep_of_emitted hr (decStep_of_match hb hm), decEmit_decAccept, State.complete, Reply.sym_word]
      simp only [hr]
    · exact exec_decStep_of_malformed hr (decStep_of_dead hb hm hd)
    · rw [exec_decStep_of_quiet hr (decStep_of_prefix hb hm hp fun ⟨hf, h0⟩ => hc hf h0), State.complete, decAccept]
      simp only [hr]
      rfl

/-- Where a step in `RUN` leads (R70): it emits a symbol and ends the decode at count 0, or it completes in `RUN`, or
it raises in `FAULT`. -/
theorem decStep_outcome (hr : s.dec.state = .run) :
    (∃ x u, decStep s = (.emitted x, u) ∧ u.out = s.out ++ [x] ∧
      u.dec.state = if u.dec.rem = 0 then .done else .run) ∨
    (∃ u, decStep s = (.quiet, u) ∧ u.out = s.out ∧ u.dec.state = .run) ∨
    (∃ u, decStep s = (.malformed, u) ∧ u.out = s.out ∧ u.dec.state = .fault) := by
  have hread : ∀ {o u}, bitRead s = (o, u) → u.out = s.out ∧ u.dec.state = .run := fun hb => by
    rw [bitRead_frame_of hb]
    exact ⟨rfl, hr⟩
  rcases decStep_cases s with ⟨u, hb, hd⟩ | ⟨b, u, x, hb, -, hd⟩ | ⟨b, u, hb, -, -, hd⟩ | ⟨b, u, hb, -, -, -, hd⟩ <;>
    obtain ⟨hout, hrun⟩ := hread hb
  · exact .inr (.inr ⟨_, hd, hout, rfl⟩)
  · refine .inl ⟨x, _, hd, by simp [hout], ?_⟩
    rw [decEmit_state, decAccept_state, hrun]
  · exact .inr (.inr ⟨_, hd, hout, rfl⟩)
  · exact .inr (.inl ⟨_, hd, hout, hrun⟩)

theorem decStep_malformed (hr : s.dec.state = .run) (hd : decStep s = (.malformed, u)) :
    u.out = s.out ∧ u.dec.state = .fault := by
  rcases decStep_outcome hr with ⟨x, u', h, -, -⟩ | ⟨u', h, -, -⟩ | ⟨u', h, hout, hstate⟩ <;> rw [hd] at h <;> cases h
  exact ⟨hout, hstate⟩

theorem decStep_state_of_ne_malformed {o : StepYield} (hr : s.dec.state = .run) (hd : decStep s = (o, u))
    (ho : o ≠ .malformed) : u.dec.state = .run ∨ (u.dec.state = .done ∧ u.dec.rem = 0) := by
  rcases decStep_outcome hr with ⟨x, u', h, -, hstate⟩ | ⟨u', h, -, hstate⟩ | ⟨u', h, -, -⟩ <;> rw [hd] at h <;>
    cases h
  · rw [hstate]
    split
    · exact .inr ⟨rfl, ‹_›⟩
    · exact .inl rfl
  · exact .inl hstate
  · exact absurd rfl ho

theorem exec_decStep_of_ne_malformed {o : StepYield} (hr : s.dec.state = .run) (hd : decStep s = (o, u))
    (ho : o ≠ .malformed) : ∃ y, exec .decStep s = .next (u.complete y) := by
  cases o with
  | emitted x => exact ⟨_, exec_decStep_of_emitted hr hd⟩
  | quiet => exact ⟨_, exec_decStep_of_quiet hr hd⟩
  | malformed => exact absurd rfl ho

/-! ## `DEC.RUN` (R76) -/

/-- The loop of `DEC.RUN` ends out of `RUN`, or by a step that raises; until then it keeps what every step that does
not raise keeps. -/
theorem decLoop_cases {P : State → Prop}
    (hstep : ∀ u o v, P u → u.dec.state = .run → decStep u = (o, v) → o ≠ .malformed → P v)
    (hs : P s) (hn : bitsLeft s < n) :
    (∃ u, P u ∧ u.dec.state ≠ .run ∧ decLoop n s = (false, u)) ∨
    (∃ u v, P u ∧ u.dec.state = .run ∧ decStep u = (.malformed, v) ∧ decLoop n s = (true, v)) := by
  induction n generalizing s with
  | zero => omega
  | succ n ih =>
    rw [decLoop_succ]
    by_cases hr : s.dec.state = .run
    · by_cases hd : (decStep s).1 = .malformed
      · rw [if_pos hr, if_pos hd]
        exact .inr ⟨s, _, hs, hr, Prod.ext hd rfl, rfl⟩
      · have := decStep_bitsLeft hd
        rw [if_pos hr, if_neg hd]
        exact ih (hstep s _ _ hs hr rfl hd) (by omega)
    · rw [if_neg hr]
      exact .inl ⟨s, hs, hr, rfl⟩

/-- `DEC.RUN` in `RUN`: what every step keeps that does not raise, holds where the run ends or before the step that
raises. -/
theorem exec_decRun_cases {P : State → Prop}
    (hstep : ∀ u o v, P u → u.dec.state = .run → decStep u = (o, v) → o ≠ .malformed → P v)
    (hs : P s) (hr : s.dec.state = .run) :
    (∃ u, P u ∧ u.dec.state ≠ .run ∧ exec .decRun s = .next (u.complete (.val u.dec.emit))) ∨
    (∃ u v, P u ∧ u.dec.state = .run ∧ decStep u = (.malformed, v) ∧
      exec .decRun s = .next (v.raise .malformedStream)) := by
  rcases decLoop_cases hstep hs (Nat.lt_succ_self _) with ⟨u, hu, hur, h⟩ | ⟨u, v, hu, hur, hd, h⟩
  · exact .inl ⟨u, hu, hur, exec_decRun_of_end hr h⟩
  · exact .inr ⟨u, v, hu, hur, hd, exec_decRun_of_raise hr h⟩

theorem StepsTo.snoc (h : StepsTo n s t) (hr : t.dec.state = .run) (hu : exec .decStep t = .next u) :
    StepsTo (n + 1) s u := by
  induction h with
  | zero s => exact .succ 0 s u u hr hu (.zero u)
  | succ n s m t hrs hm _ ih => exact .succ _ s m u hrs hm (ih hr hu)

/-- The state u of the loop of `DEC.RUN` is the one that n commands `DEC.STEP` lead to, but for their responses; out of
`RUN` it is in `DONE`, after a step. -/
def ReachedBySteps (s u : State) : Prop :=
  ∃ n rsps, StepsTo n s { u with rsps := rsps } ∧ u.rsps = s.rsps ∧
    (u.dec.state = .run ∨ (u.dec.state = .done ∧ 1 ≤ n))

theorem ReachedBySteps.step {o : StepYield} (h : ReachedBySteps s u) (hr : u.dec.state = .run)
    (hd : decStep u = (o, v)) (ho : o ≠ .malformed) : ReachedBySteps s v := by
  obtain ⟨n, rsps, hsteps, hrsps, -⟩ := h
  rw [← decStep_rsps (congrArg Prod.snd hd)] at hrsps
  obtain ⟨y, hexec⟩ := exec_decStep_of_ne_malformed (s := { u with rsps := rsps }) hr (decStep_setRsps hd rsps) ho
  exact ⟨n + 1, rsps ++ [y.word], hsteps.snoc hr hexec, hrsps,
    (decStep_state_of_ne_malformed hr hd ho).imp_right fun h => ⟨h.1, Nat.le_add_left 1 n⟩⟩

/-- Settles O43: the loop's states are reached by steps, up to the last one or to the step that raises. -/
theorem decRunIsDecStepRepeated : Obligations.DecRunIsDecStepRepeated := by
  refine ⟨by decide, fun s => ⟨exec_decRun_of_not_run, fun hr => ?_⟩⟩
  have hstart : ReachedBySteps s s := ⟨0, s.rsps, .zero s, rfl, .inl hr⟩
  rcases exec_decRun_cases (fun _ _ _ => ReachedBySteps.step) hstart hr with
    ⟨u, ⟨n, rsps, hsteps, hrsps, hdone⟩, hur, hexec⟩ | ⟨u, v, ⟨n, rsps, hsteps, hrsps, -⟩, hur, hd, hexec⟩
  · obtain ⟨hdone, hn⟩ := hdone.resolve_left hur
    refine ⟨n, _, _, hn, hsteps, hexec, rfl, .inl ⟨hdone, ?_⟩⟩
    rw [State.complete_rsps, hrsps, Reply.val_word]
  · have hset := decStep_setRsps hd rsps
    refine ⟨n + 1, _, _, Nat.le_add_left 1 n, hsteps.snoc hur (exec_decStep_of_malformed hur hset), hexec, rfl,
      .inr ⟨(decStep_malformed hur hd).2, ?_⟩⟩
    rw [State.raise_rsps, decStep_rsps (congrArg Prod.snd hd), hrsps]
    rfl

/-! ## How `dec_state` moves (R70) -/

/-- A command that completes has not answered a condition. -/
theorem State.complete_rsps_ne (y : Reply) (c : Condition) (h : u.rsps = s.rsps) :
    (u.complete y).rsps ≠ s.rsps ++ [c.word] := by
  rw [State.complete_rsps, h]
  exact fun heq => y.word_ne_condition_word c (List.append_singleton_inj.mp heq).2

theorem exec_decStep_state (hr : s.dec.state = .run) (h : exec .decStep s = .next t) :
    t.dec.state ≠ .idle ∧ (t.dec.state = .fault ↔ t.rsps = s.rsps ++ [Condition.malformedStream.word]) ∧
      (t.dec.state = .done ↔ t.dec.rem = 0 ∧ ∃ x, t.out = s.out ++ [x]) := by
  rcases decStep_outcome hr with ⟨x, u, hd, hout, hstate⟩ | ⟨u, hd, hout, hstate⟩ | ⟨u, hd, hout, hstate⟩ <;>
    have hrsps : u.rsps = s.rsps := decStep_rsps (by rw [hd])
  · rw [exec_decStep_of_emitted hr hd] at h
    cases h
    by_cases h0 : u.dec.rem = 0#32 <;> simp [hstate, h0, hout, hrsps, Reply.word_ne_condition_word]
  · rw [exec_decStep_of_quiet hr hd] at h
    cases h
    simp [hstate, hout, hrsps, Reply.word_ne_condition_word]
  · rw [exec_decStep_of_malformed hr hd] at h
    cases h
    simp [hstate, hout, hrsps]

/-- A state of the loop of `DEC.RUN`: in `RUN`, or in `DONE` with the count met. -/
def RunOrDone (s u : State) : Prop :=
  u.rsps = s.rsps ∧ (u.dec.state = .run ∨ (u.dec.state = .done ∧ u.dec.rem = 0))

theorem RunOrDone.step {o : StepYield} (h : RunOrDone s u) (hr : u.dec.state = .run) (hd : decStep u = (o, v))
    (ho : o ≠ .malformed) : RunOrDone s v :=
  ⟨(decStep_rsps (congrArg Prod.snd hd)).trans h.1, decStep_state_of_ne_malformed hr hd ho⟩

theorem exec_decRun_state (hr : s.dec.state = .run) (h : exec .decRun s = .next t) :
    (t.dec.state = .fault ∧ t.rsps = s.rsps ++ [Condition.malformedStream.word]) ∨
    (t.dec.state = .done ∧ t.dec.rem = 0 ∧ t.rsps ≠ s.rsps ++ [Condition.malformedStream.word]) := by
  have hstart : RunOrDone s s := ⟨rfl, .inl hr⟩
  rcases exec_decRun_cases (fun _ _ _ => RunOrDone.step) hstart hr with
    ⟨u, ⟨hrsps, hdone⟩, hur, hexec⟩ | ⟨u, v, ⟨hrsps, -⟩, hur, hd, hexec⟩ <;> rw [hexec] at h <;> cases h
  · obtain ⟨hdone, h0⟩ := hdone.resolve_left hur
    exact .inr ⟨hdone, h0, State.complete_rsps_ne _ _ hrsps⟩
  · exact .inl ⟨(decStep_malformed hur hd).2, by rw [State.raise_rsps, decStep_rsps (congrArg Prod.snd hd), hrsps]⟩

/-- `DEC.START` (R73) completes where it can start, and answers a condition elsewhere. -/
theorem exec_decStart_cases (s : State) :
    (s.canStart ∧ exec .decStart s = .next (State.complete .none { s with dec := .started s.hdr.plen })) ∨
    ∃ c, exec .decStart s = .next (s.raise c) := by
  by_cases hc : s.canStart
  · exact .inl ⟨hc, execDecStart_of_canStart hc⟩
  by_cases h : s.hdr.ok = false ∨ s.br.opened = false
  · exact .inr ⟨.illegalCommand, if_pos h⟩
  · have hbad : s.tab.bad = true := by
      by_contra hb
      exact hc (by simpa [State.canStart, and_assoc] using And.intro h hb)
    exact .inr ⟨.codeTableCorrupt, (if_neg h).trans (if_pos hbad)⟩

/-- The events that move `dec_state` are reset, `DEC.START`, and a step in `RUN`. -/
theorem exec_dec_eq (hreset : i ≠ .sysReset) (hstart : i ≠ .decStart)
    (hrun : (i ≠ .decStep ∧ i ≠ .decRun) ∨ s.dec.state ≠ .run) : EndsIn (fun u => u.dec = s.dec) (exec i s) := by
  cases i with
  | bwOpen => exact execBwOpen_endsIn rfl fun _ => rfl
  | bwWrite v =>
    refine execBwWrite_endsIn rfl fun _ b => ?_
    rw [bitWrite_frame]
  | bwFlush => exact execBwFlush_endsIn rfl fun _ _ => rfl
  | brOpen => exact execBrOpen_endsIn rfl fun _ _ _ _ _ => rfl
  | brRead =>
    refine execBrRead_endsIn rfl fun _ _ => ?_
    rw [bitRead_frame]
  | lutClr => exact execLutClr_endsIn rfl fun _ => rfl
  | lutBit b => exact execLutBit_endsIn rfl fun _ => rfl
  | lutCommit sym => exact execLutCommit_endsIn rfl (fun _ => rfl) fun _ _ _ => rfl
  | lutQry => exact execLutQry_endsIn rfl
  | lutStgClr => exact execLutStgClr_endsIn rfl
  | decHdr => exact execDecHdr_endsIn rfl fun _ _ _ _ => rfl
  | decLdTab =>
    refine execDecLdTab_endsIn rfl fun _ => ?_
    rw [ldTabLoop_frame]
  | decStart => exact absurd rfl hstart
  | decStep => exact execDecStep_endsIn rfl fun hr => absurd hr (hrun.resolve_left fun h => h.1 rfl)
  | decRun => exact execDecRun_endsIn rfl fun hr => absurd hr (hrun.resolve_left fun h => h.2 rfl)
  | sysRd r => exact execSysRd_endsIn rfl
  | sysReset => exact absurd rfl hreset

/-- Settles O47: one lemma per event of the table, and `exec_dec_eq` for all others. -/
theorem decStateMovesOnlyAsTheTableSays : Obligations.DecStateMovesOnlyAsTheTableSays := by
  refine ⟨fun i s t h => ⟨?_, ?_, ?_, ?_, ?_, fun hreset hstart hrun => ?_⟩,
    fun s rest hport => ⟨_, step_reset hport, rfl⟩⟩
  · rintro rfl
    cases h
    rfl
  · rintro rfl hrsps
    rcases exec_decStart_cases s with ⟨-, hexec⟩ | ⟨c, hexec⟩ <;> rw [hexec] at h <;> cases h
    · rfl
    · exact absurd hrsps (s.raise_rsps_ne c)
  · rintro rfl hrsps
    rcases exec_decStart_cases s with ⟨-, hexec⟩ | ⟨c, hexec⟩ <;> rw [hexec] at h <;> cases h
    · exact absurd rfl hrsps
    · rfl
  · rintro rfl hr
    exact exec_decStep_state hr h
  · rintro rfl hr
    exact exec_decRun_state hr h
  · have hends := exec_dec_eq hreset hstart hrun
    rw [h] at hends
    cases hends with
    | completes u y hu => exact congrArg Automaton.state hu
    | raises u c hu => exact congrArg Automaton.state hu

end Sys2Proof.Machine

/-! Proofs of the statements of spec/43_decoder_fsm.md, third part: what a run emits. A state of a run that has taken n
bits and emitted ys is `State.decoding`; what holds of it is `Decoded`, which every step keeps that does not raise. -/

namespace Sys2Proof.Machine

variable {s t u v : State} {b : Bool} {x : Symbol} {n : Nat} {xs ys : List Symbol}

/-! ## Where the reader stands after n bits (R57) -/

/-- The bytes pulled by the next n reads: the last bit taken decides (R57). -/
def State.pulls (n : Nat) (s : State) : Nat := (s.br.pos.val + n - 1) / 8

/-- The state after n reads that each deliver a bit. -/
def State.advance (n : Nat) (s : State) : State :=
  { s with
    br := { s.br with
      cur := (s.br.cur :: s.src).getD (s.pulls n) 0
      pos := ⟨s.br.pos.val + n - 8 * s.pulls n, by unfold State.pulls; omega⟩ }
    src := s.src.drop (s.pulls n) }

theorem State.advance_zero (s : State) : s.advance 0 = s := by
  have hk : s.pulls 0 = 0 := by
    unfold State.pulls
    omega
  simp [State.advance, hk]

theorem State.advance_pos (n : Nat) (s : State) :
    (s.advance n).br.pos.val = s.br.pos.val + n - 8 * s.pulls n := rfl

/-- One read more. -/
theorem bitRead_advance_snd (he : s.br.eos = false) (hn : n < bitsLeft s) :
    (bitRead (s.advance n)).2 = s.advance (n + 1) := by
  have hpos := s.advance_pos n
  have hk : s.pulls n = (s.br.pos.val + n - 1) / 8 := rfl
  have hk' : s.pulls (n + 1) = (s.br.pos.val + n) / 8 := rfl
  by_cases hlt : (s.advance n).br.pos.val < 8
  · have hsame : s.pulls (n + 1) = s.pulls n := by omega
    rw [bitRead_of_pos_lt (s := s.advance n) he hlt]
    simp only [State.advance, hsame]
    congr 3
    omega
  · have hnext : s.pulls (n + 1) = s.pulls n + 1 := by omega
    have hsrc : s.pulls n < s.src.length := by
      rw [bitsLeft] at hn
      omega
    rw [bitRead_of_src_cons (s := s.advance n) he (by omega) (List.drop_eq_getElem_cons hsrc)]
    simp only [State.advance, hnext]
    congr 2
    · simp [hsrc]
    · refine Fin.ext ?_
      show 1 = _
      simp only
      omega

theorem State.eos_eq_false_of_bitsAhead (h : s.bitsAhead ≠ []) : s.br.eos = false := by
  by_contra he
  exact h (State.bitsAhead_of_eos (by simpa using he))

theorem State.advance_bitsAhead (hn : n ≤ s.bitsAhead.length) : (s.advance n).bitsAhead = s.bitsAhead.drop n := by
  induction n with
  | zero => rw [State.advance_zero, List.drop_zero]
  | succ n ih =>
    have he := State.eos_eq_false_of_bitsAhead (List.ne_nil_of_length_pos (Nat.zero_lt_of_lt hn))
    rw [← bitRead_advance_snd he (by rwa [State.bitsAhead_length he] at hn), bitRead_snd_bitsAhead, ih (by omega),
      List.tail_drop]

theorem bitRead_advance (h : s.bitsAhead[n]? = some b) : bitRead (s.advance n) = (some b, s.advance (n + 1)) := by
  obtain ⟨hn, -⟩ := List.getElem?_eq_some_iff.mp h
  have he := State.eos_eq_false_of_bitsAhead (List.ne_nil_of_length_pos (Nat.zero_lt_of_lt hn))
  refine Prod.ext ?_ (bitRead_advance_snd he (State.bitsAhead_length he ▸ hn))
  rw [bitRead_fst, State.advance_bitsAhead hn.le, List.head?_drop, h]

/-! ## The codewords of a table (R69) -/

section
variable {tab : Table} {code : Symbol → BitString} {c : BitString} {a : Symbol}

/-- The codeword of a symbol, ε where it has none. -/
def Table.codeOf (tab : Table) (a : Symbol) : BitString := (tab.entry a).getD []

/-- Each symbol of the sequence has a codeword. -/
def Table.Codes (tab : Table) (xs : List Symbol) : Prop := ∀ a ∈ xs, tab.entry a = some (tab.codeOf a)

theorem Table.codeOf_eq (h : tab.entry a = some c) : tab.codeOf a = c := by
  rw [Table.codeOf, h, Option.getD_some]

theorem Table.codes_of_entry (h : ∀ a ∈ xs, tab.entry a = some (code a)) : tab.Codes xs := fun a ha => by
  rw [h a ha, Table.codeOf_eq (h a ha)]

theorem Table.flatMap_codeOf (h : ∀ a ∈ xs, tab.entry a = some (code a)) : xs.flatMap tab.codeOf = xs.flatMap code :=
  List.flatMap_congr fun a ha => Table.codeOf_eq (h a ha)

theorem Table.Codes.append (hx : tab.Codes xs) (hy : tab.Codes ys) : tab.Codes (xs ++ ys) :=
  List.forall_mem_append.mpr ⟨hx, hy⟩

/-- Only the empty sequence has no bits. -/
theorem Table.Codes.eq_nil (hf : tab.prefixFree) (hx : tab.Codes xs) (h : xs.flatMap tab.codeOf = []) : xs = [] := by
  cases xs with
  | nil => rfl
  | cons a xs =>
    have ha := hx a (by simp)
    rw [List.flatMap_cons, List.append_eq_nil_iff] at h
    exact absurd (h.1 ▸ ha) (hf.entry_ne_nil a)

/-- A sequence whose bits start another's bits starts the other (R69 item 1). -/
theorem Table.Codes.prefix_of_flatMap (hf : tab.prefixFree) (hx : tab.Codes xs) (hy : tab.Codes ys)
    (h : ys.flatMap tab.codeOf <+: xs.flatMap tab.codeOf) : ys <+: xs := by
  refine (codewordsDecodeUniquely tab tab.codeOf ys xs _ hf (hy.append hx) h (List.prefix_refl _)).elim id ?_
  rintro ⟨zs, rfl⟩
  have hz : zs.flatMap tab.codeOf = [] := by
    have hlen := h.length_le
    rw [List.flatMap_append, List.length_append] at hlen
    exact List.length_eq_zero_iff.mp (by omega)
  rw [Table.Codes.eq_nil hf (fun a ha => hy a (by simp [ha])) hz, List.append_nil]

theorem Table.Codes.eq_of_flatMap (hf : tab.prefixFree) (hx : tab.Codes xs) (hy : tab.Codes ys)
    (h : ys.flatMap tab.codeOf = xs.flatMap tab.codeOf) : ys = xs :=
  (hx.prefix_of_flatMap hf hy (h ▸ List.prefix_refl _)).eq_of_length_le
    (hy.prefix_of_flatMap hf hx (h ▸ List.prefix_refl _)).length_le

end

/-! ## The states of a run -/

/-- The state of a run from s that has taken n bits and emitted ys, with the automaton d. -/
def State.decoding (n : Nat) (ys : List Symbol) (d : Automaton) (s : State) : State :=
  { s.advance n with dec := d, out := s.out ++ ys }

/-- What holds of such a state: the bits taken are the codewords emitted and the accumulator, and the counts follow. -/
structure Decoded (s : State) (n : Nat) (ys : List Symbol) (d : Automaton) : Prop where
  taken : n ≤ s.bitsAhead.length
  codes : s.tab.Codes ys
  bits : s.dec.acc ++ s.bitsAhead.take n = ys.flatMap s.tab.codeOf ++ d.acc
  emit : d.emit = s.dec.emit + BitVec.ofNat 32 ys.length
  countBits : s.params.framing = .bits → d.rem.toNat + n = s.dec.rem.toNat
  countSyms : s.params.framing = .syms → d.rem.toNat + ys.length = s.dec.rem.toNat
  state : (d.state = .run ∧ d.rem ≠ 0 ∧ (d.acc = [] ∨ s.tab.hasProperPrefix d.acc)) ∨
    (d.state = .done ∧ d.rem = 0 ∧ d.acc = [] ∧ 0 < n)

/-- A state that a run may start from (R22 items 3 and 5). -/
structure State.Decodes (s : State) : Prop where
  prefixFree : s.tab.prefixFree
  run : s.dec.state = .run
  rem : s.dec.rem ≠ 0
  acc : s.dec.acc = [] ∨ s.tab.hasProperPrefix s.dec.acc

theorem Inv.decodes (h : Inv s) (hr : s.dec.state = .run) : s.Decodes := by
  obtain ⟨hrem, -, -, -, hacc⟩ := h.running hr
  exact ⟨h.tableFree, hr, hrem, hacc⟩

theorem State.decoding_zero (s : State) : s.decoding 0 [] s.dec = s := by
  rw [State.decoding, State.advance_zero, List.append_nil]

theorem State.Decodes.decoded (h : s.Decodes) : Decoded s 0 [] s.dec where
  taken := Nat.zero_le _
  codes := nofun
  bits := by simp
  emit := by simp
  countBits _ := rfl
  countSyms _ := rfl
  state := .inl ⟨h.run, h.rem, h.acc⟩

section
variable {d : Automaton}

theorem bitRead_decoding (ys : List Symbol) (d : Automaton) (h : s.bitsAhead[n]? = some b) :
    bitRead (s.decoding n ys d) = (some b, s.decoding (n + 1) ys d) := by
  have hset := bitRead_setReader (s.decoding n ys d) (s.advance n)
  rw [bitRead_advance h] at hset
  exact hset

theorem Decoded.bitsAhead (h : Decoded s n ys d) : (s.decoding n ys d).bitsAhead = s.bitsAhead.drop n :=
  State.advance_bitsAhead h.taken

/-- One bit more in the accumulator. -/
theorem Decoded.bits_succ (h : Decoded s n ys d) (hb : s.bitsAhead[n]? = some b) :
    s.dec.acc ++ s.bitsAhead.take (n + 1) = ys.flatMap s.tab.codeOf ++ (d.acc ++ [b]) := by
  rw [List.take_add_one, hb, Option.toList_some, ← List.append_assoc, h.bits, List.append_assoc]

theorem Decoded.rem_ne_zero (h : Decoded s n ys d) (hr : d.state = .run) : d.rem ≠ 0 := by
  rcases h.state with ⟨-, hrem, -⟩ | ⟨hdone, -⟩
  · exact hrem
  · rw [hr] at hdone
    cases hdone

/-- A codeword complete. -/
theorem Decoded.emitted (h : Decoded s n ys d) (hr : d.state = .run) (hb : s.bitsAhead[n]? = some b)
    (hm : lutMatch (d.acc ++ [b]) s.tab = some x) :
    Decoded s (n + 1) (ys ++ [x]) ⟨if d.rem - 1 = 0 then .done else d.state, [], d.rem - 1, d.emit + 1⟩ := by
  have hx := lutMatch_some hm
  have hrem := h.rem_ne_zero hr
  have hsub := toNat_sub_one hrem
  have hpos : d.rem.toNat ≠ 0 := fun h0 => hrem (BitVec.eq_of_toNat_eq h0)
  refine ⟨(List.getElem?_eq_some_iff.mp hb).1, h.codes.append ?_, ?_, ?_, fun hf => ?_, fun hf => ?_, ?_⟩
  · simpa [Table.Codes, Table.codeOf_eq hx] using hx
  · rw [h.bits_succ hb, List.flatMap_append, List.flatMap_singleton, Table.codeOf_eq hx, List.append_nil]
  · simp [h.emit, BitVec.ofNat_add, BitVec.add_assoc]
  · have := h.countBits hf
    simp only [hsub]
    omega
  · have := h.countSyms hf
    simp only [hsub, List.length_append, List.length_singleton]
    omega
  · by_cases h0 : d.rem - 1 = 0
    · exact .inr ⟨if_pos h0, h0, rfl, Nat.succ_pos n⟩
    · exact .inl ⟨(if_neg h0).trans hr, h0, .inl rfl⟩

/-- A bit of a codeword that is not complete. -/
theorem Decoded.accepted (h : Decoded s n ys d) (hr : d.state = .run) (hb : s.bitsAhead[n]? = some b)
    (hp : lutPrefix (d.acc ++ [b]) s.tab = true)
    (hc : ¬ (s.params.framing = .bits ∧ (decAccept b (s.decoding (n + 1) ys d)).dec.rem = 0)) :
    Decoded s (n + 1) ys (decAccept b (s.decoding (n + 1) ys d)).dec := by
  have hrem := h.rem_ne_zero hr
  have hpos : d.rem.toNat ≠ 0 := fun h0 => hrem (BitVec.eq_of_toNat_eq h0)
  refine ⟨(List.getElem?_eq_some_iff.mp hb).1, h.codes, h.bits_succ hb, h.emit, fun hf => ?_, fun hf => ?_,
    .inl ⟨hr, decAccept_rem_ne_zero hrem hc, .inr (lutPrefix_iff.mp hp)⟩⟩
  · have hlower : (d.rem - 1).toNat = d.rem.toNat - 1 := toNat_sub_one hrem
    have hcount := h.countBits hf
    rw [decAccept_rem_bits (s := s.decoding (n + 1) ys d) b hf]
    change (d.rem - 1).toNat + (n + 1) = _
    omega
  · rw [decAccept_rem_syms (s := s.decoding (n + 1) ys d) b hf]
    exact h.countSyms hf

/-- A state of a run from s. -/
def RunState (s u : State) : Prop := ∃ n ys d, u = s.decoding n ys d ∧ Decoded s n ys d

/-- Every step that does not raise leads to a state of the run. -/
theorem RunState.step {o : StepYield} (h : RunState s u) (hr : u.dec.state = .run) (hd : decStep u = (o, v))
    (ho : o ≠ .malformed) : RunState s v := by
  obtain ⟨n, ys, d, rfl, h⟩ := h
  replace hr : d.state = .run := hr
  rcases hb : s.bitsAhead[n]? with _ | b
  · have hnil : (s.decoding n ys d).bitsAhead = [] := by
      rw [h.bitsAhead, List.drop_eq_nil_iff]
      exact List.getElem?_eq_none_iff.mp hb
    rw [decStep_of_none (bitRead_of_bitsAhead_nil hnil)] at hd
    cases hd
    exact absurd rfl ho
  have hread := bitRead_decoding ys d hb
  rcases hm : lutMatch (d.acc ++ [b]) s.tab with _ | x
  · by_cases hdead : lutPrefix (d.acc ++ [b]) s.tab = false ∨
        (s.params.framing = .bits ∧ (decAccept b (s.decoding (n + 1) ys d)).dec.rem = 0)
    · rw [decStep_of_dead hread hm hdead] at hd
      cases hd
      exact absurd rfl ho
    · obtain ⟨hp, hc⟩ := not_or.mp hdead
      rw [Bool.not_eq_false] at hp
      rw [decStep_of_prefix hread hm hp hc] at hd
      cases hd
      exact ⟨n + 1, ys, _, rfl, h.accepted hr hb hp hc⟩
  · rw [decStep_of_match hread hm, decEmit_decAccept] at hd
    cases hd
    refine ⟨n + 1, ys ++ [x], _, ?_, h.emitted hr hb hm⟩
    simp only [State.decoding, List.append_assoc]
    rfl

/-- How `DEC.RUN` ends: in `DONE` at a state of the run, or by a step from one that raises. -/
theorem exec_decRun_decoded (h : s.Decodes) :
    (∃ n ys d, Decoded s n ys d ∧ d.state = .done ∧
      exec .decRun s = .next ((s.decoding n ys d).complete (.val d.emit))) ∨
    (∃ n ys d v, Decoded s n ys d ∧ d.state = .run ∧ decStep (s.decoding n ys d) = (.malformed, v) ∧
      exec .decRun s = .next (v.raise .malformedStream)) := by
  have hstart : RunState s s := ⟨0, [], s.dec, s.decoding_zero.symm, h.decoded⟩
  rcases exec_decRun_cases (fun _ _ _ => RunState.step) hstart h.run with
    ⟨_, ⟨n, ys, d, rfl, hd⟩, hur, hexec⟩ | ⟨_, v, ⟨n, ys, d, rfl, hd⟩, hur, hv, hexec⟩
  · have hdone := hd.state.resolve_left fun hr => hur hr.1
    exact .inl ⟨n, ys, d, hd, hdone.1, hexec⟩
  · exact .inr ⟨n, ys, d, v, hd, hur, hv, hexec⟩

/-- In `DONE` the count is met, the accumulator empty, and a bit was taken. -/
theorem Decoded.done (h : Decoded s n ys d) (hd : d.state = .done) : d = ⟨.done, [], 0, d.emit⟩ ∧ 0 < n := by
  rcases h.state with ⟨hr, -⟩ | ⟨-, hrem, hacc, hn⟩
  · rw [hr] at hd
    cases hd
  · refine ⟨?_, hn⟩
    rw [← hd, ← hacc, ← hrem]

/-- Settles O45: the run ended at a state that is `Decoded`. -/
theorem doneRunTookExactlyTheDeclaredCount : Obligations.DoneRunTookExactlyTheDeclaredCount := by
  intro s t hinv hr hexec hdone
  rcases exec_decRun_decoded (hinv.decodes hr) with ⟨n, ys, d, h, hd, hrun⟩ | ⟨n, ys, d, v, h, hdr, hv, hrun⟩ <;>
    rw [hrun] at hexec <;> cases hexec
  · obtain ⟨hdeq, hn⟩ := h.done hd
    have hlen : (s.bitsAhead.take n).length = n := List.length_take_of_le h.taken
    have hbits := h.bits
    have hcount := h.countBits
    have hsyms := h.countSyms
    rw [hdeq] at hbits hcount hsyms
    have hnot : ∀ r, (State.complete r (s.decoding n ys d)).dec.state ≠ .run := fun r hrun => by
      rw [State.complete_dec, State.decoding, hd] at hrun
      cases hrun
    refine ⟨ys, s.tab.codeOf, s.bitsAhead.take n, rfl, h.codes, ?_, by simpa using hbits, ?_, ?_, fun hf => ?_,
      fun hf => ?_, exec_decStep_of_not_run (hnot _), exec_decRun_of_not_run (hnot _)⟩
    · rw [show State.bitsAhead (State.complete _ (s.decoding n ys d)) = (s.decoding n ys d).bitsAhead from rfl,
        h.bitsAhead, List.take_append_drop]
    · rw [hlen]
      rfl
    · have hahead : s.bitsAhead ≠ [] := List.ne_nil_of_length_pos (Nat.lt_of_lt_of_le hn h.taken)
      have heos := State.eos_eq_false_of_bitsAhead hahead
      exact heos
    · rw [hlen, ← hcount hf]
      simp
    · rw [← hsyms hf]
      simp
  · rw [State.raise_dec, (decStep_malformed hdr hv).2] at hdone
    cases hdone

/-! ## Runs over the codewords of a given sequence -/

/-- In `RUN` no codeword is in the accumulator: that is empty, or inside a codeword. -/
theorem Decoded.not_prefix_acc {a : Symbol} {c : BitString} (hf : s.tab.prefixFree) (h : Decoded s n ys d)
    (hr : d.state = .run) (ha : s.tab.entry a = some c) : ¬ c <+: d.acc := by
  intro hc
  rcases h.state with ⟨-, -, hnil | ⟨a', c', ha', hproper⟩⟩ | ⟨hdone, -⟩
  · rw [hnil, List.prefix_nil] at hc
    exact hf.entry_ne_nil a (hc ▸ ha)
  · obtain ⟨hpre, hlt⟩ := isProperPrefix_iff.mp hproper
    obtain rfl := hf.symbol_eq ha ha' (hc.trans hpre)
    obtain rfl := Option.some.inj (ha.symm.trans ha')
    exact absurd hc.length_le (by omega)
  · rw [hr] at hdone
    cases hdone

/-- With the next bit the accumulator is the start of the next codeword of xs, and the whole of it if xs ends there. -/
theorem Decoded.next_codeword (hf : s.tab.prefixFree) (h : Decoded s n ys d) (hr : d.state = .run)
    (hx : s.tab.Codes xs) (hpre : ys.flatMap s.tab.codeOf ++ (d.acc ++ [b]) <+: xs.flatMap s.tab.codeOf) :
    ∃ a c, s.tab.entry a = some c ∧ d.acc ++ [b] <+: c ∧
      (ys.flatMap s.tab.codeOf ++ (d.acc ++ [b]) = xs.flatMap s.tab.codeOf → c = d.acc ++ [b]) := by
  obtain ⟨zs, rfl⟩ := hx.prefix_of_flatMap hf h.codes ((List.prefix_append _ _).trans hpre)
  rw [List.flatMap_append, List.prefix_append_right_inj] at hpre
  rw [List.flatMap_append, List.append_right_inj]
  cases zs with
  | nil => simp at hpre
  | cons a zs =>
    have ha : s.tab.entry a = some (s.tab.codeOf a) := hx a (by simp)
    -- a codeword that starts the longer accumulator is no shorter, as it does not start the accumulator
    have hwhole : s.tab.codeOf a <+: d.acc ++ [b] → s.tab.codeOf a = d.acc ++ [b] := fun hc =>
      (List.prefix_concat_iff.mp hc).resolve_right (h.not_prefix_acc hf hr ha)
    rw [List.flatMap_cons] at hpre ⊢
    refine ⟨a, _, ha, ?_, fun heq => hwhole (heq ▸ List.prefix_append _ _)⟩
    rcases List.prefix_or_prefix_of_prefix (List.prefix_append _ _) hpre with hc | hc
    · rw [hwhole hc]
    · exact hc

/-- What the count declares (R74): the codewords of xs, of which the accumulator and the bits w are left. All bits ahead
and w start the same string, so w may be ahead whole, or the source may end inside it. -/
structure State.Declares (xs : List Symbol) (w whole : BitString) (s : State) : Prop where
  codes : s.tab.Codes xs
  bits : s.dec.acc ++ w = xs.flatMap s.tab.codeOf
  declared : w <+: whole
  ahead : s.bitsAhead <+: whole
  countBits : s.params.framing = .bits → s.dec.rem.toNat = w.length
  countSyms : s.params.framing = .syms → s.dec.rem.toNat = xs.length

section
variable {w whole : BitString}

/-- The bits taken are the first of the string. -/
theorem Decoded.take_whole (h : Decoded s n ys d) (hD : s.Declares xs w whole) :
    s.bitsAhead.take n = whole.take n := by
  obtain ⟨more, hmore⟩ := hD.ahead
  rw [← hmore, List.take_append_of_le_length h.taken]

theorem State.Declares.take_length (hD : s.Declares xs w whole) : whole.take w.length = w :=
  (List.prefix_iff_eq_take.mp hD.declared).symm

/-- In `RUN` a declared bit is left. -/
theorem Decoded.taken_lt (hf : s.tab.prefixFree) (h : Decoded s n ys d) (hr : d.state = .run)
    (hD : s.Declares xs w whole) : n < w.length := by
  have hpos : d.rem.toNat ≠ 0 := fun h0 => h.rem_ne_zero hr (BitVec.eq_of_toNat_eq h0)
  cases hfr : s.params.framing with
  | bits =>
    have := h.countBits hfr
    have := hD.countBits hfr
    omega
  | syms =>
    by_contra hle
    have hlen : ys.length < xs.length := by
      have := h.countSyms hfr
      have := hD.countSyms hfr
      omega
    have hpre : xs.flatMap s.tab.codeOf <+: ys.flatMap s.tab.codeOf ++ d.acc := by
      rw [← hD.bits, ← h.bits, h.take_whole hD, List.prefix_append_right_inj, ← hD.take_length]
      exact List.take_prefix_take_left (Nat.le_of_not_lt hle)
    rcases codewordsDecodeUniquely s.tab s.tab.codeOf xs ys _ hf (hD.codes.append h.codes) hpre
      (List.prefix_append _ _) with hxy | ⟨zs, rfl⟩
    · exact absurd hxy.length_le (by omega)
    · cases zs with
      | nil => simp at hlen
      | cons a zs =>
        rw [List.flatMap_append, List.prefix_append_right_inj, List.flatMap_cons] at hpre
        exact h.not_prefix_acc hf hr (hD.codes a (by simp)) ((List.prefix_append _ _).trans hpre)

/-- At the end all of xs is emitted and all of w taken. -/
theorem Decoded.done_eq (hf : s.tab.prefixFree) (h : Decoded s n ys d) (hd : d.state = .done)
    (hD : s.Declares xs w whole) : ys = xs ∧ n = w.length := by
  obtain ⟨hdeq, -⟩ := h.done hd
  have hbits := h.bits
  have hcountBits := h.countBits
  have hcountSyms := h.countSyms
  rw [hdeq] at hbits hcountBits hcountSyms
  rw [List.append_nil, h.take_whole hD] at hbits
  cases hfr : s.params.framing with
  | bits =>
    have hn : n = w.length := by simpa [hD.countBits hfr] using hcountBits hfr
    rw [hn, hD.take_length, hD.bits] at hbits
    exact ⟨(hD.codes.eq_of_flatMap hf h.codes hbits.symm), hn⟩
  | syms =>
    have hlen : ys.length = xs.length := by simpa [hD.countSyms hfr] using hcountSyms hfr
    have hys : ys.flatMap s.tab.codeOf <+: s.dec.acc ++ whole := by
      rw [← hbits, List.prefix_append_right_inj]
      exact List.take_prefix n whole
    have hxs : xs.flatMap s.tab.codeOf <+: s.dec.acc ++ whole := by
      rw [← hD.bits, List.prefix_append_right_inj]
      exact hD.declared
    have heq : ys = xs := by
      rcases codewordsDecodeUniquely s.tab s.tab.codeOf ys xs _ hf (h.codes.append hD.codes) hys hxs with hp | hp
      · exact hp.eq_of_length hlen
      · exact (hp.eq_of_length hlen.symm).symm
    have htake : s.bitsAhead.take n = w := by
      rw [h.take_whole hD]
      exact List.append_cancel_left (hbits.trans (heq ▸ hD.bits.symm))
    exact ⟨heq, by rw [← htake, List.length_take_of_le h.taken]⟩

/-- With the declared bits ahead no step raises. -/
theorem Decoded.not_malformed (hf : s.tab.prefixFree) (h : Decoded s n ys d) (hr : d.state = .run)
    (hD : s.Declares xs w whole) (hw : w <+: s.bitsAhead) : decStep (s.decoding n ys d) ≠ (.malformed, v) := by
  have hn := h.taken_lt hf hr hD
  have hlt := Nat.lt_of_lt_of_le hn hw.length_le
  obtain ⟨b, hb⟩ : ∃ b, s.bitsAhead[n]? = some b := ⟨_, List.getElem?_eq_getElem hlt⟩
  have hread := bitRead_decoding ys d hb
  have htake : s.bitsAhead.take (n + 1) = w.take (n + 1) := by
    obtain ⟨more, hmore⟩ := hw
    rw [← hmore, List.take_append_of_le_length hn]
  have hpre : ys.flatMap s.tab.codeOf ++ (d.acc ++ [b]) <+: xs.flatMap s.tab.codeOf := by
    rw [← h.bits_succ hb, ← hD.bits, List.prefix_append_right_inj, htake]
    exact List.take_prefix _ _
  obtain ⟨a, c, ha, hc, hend⟩ := h.next_codeword hf hr hD.codes hpre
  rcases hm : lutMatch (d.acc ++ [b]) s.tab with _ | x
  · have hne : d.acc ++ [b] ≠ c := fun heq => lutMatch_none_iff.mp hm a (heq ▸ ha)
    have hcount : ¬ (s.params.framing = .bits ∧ (decAccept b (s.decoding (n + 1) ys d)).dec.rem = 0) := by
      rintro ⟨hfr, h0⟩
      rw [decAccept_rem_bits (s := s.decoding (n + 1) ys d) b hfr] at h0
      have hlast : (d.rem - 1).toNat = 0 := congrArg BitVec.toNat h0
      rw [toNat_sub_one (h.rem_ne_zero hr)] at hlast
      have := h.countBits hfr
      have := hD.countBits hfr
      refine hne (hend ?_).symm
      rw [← h.bits_succ hb, ← hD.bits, htake, List.take_of_length_le (by omega)]
    rw [decStep_of_prefix hread hm (lutPrefix_iff_ne.mpr ⟨a, c, ha, hc, hne⟩) hcount]
    simp
  · rw [decStep_of_match hread hm]
    simp

/-- `DEC.RUN` on a well-formed payload (R74, R76). -/
theorem exec_decRun_of_declares (hs : s.Decodes) (hD : s.Declares xs w whole) (hw : w <+: s.bitsAhead) :
    0 < w.length ∧ exec .decRun s = .next (State.complete (.val (s.dec.emit + BitVec.ofNat 32 xs.length))
      (s.decoding w.length xs ⟨.done, [], 0, s.dec.emit + BitVec.ofNat 32 xs.length⟩)) := by
  rcases exec_decRun_decoded hs with ⟨n, ys, d, h, hd, hexec⟩ | ⟨n, ys, d, v, h, hdr, hv, -⟩
  · obtain ⟨rfl, rfl⟩ := h.done_eq hs.prefixFree hd hD
    obtain ⟨hdeq, hpos⟩ := h.done hd
    rw [h.emit] at hdeq hexec
    rw [hdeq] at hexec
    exact ⟨hpos, hexec⟩
  · exact absurd hv (h.not_malformed hs.prefixFree hdr hD hw)

/-- `DEC.RUN` on a payload that ends too early (R79): it raises, after a start of xs. -/
theorem exec_decRun_of_truncated (hs : s.Decodes) (hD : s.Declares xs w whole) (hcut : s.bitsAhead.length < w.length) :
    ∃ (v : State) (ys : List Symbol), exec .decRun s = .next (v.raise .malformedStream) ∧ v.dec.state = .fault ∧
      v.out = s.out ++ ys ∧ v.rsps = s.rsps ∧ ys <+: xs ∧ ys ≠ xs := by
  have hf := hs.prefixFree
  rcases exec_decRun_decoded hs with ⟨n, ys, d, h, hd, -⟩ | ⟨n, ys, d, v, h, hdr, hv, hexec⟩
  · obtain ⟨-, rfl⟩ := h.done_eq hf hd hD
    exact absurd h.taken (by omega)
  · obtain ⟨hout, hfault⟩ := decStep_malformed hdr hv
    have hn := h.taken_lt hf hdr hD
    have hpre : ys.flatMap s.tab.codeOf ++ d.acc <+: xs.flatMap s.tab.codeOf := by
      rw [← h.bits, ← hD.bits, h.take_whole hD, List.prefix_append_right_inj, ← hD.take_length]
      exact List.take_prefix_take_left hn.le
    refine ⟨v, ys, hexec, hfault, hout, decStep_rsps (s := s.decoding n ys d) (congrArg Prod.snd hv),
      hD.codes.prefix_of_flatMap hf h.codes ((List.prefix_append _ _).trans hpre), ?_⟩
    rintro rfl
    have hlen := congrArg List.length h.bits
    rw [← hD.bits] at hlen
    simp only [List.length_append, List.length_take_of_le h.taken] at hlen
    omega

end

/-- Settles O44: the declared bits are ahead (`exec_decRun_of_declares`), and the reader stands after them. -/
theorem decRunCompletesOnAWellFormedPayload : Obligations.DecRunCompletesOnAWellFormedPayload := by
  intro s code xs w rest k hinv hr hcode hahead hbits hcb hcs hk
  have hw : w <+: s.bitsAhead := hahead ▸ List.prefix_append w rest
  have hD : s.Declares xs w s.bitsAhead :=
    ⟨Table.codes_of_entry hcode, hbits.trans (Table.flatMap_codeOf hcode).symm, hw, List.prefix_refl _, hcb, hcs⟩
  obtain ⟨hpos, hexec⟩ := exec_decRun_of_declares (hinv.decodes hr) hD hw
  have hle := hw.length_le
  have heos := State.eos_eq_false_of_bitsAhead (List.ne_nil_of_length_pos (Nat.lt_of_lt_of_le hpos hle))
  have hbr : (s.advance w.length).br =
      ⟨true, (s.br.cur :: s.src).getD k 0, (s.advance w.length).br.pos, false⟩ := by
    rw [hk, ← (hinv.canStart hr).2.1, ← heos]
    rfl
  have hadv : s.advance w.length = { s with
      br := ⟨true, (s.br.cur :: s.src).getD k 0, (s.advance w.length).br.pos, false⟩, src := s.src.drop k } := by
    rw [← hbr, hk]
    rfl
  refine ⟨(s.advance w.length).br.pos, ?_, ?_, ?_, ?_⟩
  · rw [State.advance_pos, State.pulls, hk]
    omega
  · rw [State.bitsAhead_length heos, bitsLeft] at hle
    omega
  · rw [hexec, State.complete, Reply.val_word, State.decoding, hadv]
  · rw [← hadv, State.advance_bitsAhead hle, hahead, List.drop_left]

end

end Sys2Proof.Machine

/-! Proofs of the statements of spec/43_decoder_fsm.md, last part: the laws of R79. A decode session loads the table
(`execAll_loadTable`), starts the decode (`execAll_startDecode`), and runs over bits that declare the encoded symbols
(`Encodes.declares`). -/

namespace Sys2Proof.Machine

variable {s t : State} {tab tab' : Table} {pairs : List (Symbol × BitString)} {code : Symbol → BitString}
  {xs : List Symbol} {f : Framing} {plen : Nat} {payload rest : List Byte} {x : Byte}

/-! ## The size of the table block (R37) -/

theorem isCodeword_iff {c : BitString} : BitString.isCodeword c = true ↔ 1 ≤ c.length ∧ c.length ≤ 255 :=
  decide_eq_true_iff

theorem insertAll_count (h : insertAll pairs tab = some tab') : tab'.count = tab.count + pairs.length := by
  induction pairs generalizing tab with
  | nil =>
    cases h
    rfl
  | cons p ps ih =>
    by_cases hp : tab.Admits p
    · rw [insertAll_cons_of_admits hp] at h
      rw [ih h, Table.count_setEntry hp.entry_eq_none, List.length_cons]
      omega
    · simp [insertAll_cons_of_not_admits hp] at h

theorem tableBlock_length_le (h : ∀ p ∈ pairs, BitString.isCodeword p.2 = true) :
    (tableBlock pairs).length ≤ 34 * pairs.length := by
  induction pairs with
  | nil => exact Nat.le_refl 0
  | cons p ps ih =>
    rw [List.forall_mem_cons] at h
    have hp := isCodeword_iff.mp h.1
    have := ih h.2
    have hbytes : ceil8 p.2.length ≤ 32 := by
      rw [ceil8_eq]
      omega
    simp only [tableBlock_cons, List.length_cons, List.length_append, packBits_length]
    omega

/-! ## What R79 asks of a file -/

/-- The symbols xs and the pairs of the table that encodes them, with a payload length that fits its field. -/
structure Encodes (f : Framing) (pairs : List (Symbol × BitString)) (tab : Table) (code : Symbol → BitString)
    (xs : List Symbol) : Prop where
  codewords : ∀ p ∈ pairs, BitString.isCodeword p.2 = true
  table : insertAll pairs Table.reset = some tab
  nonempty : xs ≠ []
  coded : ∀ x ∈ xs, (x, code x) ∈ pairs
  fits : payloadLength f code xs < 2 ^ 32

theorem Encodes.isTableBlock (h : Encodes f pairs tab code xs) : IsTableBlock (tableBlock pairs) pairs :=
  writtenTableBlocksAreTableBlocks pairs fun p hp => isCodeword_iff.mp (h.codewords p hp)

/-- A table has at most 256 entries of at most 34 bytes. -/
theorem Encodes.tableBlock_length (h : Encodes f pairs tab code xs) :
    (BitVec.ofNat 32 (tableBlock pairs).length).toNat = (tableBlock pairs).length := by
  have hblock := tableBlock_length_le h.codewords
  have hcount := insertAll_count h.table
  have hmax : tab.count ≤ 256 := tab.count_le
  rw [Table.count_reset] at hcount
  rw [BitVec.toNat_ofNat, Nat.mod_eq_of_lt]
  omega

theorem Encodes.prefixFree (h : Encodes f pairs tab code xs) : tab.prefixFree :=
  insertAll_prefixFree Table.prefixFree_reset
    (fun p hp => (isCodeword_iff.mp (h.codewords p hp)).2) h.table

theorem Encodes.bad (h : Encodes f pairs tab code xs) : tab.bad = false := (insertAll_eq_some h.table).2.1

theorem Encodes.entry (h : Encodes f pairs tab code xs) : ∀ x ∈ xs, tab.entry x = some (code x) := fun x hx =>
  ((insertAll_eq_some h.table).1 x (code x)).mpr (.inl (h.coded x hx))

theorem length_le_payloadBits (h : ∀ x ∈ xs, 1 ≤ (code x).length) : xs.length ≤ (payloadBits code xs).length := by
  induction xs with
  | nil => exact Nat.le_refl 0
  | cons x xs ih =>
    rw [List.forall_mem_cons] at h
    have := ih h.2
    simp only [payloadBits, List.flatMap_cons, List.length_cons, List.length_append] at this ⊢
    omega

/-- Every symbol costs a bit at least. -/
theorem Encodes.length_le (h : Encodes f pairs tab code xs) : xs.length ≤ (payloadBits code xs).length :=
  length_le_payloadBits fun x hx => (isCodeword_iff.mp (h.prefixFree.1 x _ (h.entry x hx))).1

theorem Encodes.payloadBits_pos (h : Encodes f pairs tab code xs) : 0 < (payloadBits code xs).length :=
  Nat.lt_of_lt_of_le (List.length_pos_iff.mpr h.nonempty) h.length_le

/-- The payload length as a field. -/
theorem Encodes.plen_toNat (h : Encodes f pairs tab code xs) :
    (BitVec.ofNat 32 (payloadLength f code xs)).toNat = payloadLength f code xs := by
  rw [BitVec.toNat_ofNat, Nat.mod_eq_of_lt h.fits]

theorem Encodes.length_le_plen (h : Encodes f pairs tab code xs) : xs.length ≤ payloadLength f code xs := by
  cases f with
  | bits => exact h.length_le
  | syms => exact Nat.le_refl _

theorem Encodes.plen_ne_zero (h : Encodes f pairs tab code xs) :
    BitVec.ofNat 32 (payloadLength f code xs) ≠ 0 := by
  intro h0
  have hzero := h.plen_toNat
  rw [h0] at hzero
  have := h.length_le_plen
  have := List.length_pos_iff.mpr h.nonempty
  simp at hzero
  omega

/-! ## The session up to `DEC.RUN` -/

/-- The state after `LUT.CLR`, `DEC.HDR` and `DEC.LDTAB` on a file (R36). -/
def State.loaded (plen : Nat) (pairs : List (Symbol × BitString)) (tab : Table) (payload : List Byte) (s : State) :
    State :=
  { s with
    tab := tab
    hdr := ⟨true, BitVec.ofNat 32 (tableBlock pairs).length, BitVec.ofNat 32 plen⟩
    src := payload
    rsps := s.rsps ++ List.replicate 3 0x0000000000#40 }

/-- The state after `BR.OPEN` and `DEC.START` on a payload that begins with x. -/
def State.session (plen : Nat) (pairs : List (Symbol × BitString)) (tab : Table) (x : Byte) (rest : List Byte)
    (s : State) : State :=
  { s with
    tab := tab
    hdr := ⟨true, BitVec.ofNat 32 (tableBlock pairs).length, BitVec.ofNat 32 plen⟩
    br := ⟨true, x, 0, false⟩
    src := rest
    dec := .started (BitVec.ofNat 32 plen)
    rsps := s.rsps ++ List.replicate 5 0x0000000000#40 }

theorem exec_lutClr_of_not_run (hr : s.dec.state ≠ .run) : exec .lutClr s =
    .next { s with tab := Table.reset, rsps := s.rsps ++ [0x0000000000#40] } := by
  rw [exec, execLutClr, interlocked_free hr]
  rfl

theorem exec_decHdr_of_beBytes {l p : Word32} (hr : s.dec.state ≠ .run) (hrd : s.params.srcRd = true)
    (h : s.src = beBytes l ++ beBytes p ++ rest) :
    exec .decHdr s = .next { s with hdr := ⟨true, l, p⟩, src := rest, rsps := s.rsps ++ [0x0000000000#40] } := by
  rw [exec_decHdr_of_src hr hrd (by simpa [beBytes] using h), be32_beBytes, be32_beBytes]

theorem execAll_loadTable (h : Encodes f pairs tab code xs) (hr : s.dec.state ≠ .run) (hrd : s.params.srcRd = true)
    (hs : s.src = compressedFile plen pairs payload) :
    execAll [.lutClr, .decHdr, .decLdTab] s = .next (s.loaded plen pairs tab payload) := by
  have hhdr := exec_decHdr_of_beBytes (s := { s with tab := Table.reset, rsps := s.rsps ++ [0x0000000000#40] })
    (l := BitVec.ofNat 32 (tableBlock pairs).length) (p := BitVec.ofNat 32 plen) (rest := tableBlock pairs ++ payload)
    hr hrd (by simp [hs, compressedFile])
  rw [execAll_cons (exec_lutClr_of_not_run hr), execAll_cons hhdr, execAll_singleton]
  refine (exec_decLdTab_of_isTableBlock (s := { s with
    tab := Table.reset
    hdr := ⟨true, BitVec.ofNat 32 (tableBlock pairs).length, BitVec.ofNat 32 plen⟩
    src := tableBlock pairs ++ payload
    rsps := s.rsps ++ [0x0000000000#40] ++ [0x0000000000#40] }) hr rfl rfl h.tableBlock_length.symm h.isTableBlock
      h.table).trans ?_
  simp [State.loaded, List.replicate_succ]

theorem execAll_startDecode (h : Encodes f pairs tab code xs) (hr : s.dec.state ≠ .run) (hrd : s.params.srcRd = true)
    (hs : s.src = compressedFile plen pairs (x :: rest)) :
    execAll [.lutClr, .decHdr, .decLdTab, .brOpen, .decStart] s = .next (s.session plen pairs tab x rest) := by
  have hload := execAll_append (execAll_loadTable h hr hrd hs) [.brOpen, .decStart]
  have hopen := exec_brOpen_of_src_cons (s := s.loaded plen pairs tab (x :: rest)) hr hrd rfl
  rw [execAll_cons hopen, execAll_singleton, exec_decStart_of_canStart ⟨rfl, rfl, h.bad⟩] at hload
  refine hload.trans ?_
  simp [State.session, State.openedOn, State.loaded, List.replicate_succ]

/-! ## The run -/

theorem Encodes.decodes (h : Encodes s.params.framing pairs tab code xs) (x : Byte) (rest : List Byte) :
    (s.session (payloadLength s.params.framing code xs) pairs tab x rest).Decodes where
  prefixFree := h.prefixFree
  run := if_neg h.plen_ne_zero
  rem := h.plen_ne_zero
  acc := .inl rfl

theorem unpackBytes_prefix {bs cs : List Byte} (h : bs <+: cs) : unpackBytes bs <+: unpackBytes cs := by
  obtain ⟨ds, rfl⟩ := h
  exact ⟨unpackBytes ds, (List.flatMap_append).symm⟩

/-- The session over the packed payload, or the start of it, declares the payload bits. -/
theorem Encodes.declares (h : Encodes s.params.framing pairs tab code xs)
    (hpre : x :: rest <+: packBits (payloadBits code xs)) :
    (s.session (payloadLength s.params.framing code xs) pairs tab x rest).Declares xs (payloadBits code xs)
      (unpackBytes (packBits (payloadBits code xs))) where
  codes := Table.codes_of_entry h.entry
  bits := (Table.flatMap_codeOf h.entry).symm
  declared := List.prefix_iff_eq_take.mpr (take_unpackBytes_packBits _).symm
  ahead := unpackBytes_prefix hpre
  countBits hf := h.plen_toNat.trans (by rw [show s.params.framing = .bits from hf]; rfl)
  countSyms hf := h.plen_toNat.trans (by rw [show s.params.framing = .syms from hf]; rfl)

/-- Settles O48: the session starts, and the whole payload is ahead. -/
theorem decodeInvertsEncode : Obligations.DecodeInvertsEncode := by
  intro s pairs code xs hr hrd hcw hi hne hcoded hfits hs
  obtain ⟨tab, htab⟩ := Option.ne_none_iff_exists'.mp hi
  have h : Encodes s.params.framing pairs tab code xs := ⟨hcw, htab, hne, hcoded, hfits⟩
  have hlen : (packBits (payloadBits code xs)).length = ((payloadBits code xs).length + 7) / 8 := by
    rw [packBits_length, ceil8_eq]
  have hpos := h.payloadBits_pos
  obtain ⟨x, rest, hx⟩ := List.exists_cons_of_length_pos (l := packBits (payloadBits code xs)) (by omega)
  have hD := h.declares (x := x) (rest := rest) (hx ▸ List.prefix_refl _)
  rw [hx] at hs hlen
  obtain ⟨-, hexec⟩ := exec_decRun_of_declares (h.decodes x rest) hD (by rw [hx] at hD; exact hD.declared)
  have hsession := execAll_append (execAll_startDecode h hr hrd hs) [.decRun]
  rw [execAll_singleton, hexec] at hsession
  refine ⟨_, hsession, rfl, rfl, ?_, rfl, ?_, ?_⟩
  · have hle := h.length_le_plen
    have hemit : 0#32 + BitVec.ofNat 32 xs.length = BitVec.ofNat 32 xs.length := BitVec.zero_add _
    change (0#32 + BitVec.ofNat 32 xs.length).toNat = xs.length
    rw [hemit, BitVec.toNat_ofNat, Nat.mod_eq_of_lt (by omega)]
  · refine List.drop_eq_nil_of_le (as := rest) ?_
    rw [List.length_cons] at hlen
    change _ ≤ (0 + (payloadBits code xs).length - 1) / 8
    omega
  · rw [State.complete_rsps, Reply.val_word]
    change _ ++ [0x06#8 ++ (0#32 + BitVec.ofNat 32 xs.length)] = _
    rw [BitVec.zero_add]
    rfl

/-- Settles O49: the session starts with fewer bits ahead than declared, or has no byte to start on. -/
theorem truncatedPayloadIsMalformed : Obligations.TruncatedPayloadIsMalformed := by
  intro s pairs code xs hr hrd hcw hi hne hcoded hfits hs
  obtain ⟨tab, htab⟩ := Option.ne_none_iff_exists'.mp hi
  have h : Encodes s.params.framing pairs tab code xs := ⟨hcw, htab, hne, hcoded, hfits⟩
  have hlen : (packBits (payloadBits code xs)).length = ((payloadBits code xs).length + 7) / 8 := by
    rw [packBits_length, ceil8_eq]
  have hcut : (packBits (payloadBits code xs)).dropLast.length = (packBits (payloadBits code xs)).length - 1 :=
    List.length_dropLast
  refine ⟨fun htwo => ?_, fun hone => ?_⟩
  · obtain ⟨x, rest, hx⟩ :=
      List.exists_cons_of_length_pos (l := (packBits (payloadBits code xs)).dropLast) (by omega)
    have hD := h.declares (x := x) (rest := rest) (hx ▸ List.dropLast_prefix _)
    rw [hx] at hs hcut
    have hbits : (s.session (payloadLength s.params.framing code xs) pairs tab x rest).bitsAhead.length <
        (payloadBits code xs).length := by
      rw [show State.bitsAhead (s.session _ pairs tab x rest) = unpackBytes (x :: rest) from rfl, unpackBytes_length]
      omega
    obtain ⟨v, ys, hexec, hfault, hout, hrsps, hys, hne⟩ := exec_decRun_of_truncated (h.decodes x rest) hD hbits
    have hsession := execAll_append (execAll_startDecode h hr hrd hs) [.decRun]
    rw [execAll_singleton, hexec] at hsession
    refine ⟨_, ys, hsession, hout, hys, hne, hfault, ?_⟩
    rw [State.raise_rsps, hrsps]
    rfl
  · have hnil : (packBits (payloadBits code xs)).dropLast = [] := List.length_eq_zero_iff.mp (by omega)
    rw [hnil] at hs
    exact ⟨_, execAll_loadTable h hr hrd hs, rfl, exec_brOpen_of_src_nil hr hrd rfl⟩

end Sys2Proof.Machine

/-! Proofs of the statements of spec/44_system.md: the register view of `SYS.RD`, and what reset leaves. `STATUS` is
read field by field (`statusReg_flags`, `statusReg_fields`); every other register is one equation of `readReg`. -/

namespace Sys2Proof.Machine

variable {s : State}

/-! ## The fields of `STATUS` (R26) -/

/-- The five flags of `STATUS`, and its reserved bits 7 and 11. -/
theorem statusReg_flags (s : State) :
    (statusReg s).getLsbD 0 = s.bw.opened ∧ (statusReg s).getLsbD 1 = s.br.opened ∧
    (statusReg s).getLsbD 2 = s.br.eos ∧ (statusReg s).getLsbD 3 = s.tab.bad ∧ (statusReg s).getLsbD 4 = s.hdr.ok ∧
    (statusReg s).getLsbD 7 = false ∧ (statusReg s).getLsbD 11 = false := by
  simp only [statusReg, BitVec.getLsbD_append]
  simp [flagBit]

/-- The fields of `STATUS` that are wider than one bit, and its reserved upper half. -/
theorem statusReg_fields (s : State) :
    (statusReg s).extractLsb' 5 2 = s.dec.state.number ∧ (statusReg s).extractLsb' 8 3 = s.bw.cnt ∧
    (statusReg s).extractLsb' 12 4 = BitVec.ofNat 4 s.br.pos.val ∧ (statusReg s).extractLsb' 16 16 = 0 := by
  simp (disch := decide) only [statusReg, BitVec.extractLsb'_append_eq_of_le]
  exact ⟨BitVec.extractLsb'_append_eq_right, BitVec.extractLsb'_append_eq_right, BitVec.extractLsb'_append_eq_right,
    BitVec.extractLsb'_eq_self⟩

/-! ## `lut_cnt` and `CONFIG` (R18, R25) -/

/-- `lut_cnt` counts the symbols whose entry is not `none`. -/
theorem Table.count_eq_length_filter (tab : Table) :
    tab.count = ((List.finRange 256).filter fun a => (tab.lut.get a).isSome).length := by
  have hlist : tab.lut.toList = (List.finRange 256).map tab.lut.get := by
    rw [← List.ofFn_eq_map, ← Vector.toList_ofFn]
    exact congrArg Vector.toList Vector.ofFn_getElem.symm
  rw [Table.count, countEntries_eq_countP, hlist, List.countP_map, List.countP_eq_length_filter]
  rfl

theorem Table.toNat_ofNat_count (tab : Table) : (BitVec.ofNat 32 tab.count).toNat = tab.count :=
  Nat.mod_eq_of_lt (tab.count_le.trans_lt (by decide))

theorem configReg_toNat (params : Params) : (configReg params).toNat =
    (if params.framing = .syms then 1 else 0) + (if params.snkWr then 2 else 0) + (if params.srcRd then 4 else 0) := by
  rw [configReg_eq, BitVec.toNat_ofNat]
  split_ifs <;> rfl

/-! ## The commands (R80, R81) -/

theorem exec_sysRd_of_le {r : BitVec 8} (h : 12 ≤ r.toNat) : exec (.sysRd r) s = .next (s.raise .illegalCommand) := by
  rw [exec, execSysRd, readReg_eq_none_iff.mpr h]
  rfl

/-- Settles O50: the register exists, and its value is read off the equation of `readReg` for its number. -/
theorem sysRdReturnsTheRegister : Obligations.SysRdReturnsTheRegister := by
  refine fun r s => ⟨(decodeReadsExactlyTheEncodings _ _).mpr ⟨rfl, cmdWord_eq_add 0xF0 r⟩, exec_sysRd_of_le,
    fun hr => ?_⟩
  obtain ⟨v, hv⟩ := Option.ne_none_iff_exists'.mp (mt (readReg_eq_none_iff (s := s)).mp (Nat.not_le.mpr hr))
  have hreg {k : Byte} {w : Word32} (hw : readReg k s = some w) (hk : r = k) : v = w :=
    Option.some.inj (hv.symm.trans (hk ▸ hw))
  refine ⟨v, execSysRd_of_readReg hv, fun h0 => ?status, fun h1 => ?err, hreg rfl, hreg rfl, hreg rfl, hreg rfl,
    hreg rfl, fun h7 => ?lutCnt, fun h8 => ?bwBuf, fun h9 => ?brCur, hreg rfl, fun h11 => ?config⟩
  case status =>
    obtain ⟨hbwOpen, hbrOpen, heos, hbad, hok, hres7, hres11⟩ := statusReg_flags s
    obtain ⟨hdec, hcnt, hpos, hres⟩ := statusReg_fields s
    rw [hreg rfl h0, hdec, hpos]
    refine ⟨hbwOpen, hbrOpen, heos, hbad, hok, ?_, hres7, hcnt, hres11, ?_, hres⟩
    · cases s.dec.state <;> rfl
    · exact Nat.mod_eq_of_lt (by omega)
  case err => rw [hreg rfl h1, BitVec.toNat_setWidth_of_le (by decide)]
  case lutCnt => rw [hreg rfl h7, Table.toNat_ofNat_count, Table.count_eq_length_filter]
  case bwBuf => rw [hreg rfl h8, BitVec.toNat_setWidth_of_le (by decide)]
  case brCur => rw [hreg rfl h9, BitVec.toNat_setWidth_of_le (by decide)]
  case config => rw [hreg rfl h11, configReg_toNat]

/-- Settles O51: the command and the input end in `State.resetBlock`, whose table is the empty one. -/
theorem resetGivesEveryElementItsResetValue : Obligations.ResetGivesEveryElementItsResetValue :=
  ⟨by decide, fun _ => ⟨Table.reset, Table.entry_reset, rfl, rfl, rfl, fun _ hport => step_reset hport⟩⟩

end Sys2Proof.Machine

/-! Proofs of the statements of spec/60_exceptions.md: what raising a condition does, which command raises which
condition and where, what `err` says of a run of commands, and `FAULT`. `State.raisedBy` is R83 read command by command
in the priority of R87; that every command answers as it says is one lemma, `exec_answers`. -/

namespace Sys2Proof.Machine

variable {s t u : State} {i : Instr} {c d : Condition} {o : Option Condition} {r : Result}

/-! ## Raising (R82, R84, R85) -/

/-- Settles O9: the rule of `raise`, evaluated for each code. -/
theorem raisingSetsOneErrBitAndAnswersItsCode : Obligations.RaisingSetsOneErrBitAndAnswersItsCode :=
  fun _ => ⟨rfl, rfl, rfl, rfl, rfl, rfl⟩

/-! ## The condition a command raises (R83, R87) -/

/-- The condition that a command raises, if any: its tests in the order in which it makes them. -/
def State.raisedBy (s : State) : Instr → Option Condition
  | .bwOpen => if s.params.snkWr = false then some .invalidStreamMode else none
  | .bwWrite v =>
    if s.bw.opened = false then some .illegalCommand
    else if isBitValue v = false then some .invalidBitValue else none
  | .bwFlush => if s.bw.opened = false then some .illegalCommand else none
  | .brOpen =>
    if s.dec.state = .run then some .illegalCommand
    else if s.params.srcRd = false then some .invalidStreamMode
    else if s.src = [] then some .emptySource else none
  | .brRead =>
    if s.dec.state = .run then some .illegalCommand
    else if s.br.opened = false then some .illegalCommand else none
  | .lutClr => if s.dec.state = .run then some .illegalCommand else none
  | .lutBit _ => if s.tab.stg.length = maxLen then some .illegalCommand else none
  | .lutCommit x =>
    if s.dec.state = .run then some .illegalCommand
    else if lutCorrupt x s.tab.stg s.tab = true then some .codeTableCorrupt else none
  | .decHdr =>
    if s.dec.state = .run then some .illegalCommand
    else if s.params.srcRd = false then some .invalidStreamMode
    else if s.src.length < 8 then some .malformedStream else none
  | .decLdTab =>
    if s.dec.state = .run then some .illegalCommand
    else if s.hdr.ok = false then some .illegalCommand
    else if (ldTabLoop s.src.length s.hdr.l.toNat s).1 = true then some .codeTableCorrupt else none
  | .decStart =>
    if s.hdr.ok = false ∨ s.br.opened = false then some .illegalCommand
    else if s.tab.bad = true then some .codeTableCorrupt else none
  | .decStep =>
    if s.dec.state ≠ .run then some .illegalCommand
    else if (decStep s).1 = .malformed then some .malformedStream else none
  | .decRun =>
    if s.dec.state ≠ .run then some .illegalCommand
    else if (decLoop (bitsLeft s + 1) s).1 = true then some .malformedStream else none
  | .sysRd r => if 12 ≤ r.toNat then some .illegalCommand else none
  | .lutQry | .lutStgClr | .sysReset => none

/-- A command's answer, given over a state that kept the responses: it raises the condition `o`, or it completes when
there is none. -/
inductive Answers (s : State) : Option Condition → Result → Prop where
  | completes (u : State) (y : Reply) : u.rsps = s.rsps → Answers s none (.next (u.complete y))
  | refuses (u : State) (c : Condition) : u.rsps = s.rsps → Answers s (some c) (.next (u.raise c))

/-- One test of a command, before it has changed anything. -/
theorem Answers.guard {p : Prop} [Decidable p] (h : ¬ p → Answers s o r) :
    Answers s (if p then some c else o) (if p then raised c s else r) := by
  by_cases hp : p
  · rw [if_pos hp, if_pos hp]
    exact .refuses s c rfl
  · rw [if_neg hp, if_neg hp]
    exact h hp

theorem Condition.word_inj : c.word = d.word ↔ c = d := by
  cases c <;> cases d <;> decide

theorem Answers.raises_iff (h : Answers s o (exec i s)) : raises i s c ↔ o = some c := by
  generalize hres : exec i s = res at h
  cases h with
  | completes u y hu =>
    simp only [raises, hres, Host.Outcome.next.injEq, exists_eq_left', State.complete_rsps, hu, reduceCtorEq,
      List.append_singleton_inj, y.word_ne_condition_word, and_false]
  | refuses u d hu =>
    simp only [raises, hres, Host.Outcome.next.injEq, exists_eq_left', State.raise_rsps, hu, Option.some.injEq,
      List.append_singleton_inj, Condition.word_inj, true_and]

/-- Every command raises what `State.raisedBy` says, and completes where it says nothing. -/
theorem exec_answers (i : Instr) (s : State) : Answers s (s.raisedBy i) (exec i s) := by
  cases i with
  | bwOpen => exact .guard fun _ => .completes _ _ rfl
  | bwWrite v =>
    refine .guard fun _ => .guard fun _ => .completes _ _ ?_
    rw [bitWrite_frame]
  | bwFlush =>
    refine .guard fun _ => .completes _ _ ?_
    split <;> rfl
  | brOpen =>
    refine .guard fun _ => .guard fun _ => ?_
    rcases srcPull_cases s with ⟨hs, hp⟩ | ⟨x, rest, hs, hp⟩ <;> rw [hp, hs]
    · exact .refuses _ _ rfl
    · exact .completes _ _ rfl
  | brRead =>
    refine .guard fun _ => .guard fun _ => ?_
    rcases hb : bitRead s with ⟨_ | b, u⟩ <;> exact .completes _ _ (by rw [bitRead_frame_of hb])
  | lutClr => exact .guard fun _ => .completes _ _ rfl
  | lutBit b => exact .guard fun _ => .completes _ _ rfl
  | lutCommit x =>
    refine .guard fun _ => ?_
    have hstg : lutCorrupt x s.tab.stg { s.tab with stg := [] } = lutCorrupt x s.tab.stg s.tab := rfl
    dsimp only
    rw [lutInsert, hstg]
    cases lutCorrupt x s.tab.stg s.tab
    · exact .completes _ _ rfl
    · exact .refuses _ _ rfl
  | lutQry =>
    rw [exec, execLutQry]
    split
    · exact .completes _ _ rfl
    · split <;> exact .completes _ _ rfl
  | lutStgClr => exact .completes _ _ rfl
  | decHdr =>
    refine .guard fun _ => .guard fun _ => ?_
    rw [srcPullN_eq]
    rcases length_lt_eight_or_cons s.src with h | ⟨x0, x1, x2, x3, x4, x5, x6, x7, rest, h⟩
    · rw [if_pos h, if_neg (by omega)]
      exact .refuses _ _ rfl
    · rw [h]
      exact .completes _ _ rfl
  | decLdTab =>
    refine .guard fun _ => .guard fun _ => ?_
    have hrsps : (ldTabLoop s.src.length s.hdr.l.toNat s).2.rsps = s.rsps := by rw [ldTabLoop_frame]
    rcases hl : ldTabLoop s.src.length s.hdr.l.toNat s with ⟨_ | _, u⟩ <;> rw [hl] at hrsps
    · exact .completes _ _ hrsps
    · exact .refuses _ _ hrsps
  | decStart => exact .guard fun _ => .guard fun _ => .completes _ _ rfl
  | decStep =>
    refine .guard fun _ => ?_
    rcases hd : decStep s with ⟨_ | _ | _, u⟩ <;> have hrsps := decStep_rsps (congrArg Prod.snd hd)
    · exact .completes _ _ hrsps
    · exact .completes _ _ hrsps
    · exact .refuses _ _ hrsps
  | decRun =>
    refine .guard fun _ => ?_
    rcases hd : decLoop (bitsLeft s + 1) s with ⟨_ | _, u⟩ <;> have hrsps := decLoop_rsps (congrArg Prod.snd hd)
    · exact .completes _ _ hrsps
    · exact .refuses _ _ hrsps
  | sysRd r =>
    rw [exec, execSysRd, State.raisedBy]
    by_cases h : 12 ≤ r.toNat
    · rw [if_pos h, readReg_eq_none_iff.mpr h]
      exact .refuses _ _ rfl
    · obtain ⟨v, hv⟩ := Option.ne_none_iff_exists'.mp (mt (readReg_eq_none_iff (s := s)).mp h)
      rw [if_neg h, hv]
      exact .completes _ _ rfl
  | sysReset => exact .completes _ _ rfl

theorem raises_iff : raises i s c ↔ s.raisedBy i = some c := (exec_answers i s).raises_iff

/-! ## The tests of R83 in the terms of the spec -/

theorem isBitValue_eq_false_iff {v : Byte} : isBitValue v = false ↔ 2 ≤ v.toNat := by
  simp only [isBitValue, Bool.or_eq_false_iff, beq_eq_false_iff_ne]
  bv_omega

theorem lutCorrupt_iff_prefix {sym : Symbol} {code : BitString} {tab : Table} :
    lutCorrupt sym code tab = true ↔
      code = [] ∨ tab.entry sym ≠ none ∨ ∃ a e, tab.entry a = some e ∧ (e <+: code ∨ code <+: e) := by
  simp only [lutCorrupt_iff, prefixRelated_iff]

/-- `DEC.LDTAB` finds the block corrupt exactly where it does not load (R72). -/
theorem ldTabLoop_corrupt_iff :
    (ldTabLoop s.src.length s.hdr.l.toNat s).1 = true ↔ ¬ BlockLoads s.hdr.l.toNat s := by
  rw [ldTabLoop_fuel le_rfl (Nat.le_succ _)]
  constructor
  · rintro hbad ⟨block, rest, pairs, hs, hlen, hblock, hins⟩
    obtain ⟨tab, hi⟩ := Option.ne_none_iff_exists'.mp hins
    rw [← hlen, ldTabLoop_of_isTableBlock hblock hs hi (Nat.lt_succ_self _)] at hbad
    cases hbad
  · intro hno
    obtain ⟨tab, rest, -, hloop⟩ := (ldTabLoop_cases s.hdr.l.toNat (Nat.lt_succ_self _)).resolve_left hno
    rw [hloop]

/-- Where a step of the automaton raises (R74): no bit is ahead, or the bit completes no codeword and either begins none
or is the last one declared. -/
def State.stepFails (s : State) : Prop :=
  s.bitsAhead = [] ∨ ∃ b w, s.bitsAhead = b :: w ∧ (∀ x, s.tab.entry x ≠ some (s.dec.acc ++ [b])) ∧
    (¬ s.tab.hasProperPrefix (s.dec.acc ++ [b]) ∨ (s.params.framing = .bits ∧ s.dec.rem = 1))

/-- The condition of `State.stepFails` in terms of what `DecStep()` asks of the table and the count. -/
theorem State.stepFails_iff_of_cons {b : Bool} {w : BitString} (h : s.bitsAhead = b :: w) : s.stepFails ↔
    lutMatch (s.dec.acc ++ [b]) s.tab = none ∧ (lutPrefix (s.dec.acc ++ [b]) s.tab = false ∨
      (s.params.framing = .bits ∧ (decAccept b s).dec.rem = 0)) := by
  have hpre : lutPrefix (s.dec.acc ++ [b]) s.tab = false ↔ ¬ s.tab.hasProperPrefix (s.dec.acc ++ [b]) := by
    rw [← Bool.not_eq_true, lutPrefix_iff, Table.hasProperPrefix]
  have hrem : s.params.framing = .bits ∧ (decAccept b s).dec.rem = 0 ↔ s.params.framing = .bits ∧ s.dec.rem = 1 :=
    and_congr_right fun hf => by rw [decAccept_rem_bits b hf]; exact sub_eq_zero
  rw [hpre, hrem, lutMatch_none_iff, State.stepFails, h]
  simp

theorem decStep_malformed_iff : (decStep s).1 = .malformed ↔ s.stepFails := by
  rcases h : s.bitsAhead with _ | ⟨b, w⟩
  · rw [decStep_of_none (bitRead_of_bitsAhead_nil h)]
    exact iff_of_true rfl (.inl h)
  · obtain ⟨br, src, hb, -⟩ := bitRead_of_bitsAhead_cons h
    rw [State.stepFails_iff_of_cons h]
    rcases decStep_cases s with ⟨u, hb', -⟩ | ⟨_, u, x, hb', hm, hd⟩ | ⟨_, u, hb', hm, hdead, hd⟩ |
        ⟨_, u, hb', hm, hp, hc, hd⟩ <;> rw [hb] at hb' <;> cases hb' <;> rw [hd]
    · exact iff_of_false nofun fun hfail => by simp [hfail.1] at hm
    · exact iff_of_true rfl ⟨hm, hdead⟩
    · exact iff_of_false nofun fun hfail => hfail.2.elim (by simp [hp]) hc

/-! ## `DEC.RUN` raises where repeated steps do (R76) -/

/-- The loop from the state after a step that did not raise. -/
theorem decLoop_fst_of_step {y : StepYield} (hr : s.dec.state = .run) (hd : decStep s = (y, u))
    (hy : y ≠ .malformed) : (decLoop (bitsLeft s + 1) s).1 = (decLoop (bitsLeft u + 1) u).1 := by
  have hne : (decStep s).1 ≠ .malformed := by rwa [hd]
  rw [decLoop_succ, if_pos hr, if_neg hne, ← decStep_bitsLeft hne, hd]

/-- The responses given make no difference to the loop. -/
theorem decLoop_complete_fst (n : Nat) (y : Reply) (u : State) : (decLoop n (u.complete y)).1 = (decLoop n u).1 :=
  (congrArg Prod.fst (decLoop_within n (u.complete y) u) :)

theorem raises_malformedStream_decStep_iff :
    raises .decStep s .malformedStream ↔ s.dec.state = .run ∧ (decStep s).1 = .malformed := by
  simp [raises_iff, State.raisedBy, ite_eq_iff]

theorem raises_malformedStream_decRun_iff :
    raises .decRun s .malformedStream ↔ s.dec.state = .run ∧ (decLoop (bitsLeft s + 1) s).1 = true := by
  simp [raises_iff, State.raisedBy, ite_eq_iff]

theorem raises_malformedStream_decRun_of_stepsTo {n : Nat} (h : StepsTo n s t)
    (ht : raises .decStep t .malformedStream) : raises .decRun s .malformedStream := by
  induction h with
  | zero s =>
    obtain ⟨hr, hd⟩ := raises_malformedStream_decStep_iff.mp ht
    rw [raises_malformedStream_decRun_iff, decLoop_succ, if_pos hr, if_pos hd]
    exact ⟨hr, rfl⟩
  | succ n s m t hr hm _ ih =>
    obtain ⟨hmr, hloop⟩ := raises_malformedStream_decRun_iff.mp (ih ht)
    refine raises_malformedStream_decRun_iff.mpr ⟨hr, ?_⟩
    rcases hd : decStep s with ⟨y, u⟩
    by_cases hy : y = .malformed
    · subst hy
      rw [exec_decStep_of_malformed hr hd] at hm
      cases hm
      exact absurd hmr (by simp [(decStep_malformed hr hd).2])
    · obtain ⟨z, hz⟩ := exec_decStep_of_ne_malformed hr hd hy
      rw [hz] at hm
      cases hm
      rw [decLoop_fst_of_step hr hd hy, ← decLoop_complete_fst _ z]
      exact hloop

theorem raises_malformedStream_decRun_iff_stepsTo : raises .decRun s .malformedStream ↔
    ∃ n m, StepsTo n s m ∧ m.dec.state = .run ∧ raises .decStep m .malformedStream := by
  refine ⟨fun h => ?_, fun ⟨_, _, hsteps, _, hm⟩ => raises_malformedStream_decRun_of_stepsTo hsteps hm⟩
  have hr := (raises_malformedStream_decRun_iff.mp h).1
  have hstart : ReachedBySteps s s := ⟨0, s.rsps, .zero s, rfl, .inl hr⟩
  rcases exec_decRun_cases (fun _ _ _ => ReachedBySteps.step) hstart hr with
    ⟨u, ⟨n, rsps, -, hrsps, -⟩, -, hexec⟩ | ⟨u, v, ⟨n, rsps, hsteps, -, -⟩, hur, hd, -⟩
  · obtain ⟨t, ht, hw⟩ := h
    rw [hexec] at ht
    cases ht
    exact absurd hw (State.complete_rsps_ne _ _ hrsps)
  · exact ⟨n, _, hsteps, hur, raises_malformedStream_decStep_iff.mpr
      ⟨hur, congrArg Prod.fst (decStep_setRsps hd rsps)⟩⟩

/-! ## R83, condition by condition

Each lemma reads one condition off `State.raisedBy`: per command, its row holds exactly where its tests lead to the
condition. -/

theorem raises_invalidBitValue_iff : raises i s .invalidBitValue ↔
    ∃ v : BitVec 8, i = .bwWrite v ∧ s.bw.opened = true ∧ 2 ≤ v.toNat := by
  rw [raises_iff]
  cases i <;> simp [State.raisedBy, ite_eq_iff, isBitValue_eq_false_iff, Nat.succ_le_iff]

theorem raises_invalidStreamMode_iff : raises i s .invalidStreamMode ↔
    (i = .bwOpen ∧ s.params.snkWr = false) ∨
      ((i = .brOpen ∨ i = .decHdr) ∧ s.dec.state ≠ .run ∧ s.params.srcRd = false) := by
  rw [raises_iff]
  cases i <;> simp [State.raisedBy, ite_eq_iff]

theorem raises_emptySource_iff : raises i s .emptySource ↔
    i = .brOpen ∧ s.dec.state ≠ .run ∧ s.params.srcRd = true ∧ s.src = [] := by
  rw [raises_iff]
  cases i <;> simp [State.raisedBy, ite_eq_iff]

theorem raises_malformedStream_iff : raises i s .malformedStream ↔
    (i = .decHdr ∧ s.dec.state ≠ .run ∧ s.params.srcRd = true ∧ s.src.length < 8) ∨
      (i = .decStep ∧ s.dec.state = .run ∧ s.stepFails) ∨
      (i = .decRun ∧ ∃ n m, StepsTo n s m ∧ m.dec.state = .run ∧ raises .decStep m .malformedStream) := by
  rw [← raises_malformedStream_decRun_iff_stepsTo, raises_malformedStream_decRun_iff, raises_iff,
    ← decStep_malformed_iff]
  cases i <;> simp [State.raisedBy, ite_eq_iff]

theorem raises_codeTableCorrupt_iff : raises i s .codeTableCorrupt ↔
    (∃ x, i = .lutCommit x ∧ s.dec.state ≠ .run ∧ lutCorrupt x s.tab.stg s.tab = true) ∨
      (i = .decLdTab ∧ s.dec.state ≠ .run ∧ s.hdr.ok = true ∧ ¬ BlockLoads s.hdr.l.toNat s) ∨
      (i = .decStart ∧ s.hdr.ok = true ∧ s.br.opened = true ∧ s.tab.bad = true) := by
  rw [raises_iff, ← ldTabLoop_corrupt_iff]
  cases i <;> simp [State.raisedBy, ite_eq_iff, and_assoc]

theorem raises_illegalCommand_iff_listed : raises i s .illegalCommand ↔
    ((i = .brOpen ∨ i = .brRead ∨ i = .lutClr ∨ (∃ x, i = .lutCommit x) ∨ i = .decHdr ∨ i = .decLdTab) ∧
      s.dec.state = .run) ∨
    (((∃ v, i = .bwWrite v) ∨ i = .bwFlush) ∧ s.bw.opened = false) ∨
    (i = .brRead ∧ s.br.opened = false) ∨
    ((∃ b, i = .lutBit b) ∧ s.tab.stg.length = 255) ∨
    (i = .decLdTab ∧ s.hdr.ok = false) ∨
    (i = .decStart ∧ (s.hdr.ok = false ∨ s.br.opened = false)) ∨
    ((i = .decStep ∨ i = .decRun) ∧ s.dec.state ≠ .run) ∨
    (∃ r : BitVec 8, i = .sysRd r ∧ 12 ≤ r.toNat) := by
  rw [raises_iff]
  cases i <;> simp [State.raisedBy, ite_eq_iff, or_iff_not_imp_left]

/-- Settles O12: one lemma per condition, and `step_illegalWord`. -/
theorem conditionsAreRaisedExactlyWhereListed : Obligations.ConditionsAreRaisedExactlyWhereListed := by
  refine ⟨fun i s => ⟨raises_invalidBitValue_iff, raises_invalidStreamMode_iff, raises_emptySource_iff,
    raises_malformedStream_iff, ?_, raises_illegalCommand_iff_listed⟩,
    fun s cw rest hport ⟨_, hd⟩ => step_illegalWord hport hd⟩
  simp only [raises_codeTableCorrupt_iff, lutCorrupt_iff_prefix]
  rfl

/-! ## A run of commands (R20, R88) -/

theorem one_shiftLeft_ne_zero {k : Nat} (hk : k ≤ 6) : 1#7 <<< k ≠ 0 := by
  interval_cases k <;> decide

/-- A command other than `SYS.RESET` leaves `err` clean exactly when it was clean and no condition is raised. -/
theorem exec_clean (hi : i ≠ .sysReset) : ∃ t w, exec i s = .next t ∧ t.rsps = s.rsps ++ [w] ∧
    (t.clean ↔ s.clean ∧ rspCond w = 0) := by
  obtain ⟨t, w, ht, hrsps, hsix, -, -⟩ := (exec_ends i s).answersOnce
  have hends := (exec_effect i s).imp fun u hu => hu.err hi
  rw [ht] at hends
  obtain ⟨hzero, hset⟩ := hends.err_eq hrsps
  refine ⟨t, w, ht, hrsps, ?_⟩
  by_cases hw : rspCond w = 0
  · rw [State.clean, State.clean, hzero hw, and_iff_left hw]
  · rw [State.clean, hset hw]
    refine iff_of_false (fun h => ?_) fun h => hw h.2
    exact one_shiftLeft_ne_zero hsix (BitVec.or_eq_zero_iff.mp h).2

/-- Settles O11, by induction on the commands (`exec_clean`). -/
theorem cleanErrMeansNoConditionWasRaised : Obligations.CleanErrMeansNoConditionWasRaised := by
  intro is
  induction is with
  | nil => exact fun s _ => ⟨s, [], rfl, by simp, rfl, by simp⟩
  | cons i is ih =>
    intro s hreset
    obtain ⟨hi, his⟩ := List.ne_and_not_mem_of_not_mem_cons hreset
    obtain ⟨u, w, hexec, hw, hclean⟩ := exec_clean (s := s) (Ne.symm hi)
    obtain ⟨t, ws, hall, hws, hlen, hiff⟩ := ih u his
    refine ⟨t, w :: ws, (execAll_cons hexec is).trans hall, ?_, congrArg (· + 1) hlen, ?_⟩
    · rw [hws, hw, List.append_assoc, List.singleton_append]
    · rw [hiff, hclean, and_assoc, List.forall_mem_cons]

/-! ## `FAULT` (R88, R98) -/

/-- A step or a run that raises `MalformedStream` was in `RUN`, and stops in `FAULT`. -/
theorem exec_decode_fault (hi : i = .decStep ∨ i = .decRun) (h : exec i s = .next t)
    (hw : t.rsps = s.rsps ++ [Condition.malformedStream.word]) : t.dec.state = .fault := by
  have hraises : raises i s .malformedStream := ⟨t, h, hw⟩
  rcases hi with rfl | rfl
  · obtain ⟨hr, -⟩ := raises_malformedStream_decStep_iff.mp hraises
    obtain ⟨-, hfault, -⟩ := exec_decStep_state hr h
    exact hfault.mpr hw
  · obtain ⟨hr, -⟩ := raises_malformedStream_decRun_iff.mp hraises
    rcases exec_decRun_state hr h with ⟨hfault, -⟩ | ⟨-, -, hne⟩
    · exact hfault
    · exact absurd hw hne

/-- Settles O46: a decode that raises stops in `FAULT`, and the symbol sink only grows (`moves_of_exec`). -/
theorem malformedDecodeStopsInFault : Obligations.MalformedDecodeStopsInFault := by
  intro i s t hi h hw
  have hfault := exec_decode_fault hi h hw
  have hr : t.dec.state ≠ .run := by simp [hfault]
  refine ⟨hfault, by simp [State.validOutput, hfault], ?_, exec_decStep_of_not_run hr, exec_decRun_of_not_run hr⟩
  exact (moves_of_exec h).out

end Sys2Proof.Machine
